-- ==== Sys2Proof/Word.lean ====
section
/-! DEFINITION. The word types of the block: the element of a ring buffer and the rate operand. -/

namespace Sys2Proof

/-- The element type `T` of every ring buffer, of the data registers and of a code: `W` = `CODE_W` = 8 bits, unsigned
(00_scope.md R2, R8). -/
abbrev Byte := BitVec 8

/-- The operand `rate` of `ST.CONFIGURE`: an unsigned 32-bit number of hertz (30_encoding.md R67). -/
abbrev Rate := BitVec 32

end Sys2Proof
end

