-- ==== Sys2Proof/Syntax.lean ====
section
/-! DEFINITION. The stimuli of the block as an inductive type: one constructor per mnemonic of the opcode table, whose
rows for one mnemonic differ in the operand `f` alone (30_encoding.md R65, R68; log 5). -/

namespace Sys2Proof

/-- The ring buffers of the block, as the field `fsel` selects them (00_scope.md R3): `SER_RX` is 0, `SER_TX` 1,
`LINK_RX` 2. -/
inductive Inst where
  | serRx
  | serTx
  | linkRx
deriving DecidableEq, Repr

/-- One stimulus: a mainline operation request, a handler invocation or an environment event (30_encoding.md R64,
R68 to R71). -/
inductive Instr where
  /-- `RB.CLEAR f` (R90). -/
  | rbClear (f : Inst)
  /-- `RB.IS_EMPTY f` (R91). -/
  | rbIsEmpty (f : Inst)
  /-- `RB.IS_FULL f` (R92). -/
  | rbIsFull (f : Inst)
  /-- `RB.PUSH f, v` (R93). -/
  | rbPush (f : Inst) (v : Byte)
  /-- `RB.POP f` (R94). -/
  | rbPop (f : Inst)
  /-- `ST.CONFIGURE rate, tol` (R100). -/
  | stConfigure (rate : Rate) (tol : Byte)
  /-- `ST.SEND_BYTE v` (R103). -/
  | stSendByte (v : Byte)
  /-- `ST.SEND_STRING "c"` (R105), the bytes before the terminator. -/
  | stSendString (c : List Byte)
  /-- `ST.RECV_BYTE` (R107). -/
  | stRecvByte
  /-- `ST.RECV_LINE max_len` (R109). -/
  | stRecvLine (maxLen : Byte)
  /-- `ST.ISR_TX`: the dispatcher runs the transmit-ready handler now (R112). -/
  | stIsrTx
  /-- `ST.ISR_RX`: the dispatcher runs the receive-ready handler now (R113). -/
  | stIsrRx
  /-- `CL.ISR_EDGE`: the dispatcher runs the clock-edge handler now (R120). -/
  | clIsrEdge
  /-- `CL.READ_BYTE` (R125). -/
  | clReadByte
  /-- `CL.READ_SCANCODE` (R126). -/
  | clReadScancode
  /-- `SYS.RESET` (R135). -/
  | sysReset
  /-- `SYS.INIT` (R136). -/
  | sysInit
  /-- `SYS.IRQ_ON` (R137). -/
  | sysIrqOn
  /-- `SYS.IRQ_OFF` (R138). -/
  | sysIrqOff
  /-- `SYS.WAIT` (R139). -/
  | sysWait
  /-- `ENV.RX_ARRIVE v` (R141). -/
  | envRxArrive (v : Byte)
  /-- `ENV.TX_DONE` (R142). -/
  | envTxDone
  /-- `ENV.CLK_FALL b`, the data line at level `b` (R143). -/
  | envClkFall (b : Bool)
deriving DecidableEq, Repr

end Sys2Proof
end

