-- ==== Sys2Proof/Config.lean ====
section
/-! DEFINITION. The parameters of 00_scope.md section 4: the fixed byte values, the record of the parameters a model
takes as arguments, and the parameters of the reset state, where those without a default are opaque constants. -/

namespace Sys2Proof.Config

/-- `NEWLINE` (00_scope.md R9). -/
def newline : Byte := 0x0A

/-- `CR` (00_scope.md R9). -/
def carriageReturn : Byte := 0x0D

/-- `STR_TERM` (00_scope.md R9). -/
def strTerm : Byte := 0x00

/-- `F_CLK` less one, so that `F_CLK >= 1`; the spec gives `F_CLK` no value (00_scope.md R4, D14; log 4). -/
opaque fClkLessOne : Nat

/-- The bytes of `ESCAPE_SET`; the spec gives it no value (00_scope.md R7, D27; log 4). -/
opaque escapeSet : List Byte

/-- The entries of the table behind `translate`; the spec gives it no contents (00_scope.md R8, D27; log 4). -/
opaque translation : List (Byte × Byte)

end Sys2Proof.Config

namespace Sys2Proof

/-- The parameters of the block (00_scope.md section 4, the summary table): fixed when the block is built. -/
structure Params where
  /-- `N[SER_RX]` (R1). -/
  capSerRx : Nat
  /-- `N[SER_TX]` (R1). -/
  capSerTx : Nat
  /-- `N[LINK_RX]` (R1). -/
  capLinkRx : Nat
  /-- `F_CLK` in hertz (R4). -/
  fClk : Nat
  /-- `DIV_BITS` (R5). -/
  divBits : Nat
  /-- `ESCAPE_SET` (R7). -/
  escapeSet : List Byte
  /-- The table of `translate` (R8): a byte it does not list is unmapped. -/
  translation : List (Byte × Byte)
  /-- `ATOMIC_CHECK_SLEEP` (R9). -/
  atomicCheckSleep : Bool
  /-- `CRLF_IN_SEND_BYTE` (R9). -/
  crlfInSendByte : Bool
deriving DecidableEq, Repr

/-- `N[f]` (00_scope.md R1). -/
def Params.cap (p : Params) : Inst → Nat
  | .serRx => p.capSerRx
  | .serTx => p.capSerTx
  | .linkRx => p.capLinkRx

/-- The parameters of the reset state: the defaults of 00_scope.md section 4, and the opaque constants where the spec
gives none. -/
def Config.params : Params where
  capSerRx := 16
  capSerTx := 16
  capLinkRx := 16
  fClk := Config.fClkLessOne + 1
  divBits := 12
  escapeSet := Config.escapeSet
  translation := Config.translation
  atomicCheckSleep := false
  crlfInSendByte := false

end Sys2Proof
end

