-- ==== Sys2Proof/WellFormed.lean ====
section
/-! DEFINITION. Which stimuli the encoding can express, and which parameters a model may be built with. -/

namespace Sys2Proof

/-- A stimulus the stream can express: the string of format S holds no terminator byte (30_encoding.md R66, R67, R72);
every other operand takes every value of its width. -/
def Instr.wf : Instr → Bool
  | .stSendString c => c.all (fun b => decide (b ≠ Config.strTerm))
  | .rbClear _ | .rbIsEmpty _ | .rbIsFull _ | .rbPush _ _ | .rbPop _
  | .stConfigure _ _ | .stSendByte _ | .stRecvByte | .stRecvLine _ | .stIsrTx | .stIsrRx
  | .clIsrEdge | .clReadByte | .clReadScancode
  | .sysReset | .sysInit | .sysIrqOn | .sysIrqOff | .sysWait
  | .envRxArrive _ | .envTxDone | .envClkFall _ => true

/-- `2 <= N[f] <= 255` (00_scope.md R1). -/
def Params.capOk (p : Params) (f : Inst) : Bool :=
  decide (2 ≤ p.cap f ∧ p.cap f ≤ 255)

/-- Every instance has a legal capacity; a block without that is refused (00_scope.md R1). -/
def Params.capacityOk (p : Params) : Bool :=
  p.capOk .serRx && p.capOk .serTx && p.capOk .linkRx

/-- All ranges of the summary table of 00_scope.md section 4. -/
def Params.wf (p : Params) : Bool :=
  p.capacityOk && decide (1 ≤ p.fClk) && decide (1 ≤ p.divBits)

end Sys2Proof
end

