-- ==== Sys2Proof/Decode.lean ====
section
/-! DEFINITION. The stimulus stream: decoding its front, and after it the encoder, both written from the maps of
30_encoding.md R65 to R72. -/

namespace Sys2Proof

/-- Why a stream cannot be cut at its front (30_encoding.md R64, R72). -/
inductive DecodeError where
  /-- The opcode byte is not assigned. -/
  | reservedCode
  /-- `fsel` is 3 on a ring buffer function. -/
  | badFsel
  /-- The bytes end inside the stimulus. -/
  | truncatedStimulus
deriving DecidableEq, Repr

/-- `op[7:6]` (R65). -/
def opUnit (op : Byte) : Nat := op.toNat / 64

/-- `op[5:4]` (R65). -/
def opFsel (op : Byte) : Nat := op.toNat / 16 % 4

/-- `op[3:0]` (R65). -/
def opFn (op : Byte) : Nat := op.toNat % 16

/-- The instance a value of `fsel` selects; 3 selects nothing (00_scope.md R3). -/
def Inst.ofFsel : Nat → Option Inst
  | 0 => some .serRx
  | 1 => some .serTx
  | 2 => some .linkRx
  | _ => none

/-- Format B: the one operand byte, used as is (R66, R67). -/
def takeByte (k : Byte → Instr) : List Byte → Except DecodeError (Instr × List Byte)
  | [] => .error .truncatedStimulus
  | v :: rest => .ok (k v, rest)

/-- `rate` of format C, assembled little-endian (R67). -/
def assembleRate (b1 b2 b3 b4 : Byte) : Rate :=
  BitVec.ofNat 32 (b1.toNat + 256 * b2.toNat + 65536 * b3.toNat + 16777216 * b4.toNat)

/-- Format C: four rate bytes and the tolerance (R66, R67). -/
def takeConfigure : List Byte → Except DecodeError (Instr × List Byte)
  | b1 :: b2 :: b3 :: b4 :: tol :: rest => .ok (.stConfigure (assembleRate b1 b2 b3 b4) tol, rest)
  | _ => .error .truncatedStimulus

/-- The bytes before the first terminator and the bytes behind it (R66, R74). -/
def splitString : List Byte → Option (List Byte × List Byte)
  | [] => none
  | c :: cs =>
    if c = Config.strTerm then some ([], cs)
    else match splitString cs with
      | none => none
      | some (str, rest) => some (c :: str, rest)

/-- Format S (R66, R67). -/
def takeString (bs : List Byte) : Except DecodeError (Instr × List Byte) :=
  match splitString bs with
  | none => .error .truncatedStimulus
  | some (str, rest) => .ok (.stSendString str, rest)

/-- Unit 0, the ring buffer functions on instance `f` (R68). -/
def decodeRb (f : Inst) (fn : Nat) (rest : List Byte) : Except DecodeError (Instr × List Byte) :=
  match fn with
  | 0 => .ok (.rbClear f, rest)
  | 1 => .ok (.rbIsEmpty f, rest)
  | 2 => .ok (.rbIsFull f, rest)
  | 3 => takeByte (.rbPush f) rest
  | 4 => .ok (.rbPop f, rest)
  | _ => .error .reservedCode

/-- Unit 1, the serial transport (R69). -/
def decodeSt (fn : Nat) (rest : List Byte) : Except DecodeError (Instr × List Byte) :=
  match fn with
  | 0 => takeConfigure rest
  | 1 => takeByte .stSendByte rest
  | 2 => takeString rest
  | 3 => .ok (.stRecvByte, rest)
  | 4 => takeByte .stRecvLine rest
  | 8 => .ok (.stIsrTx, rest)
  | 9 => .ok (.stIsrRx, rest)
  | _ => .error .reservedCode

/-- Unit 2, the clocked link decoder (R70). -/
def decodeCl (fn : Nat) (rest : List Byte) : Except DecodeError (Instr × List Byte) :=
  match fn with
  | 0 => .ok (.clIsrEdge, rest)
  | 2 => .ok (.clReadByte, rest)
  | 3 => .ok (.clReadScancode, rest)
  | _ => .error .reservedCode

/-- Unit 3, platform and environment (R71); for `ENV.CLK_FALL`, `op[0]` is the sampled bit (R65). -/
def decodeSys (fn : Nat) (rest : List Byte) : Except DecodeError (Instr × List Byte) :=
  match fn with
  | 0 => .ok (.sysReset, rest)
  | 1 => .ok (.sysInit, rest)
  | 2 => .ok (.sysIrqOn, rest)
  | 3 => .ok (.sysIrqOff, rest)
  | 4 => .ok (.sysWait, rest)
  | 8 => takeByte .envRxArrive rest
  | 9 => .ok (.envTxDone, rest)
  | 10 => .ok (.envClkFall false, rest)
  | 11 => .ok (.envClkFall true, rest)
  | _ => .error .reservedCode

/-- Unit 0 by its fields: `fsel` = 3 is `BadFsel` on the functions 0 to 4 and reserved on the others (R72). -/
def decodeUnit0 (fsel fn : Nat) (rest : List Byte) : Except DecodeError (Instr × List Byte) :=
  match Inst.ofFsel fsel with
  | some f => decodeRb f fn rest
  | none => .error (if fn ≤ 4 then .badFsel else .reservedCode)

/-- A stimulus by the fields of its opcode byte; units 1 to 3 need `fsel` = 0 (R65, R72). -/
def decodeFields (unit fsel fn : Nat) (rest : List Byte) : Except DecodeError (Instr × List Byte) :=
  if unit = 0 then decodeUnit0 fsel fn rest
  else if fsel ≠ 0 then .error .reservedCode
  else if unit = 1 then decodeSt fn rest
  else if unit = 2 then decodeCl fn rest
  else decodeSys fn rest

/-- The stimulus at the front of a stream and the bytes behind it (R64, R74). No bytes hold no stimulus; the step asks
only where a byte is left. -/
def decode : List Byte → Except DecodeError (Instr × List Byte)
  | [] => .error .truncatedStimulus
  | op :: rest => decodeFields (opUnit op) (opFsel op) (opFn op) rest

/-! ### The encoder -/

/-- `fsel` of an instance (00_scope.md R3). -/
def Inst.fsel : Inst → Nat
  | .serRx => 0
  | .serTx => 1
  | .linkRx => 2

/-- An opcode byte from its three fields (R65). -/
def opByte (unit fsel fn : Nat) : Byte := BitVec.ofNat 8 (unit * 64 + fsel * 16 + fn)

/-- The opcode byte of a stimulus (R68 to R71). -/
def opcode : Instr → Byte
  | .rbClear f => opByte 0 f.fsel 0
  | .rbIsEmpty f => opByte 0 f.fsel 1
  | .rbIsFull f => opByte 0 f.fsel 2
  | .rbPush f _ => opByte 0 f.fsel 3
  | .rbPop f => opByte 0 f.fsel 4
  | .stConfigure _ _ => opByte 1 0 0
  | .stSendByte _ => opByte 1 0 1
  | .stSendString _ => opByte 1 0 2
  | .stRecvByte => opByte 1 0 3
  | .stRecvLine _ => opByte 1 0 4
  | .stIsrTx => opByte 1 0 8
  | .stIsrRx => opByte 1 0 9
  | .clIsrEdge => opByte 2 0 0
  | .clReadByte => opByte 2 0 2
  | .clReadScancode => opByte 2 0 3
  | .sysReset => opByte 3 0 0
  | .sysInit => opByte 3 0 1
  | .sysIrqOn => opByte 3 0 2
  | .sysIrqOff => opByte 3 0 3
  | .sysWait => opByte 3 0 4
  | .envRxArrive _ => opByte 3 0 8
  | .envTxDone => opByte 3 0 9
  | .envClkFall b => opByte 3 0 (if b then 11 else 10)

/-- `rate` as its four bytes, least significant first (R66). -/
def rateBytes (r : Rate) : List Byte :=
  [BitVec.ofNat 8 r.toNat, BitVec.ofNat 8 (r.toNat / 256),
   BitVec.ofNat 8 (r.toNat / 65536), BitVec.ofNat 8 (r.toNat / 16777216)]

/-- The operand bytes of a stimulus (R66, R67). -/
def operandBytes : Instr → List Byte
  | .rbPush _ v => [v]
  | .stConfigure rate tol => rateBytes rate ++ [tol]
  | .stSendByte v => [v]
  | .stSendString c => c ++ [Config.strTerm]
  | .stRecvLine m => [m]
  | .envRxArrive v => [v]
  | .rbClear _ | .rbIsEmpty _ | .rbIsFull _ | .rbPop _ | .stRecvByte | .stIsrTx | .stIsrRx
  | .clIsrEdge | .clReadByte | .clReadScancode
  | .sysReset | .sysInit | .sysIrqOn | .sysIrqOff | .sysWait | .envTxDone | .envClkFall _ => []

/-- The bytes of a stimulus (R66). -/
def encode (i : Instr) : List Byte := opcode i :: operandBytes i

/-! ### Instructions given as one number, as the opcode table numbers their bits -/

/-- Byte `k` of the number `w`: bits `8k+7 .. 8k`. -/
def byteOf (w k : Nat) : Byte := BitVec.ofNat 8 (w / 256 ^ k)

/-- The bytes of an instruction whose low `nbits` bits are `w`, and behind them zero bytes, at least one (the terminator
of an empty format S string) and as many as the fixed formats need. -/
def tableBytes (nbits w : Nat) : List Byte :=
  (List.range ((nbits + 7) / 8)).map (byteOf w) ++ List.replicate 6 0

/-- The instruction the decoder reads from the table's word `w`. -/
def decodeTableWord (nbits w : Nat) : Option Instr :=
  match decode (tableBytes nbits w) with
  | .ok (i, _) => some i
  | .error _ => none

/-- Exactly the bytes of the instruction that the table's word `w` gives; all of them where they give none. -/
def tableStream (nbits w : Nat) : List Byte :=
  match decode (tableBytes nbits w) with
  | .ok (_, rest) => (tableBytes nbits w).take ((tableBytes nbits w).length - rest.length)
  | .error _ => tableBytes nbits w

end Sys2Proof
end

