-- ==== Sys2Proof/Machine/State.lean ====
section
/-! DEFINITION. The state of the block as plain data, its reset state, and the reasons a step can stop. -/

namespace Sys2Proof.Machine

/-- The storage array of a ring buffer as (slot, byte) pairs, slots strictly rising (20_memory.md R40). A slot that is
not listed holds no value (R43). -/
abbrev Memory := List Host.Cell

/-- One ring buffer (10_state.md R10 to R12). `none` is the spec's own "holds no value" (R36; log 1). -/
structure Ring where
  /-- `rb[f].start`, the read index (R10). -/
  startIx : Option Byte
  /-- `rb[f].end`, the write index (R11). -/
  endIx : Option Byte
  /-- `rb[f].mem` (R12). -/
  mem : Memory
deriving DecidableEq, Repr

/-- The serial transport (10_state.md R16 to R20). -/
structure Serial where
  /-- `st.ubrr`, an unsigned number of `DIV_BITS` bits (R16). -/
  ubrr : Option Nat
  /-- `st.u2x` (R17). -/
  u2x : Option Bool
  /-- `st.txd` (R18). -/
  txd : Option Byte
  /-- `st.txd_empty` (R18). -/
  txdEmpty : Bool
  /-- `st.rxd` (R19). -/
  rxd : Option Byte
  /-- `st.rxd_full` (R19). -/
  rxdFull : Bool
  /-- `st.configured` (R20). -/
  configured : Bool
deriving DecidableEq, Repr

/-- The clocked link decoder (10_state.md R22 to R25). -/
structure Link where
  /-- `cl.bit_count` (R22). -/
  bitCount : Option (BitVec 4)
  /-- `cl.bit_buffer` (R23). -/
  bitBuffer : Option Byte
  /-- `cl.parity_acc` (R24). -/
  parityAcc : Option Bool
  /-- `cl.clk_pend` (R25). -/
  clkPend : Bool
  /-- `cl.clk_samp` (R25). -/
  clkSamp : Option Bool
deriving DecidableEq, Repr

/-- The phase of a mainline operation in progress (10_state.md R29, 60_exceptions.md R160). -/
inductive Phase where
  /-- About to evaluate the wait condition. -/
  | check
  /-- Found the condition false and about to enter the low-power wait. -/
  | sleep
  /-- Found the condition true and about to run the critical section. -/
  | mutate
deriving DecidableEq, Repr

/-- A mainline operation that can block, with what it keeps between its steps (10_state.md R29). `crSent` says that the
carriage return of a newline expansion has gone and the newline itself is next (41_serial_transport_ops.md R103,
R105). -/
inductive MlOp where
  /-- `ST.SEND_BYTE`: the byte to send. -/
  | sendByte (v : Byte) (crSent : Bool)
  /-- `ST.SEND_STRING`: the remaining string, its first byte apart. -/
  | sendString (c : Byte) (rest : List Byte) (crSent : Bool)
  /-- `ST.RECV_BYTE`. -/
  | recvByte
  /-- `ST.RECV_LINE`: `max_len` and the line collected so far, whose length is `count`. -/
  | recvLine (maxLen : Byte) (line : List Byte)
  /-- `CL.READ_BYTE`. -/
  | readByte
  /-- `CL.READ_SCANCODE`: the first byte, once it was read and is an escape marker. -/
  | readScancode (first : Option Byte)
deriving DecidableEq, Repr

/-- `sys.ml` (10_state.md R29). -/
inductive Mainline where
  | idle
  | busy (op : MlOp) (phase : Phase)
deriving DecidableEq, Repr

/-- The platform (10_state.md R27 to R29). -/
structure Platform where
  /-- `sys.IE` (R27). -/
  ie : Bool
  /-- `sys.sleeping` (R28). -/
  sleeping : Bool
  /-- `sys.ml` (R29). -/
  ml : Mainline
deriving DecidableEq, Repr

/-- An entry of `obs.results` (10_state.md R33, 30_encoding.md R78). -/
inductive Logged where
  /-- A Boolean, logged as 0 or 1. -/
  | bool (b : Bool)
  /-- A byte or a code. -/
  | byte (v : Byte)
  /-- A line: its length and its bytes with the terminator. -/
  | line (count : Nat) (bytes : List Byte)
deriving DecidableEq, Repr

/-- The observation logs (10_state.md R32, R33). -/
structure Obs where
  /-- `obs.wire_out`, oldest first (R32). -/
  wireOut : List Byte
  /-- `obs.results`, oldest first (R33). -/
  results : List Logged
deriving DecidableEq, Repr

/-- Who moves where mainline and another agent both could (60_exceptions.md R155, R156; log 3). -/
inductive Turn where
  /-- Mainline takes its next phase step. -/
  | mainline
  /-- The next stimulus is applied first. -/
  | other
deriving DecidableEq, Repr

/-- The state: what 10_state.md lists, and behind it the model's own fields `cfg`, `stream` and `turns`, which the spec
calls parameters and inputs of the step (R35; logs 2, 3, 4). -/
structure State where
  /-- `rb[SER_RX]`. -/
  serRx : Ring
  /-- `rb[SER_TX]`. -/
  serTx : Ring
  /-- `rb[LINK_RX]`. -/
  linkRx : Ring
  /-- `st`. -/
  st : Serial
  /-- `cl`. -/
  cl : Link
  /-- `sys`. -/
  sys : Platform
  /-- `obs`. -/
  obs : Obs
  /-- The parameters of 00_scope.md section 4. No step changes them. -/
  cfg : Params
  /-- The bytes of the stimulus stream not yet consumed (30_encoding.md R64). -/
  stream : List Byte
  /-- The choices still to be made between mainline and the other agents; none left means the eager schedule of
  60_exceptions.md R165. -/
  turns : List Turn
deriving DecidableEq, Repr

/-- Why the model stops where the source calls the case undefined or a rule meets state that holds no value
(60_exceptions.md R151). Every fault is safe: the run has no next state, so nothing can be proved of what the hardware
does there. -/
inductive Fault where
  /-- Raised by a pop on an empty instance, "undefined by contract" (40_ringbuffer_ops.md R94). Safe. -/
  | popEmpty
  /-- Raised by reading a slot that holds no value (20_memory.md R43). Safe. -/
  | unwrittenSlot
  /-- Raised by a rule that reads an index (10_state.md R13), a frame register (42_clocked_link_decoder_ops.md R120), a
  latch or a data register that holds no value (10_state.md R36, 43_system_env_ops.md R135, 60_exceptions.md R151). Safe. -/
  | uninitialised
  /-- Raised by `CL.ISR_EDGE` where `cl.bit_count` is above 10 (42_clocked_link_decoder_ops.md R120). Safe. -/
  | badFrameState
  /-- Raised by an access to a slot outside `0 .. N[f]-1`, which does not exist (20_memory.md R40, R41; log 6). Safe. -/
  | slotOutOfRange
deriving DecidableEq, Repr

/-- Why a stimulus has no meaning (60_exceptions.md R151). Every refusal is safe: the run has no next state. -/
inductive Refusal where
  /-- Raised by the decoder: the opcode byte is not assigned (30_encoding.md R72). Safe. -/
  | reservedCode
  /-- Raised by the decoder: `fsel` is 3 on a ring buffer function (30_encoding.md R72). Safe. -/
  | badFsel
  /-- Raised by the decoder: the stream ends inside a stimulus (30_encoding.md R64). Safe. -/
  | truncatedStimulus
  /-- Raised by every step of a block built with `N[f]` outside 2..255 (00_scope.md R1). Safe. -/
  | badCapacity
  /-- Raised by `ST.CONFIGURE` for `rate` 0 or above `F_CLK / 8` (41_serial_transport_ops.md R102). Safe. -/
  | badRate
  /-- Raised by `ST.CONFIGURE` for a divisor that does not fit `DIV_BITS` (R102). Safe. -/
  | divisorOverflow
  /-- Raised by `ST.RECV_LINE 0` (41_serial_transport_ops.md R109). Safe. -/
  | badMaxLen
  /-- Raised by serial traffic before `ST.CONFIGURE` (10_state.md R20). Safe. -/
  | notConfigured
  /-- Raised by a blocking operation, `SYS.WAIT` or a handler stimulus with `sys.IE` = 0 (60_exceptions.md R156, R160;
  43_system_env_ops.md R139). Safe. -/
  | interruptsOff
  /-- Raised by `SYS.INIT` with `sys.IE` = 1 (43_system_env_ops.md R136). Safe. -/
  | interruptsOn
  /-- Raised by a handler stimulus whose source is not pending, and by `ENV.TX_DONE` with nothing to take
  (60_exceptions.md R156; 43_system_env_ops.md R142). Safe. -/
  | noEvent
  /-- Raised by a mainline stimulus while mainline is blocked or asleep (60_exceptions.md R165). Safe. -/
  | mainlineBusy
  /-- Raised by an arm of `exec` whose instruction has no meaning yet. Safe. -/
  | notModelled (mnemonic : String)
deriving DecidableEq, Repr

/-- What a step, a meaning and a phase of mainline answer. -/
abbrev Out := Host.Outcome State Fault Refusal

/-- A ring buffer right after reset (10_state.md R36). -/
def Ring.reset : Ring := { startIx := none, endIx := none, mem := [] }

/-- The block right after reset (10_state.md R36, 43_system_env_ops.md R135), with the given parameters and inputs,
which reset does not touch. -/
def State.resetWith (cfg : Params) (stream : List Byte) (turns : List Turn) : State where
  serRx := Ring.reset
  serTx := Ring.reset
  linkRx := Ring.reset
  st := { ubrr := none, u2x := none, txd := none, txdEmpty := true, rxd := none, rxdFull := false, configured := false }
  cl := { bitCount := none, bitBuffer := none, parityAcc := none, clkPend := false, clkSamp := none }
  sys := { ie := false, sleeping := false, ml := .idle }
  obs := { wireOut := [], results := [] }
  cfg := cfg
  stream := stream
  turns := turns

/-- The machine right after reset: nothing placed in the stream, the eager schedule, the default parameters. -/
def State.reset : State := State.resetWith Config.params [] []

end Sys2Proof.Machine
end

