-- ==== Sys2Proof/Machine/Flags.lean ====
section
/-! DEFINITION. The derived conditions: those of a ring buffer (10_state.md R14), the pending conditions of the
interrupt sources (60_exceptions.md R152, R153), and whether mainline can move or accept a stimulus. -/

namespace Sys2Proof.Machine

/-- `(i + 1) mod N` (20_memory.md R41). -/
def nextIx (n : Nat) (i : Byte) : Byte := BitVec.ofNat 8 ((i.toNat + 1) % n)

/-- `count(f) = (end - start) mod N[f]`, taken on mathematical integers (10_state.md R14, 40_ringbuffer_ops.md R99). -/
def countIx (n : Nat) (a b : Byte) : Nat := (((b.toNat : Int) - (a.toNat : Int)) % (n : Int)).toNat

/-- `start == end` (R14). -/
def isEmptyIx (a b : Byte) : Bool := decide (a = b)

/-- `(end + 1) mod N[f] == start` (R14). -/
def isFullIx (n : Nat) (a b : Byte) : Bool := decide (nextIx n b = a)

/-- The two indices of an instance; a rule that needs them faults where one holds no value (10_state.md R13, R36;
40_ringbuffer_ops.md, its opening; 60_exceptions.md R151, R158). -/
def Ring.indices (r : Ring) : Except Fault (Byte × Byte) :=
  match r.startIx, r.endIx with
  | some a, some b => .ok (a, b)
  | _, _ => .error .uninitialised

/-- The interrupt sources (60_exceptions.md R152). -/
inductive Source where
  /-- Transmit-ready. -/
  | txi
  /-- Receive-ready. -/
  | rxi
  /-- Falling edge on the link's clock line. -/
  | clki
deriving DecidableEq, Repr

/-- A source is pending iff its "asserted while" condition holds in the state (R152, R153). -/
def pending (s : State) : Source → Bool
  | .txi => s.st.configured && s.st.txdEmpty
  | .rxi => s.st.configured && s.st.rxdFull
  | .clki => s.cl.clkPend

/-- The handlers of the serial transport, refused before `ST.CONFIGURE` (R156). -/
def Source.serial : Source → Bool
  | .txi => true
  | .rxi => true
  | .clki => false

/-- Mainline accepts a stimulus (R165). -/
def State.ready (s : State) : Bool := decide (s.sys.ml = .idle) && !s.sys.sleeping

/-- Mainline has a step of its own: an operation in progress, and not asleep (10_state.md R28, R160). -/
def State.canMove (s : State) : Bool := decide (s.sys.ml ≠ .idle) && !s.sys.sleeping

/-- The next move is mainline's: it can move and the schedule does not put another agent first (R155, R165; log 3). -/
def State.mainlineMoves (s : State) : Bool := s.canMove && decide (s.turns.head? ≠ some .other)

/-- The schedule with the choice of this step made. -/
def State.takeTurn (s : State) : State := if s.canMove then { s with turns := s.turns.tail } else s

end Sys2Proof.Machine
end

