-- ==== Sys2Proof/Machine/Operands.lean ====
section
/-! DEFINITION. The operand forms: the ring buffer an operand `f` selects, the sampled bit as a byte, the operand
`translate`, the byte an outbound operation sends next, and the result log. -/

namespace Sys2Proof.Machine

/-- The instance an operand `f` selects (00_scope.md R3, 20_memory.md R40). -/
def State.ring (s : State) : Inst → Ring
  | .serRx => s.serRx
  | .serTx => s.serTx
  | .linkRx => s.linkRx

/-- The state with instance `f` replaced; the three arrays are disjoint (20_memory.md R40). -/
def State.setRing (s : State) (f : Inst) (r : Ring) : State :=
  match f with
  | .serRx => { s with serRx := r }
  | .serTx => { s with serTx := r }
  | .linkRx => { s with linkRx := r }

/-- `N[f]` (00_scope.md R1). -/
def State.cap (s : State) (f : Inst) : Nat := s.cfg.cap f

/-- `result(v)`: the log grows by one entry at its end (10_state.md R33, 30_encoding.md R78). -/
def State.log (s : State) (v : Logged) : State := { s with obs := { s.obs with results := s.obs.results ++ [v] } }

/-- `sys.ml <- m`. -/
def State.setMl (s : State) (m : Mainline) : State := { s with sys := { s.sys with ml := m } }

/-- A sampled bit as the number 0 or 1 (30_encoding.md R62). -/
def bitByte (b : Bool) : Byte := if b then 1 else 0

/-- `translate`: 0 for an unmapped byte (00_scope.md R8). -/
def translateByte (p : Params) (c : Byte) : Byte :=
  match p.translation.lookup c with
  | some code => code
  | none => 0

/-- `c in ESCAPE_SET` (00_scope.md R7). -/
def isEscape (p : Params) (c : Byte) : Bool := decide (c ∈ p.escapeSet)

/-- The operation sends a carriage return before its byte: the newline expansion, in `ST.SEND_STRING` for every newline
of the string, in `ST.SEND_BYTE` only with `CRLF_IN_SEND_BYTE` (41_serial_transport_ops.md R103, R105; D23). Where
`CRLF_IN_SEND_BYTE` moves the expansion into `send_byte`, `ST.SEND_STRING`, which calls it, sends the same bytes. -/
def crDue (p : Params) : MlOp → Bool
  | .sendByte v crSent => p.crlfInSendByte && decide (v = Config.newline) && !crSent
  | .sendString c _ crSent => decide (c = Config.newline) && !crSent
  | .recvByte | .recvLine _ _ | .readByte | .readScancode _ => false

end Sys2Proof.Machine
end

