-- ==== Sys2Proof/Machine/Ops.lean ====
section
/-! DEFINITION. The shared operations: slots, the five ring buffer functions, the gates of the stimuli, the critical
section, interrupt entry and return, and the fetch from the stimulus stream. -/

namespace Sys2Proof.Machine

/-! ### Storage (20_memory.md) -/

/-- The byte a slot holds; a slot that is not listed holds no value (R43). -/
def Memory.read : Memory → Nat → Option Byte
  | [], _ => none
  | (b, v) :: m, a => if b = a then some v else Memory.read m a

/-- The array with slot `a` holding `v`, slots kept strictly rising. -/
def Memory.write : Memory → Nat → Byte → Memory
  | [], a, v => [(a, v)]
  | (b, w) :: m, a, v =>
    if a < b then (a, v) :: (b, w) :: m
    else if a = b then (a, v) :: m
    else (b, w) :: Memory.write m a v

/-- The canonical form: slots strictly rising. A listed slot holds a value and an unlisted one holds none, so no entry
equals what an unlisted slot reads as. -/
abbrev Memory.wf (m : Memory) : Prop := m.Pairwise (fun x y => x.1 < y.1)

/-- `MemRead(f, i)` on an array of `n` slots (00_scope.md section 6, 20_memory.md R43; log 6). -/
def memRead (n : Nat) (m : Memory) (i : Nat) : Except Fault Byte :=
  if i < n then
    match m.read i with
    | some v => .ok v
    | none => .error .unwrittenSlot
  else .error .slotOutOfRange

/-- `MemWrite(f, i, v)` on an array of `n` slots (00_scope.md section 6; log 6). -/
def memWrite (n : Nat) (m : Memory) (i : Nat) (v : Byte) : Except Fault Memory :=
  if i < n then .ok (m.write i v) else .error .slotOutOfRange

/-! ### Ring buffer functions (40_ringbuffer_ops.md) -/

/-- `rb_clear` (R90). -/
def Ring.clear (r : Ring) : Ring := { r with startIx := some 0, endIx := some 0 }

/-- `rb_is_empty` (R91). -/
def Ring.isEmpty (r : Ring) : Except Fault Bool :=
  match r.indices with
  | .error e => .error e
  | .ok (a, b) => .ok (isEmptyIx a b)

/-- `rb_is_full` with `N` = `n` (R92). -/
def Ring.isFull (n : Nat) (r : Ring) : Except Fault Bool :=
  match r.indices with
  | .error e => .error e
  | .ok (a, b) => .ok (isFullIx n a b)

/-- `rb_push` with `N` = `n` (R93): the ring afterwards and whether the element was stored. -/
def Ring.push (n : Nat) (r : Ring) (v : Byte) : Except Fault (Ring × Bool) :=
  match r.indices with
  | .error e => .error e
  | .ok (a, b) =>
    if nextIx n b ≠ a then
      match memWrite n r.mem b.toNat v with
      | .error e => .error e
      | .ok m => .ok ({ r with mem := m, endIx := some (nextIx n b) }, true)
    else .ok (r, false)

/-- `rb_pop` with `N` = `n` (R94): the ring afterwards and the element. -/
def Ring.pop (n : Nat) (r : Ring) : Except Fault (Ring × Byte) :=
  match r.indices with
  | .error e => .error e
  | .ok (a, b) =>
    if a = b then .error .popEmpty
    else
      match memRead n r.mem a.toNat with
      | .error e => .error e
      | .ok v => .ok ({ r with startIx := some (nextIx n a) }, v)

/-- The content of an instance (R96): the slots `start`, `start+1 mod N`, ..., `end-1 mod N`, each with what it holds;
no content while the indices hold no value. -/
def Ring.content (n : Nat) (r : Ring) : List (Option Byte) :=
  match r.startIx, r.endIx with
  | some a, some b => (List.range (countIx n a b)).map (fun k => r.mem.read ((a.toNat + k) % n))
  | _, _ => []

/-! ### Gates (60_exceptions.md R156, R160, R165) -/

/-- Refuse with `r` unless `c`. -/
def require (c : Bool) (r : Refusal) (k : Out) : Out := if c then k else .refused r

/-- A stimulus of mainline is accepted only while mainline is idle and awake (R165). -/
def asMainline (s : State) (k : Out) : Out := require s.ready .mainlineBusy k

/-- The gates of a blocking operation of the serial transport, in the order of R165 (10_state.md R20, R160). -/
def asSerialBlocking (s : State) (k : Out) : Out :=
  asMainline s (require s.st.configured .notConfigured (require s.sys.ie .interruptsOff k))

/-- The gates of a blocking operation of the decoder (R160, R165); it does not need `st.configured`. -/
def asLinkBlocking (s : State) (k : Out) : Out :=
  asMainline s (require s.sys.ie .interruptsOff k)

/-- A blocking operation starts at its first CHECK (R160). -/
def State.begin (s : State) (op : MlOp) : State := s.setMl (.busy op .check)

/-- What an operation that can only fault answers. -/
def ofExcept : Except Fault State → Out
  | .ok s => .next s
  | .error e => .fault e

/-! ### Critical section (20_memory.md R50) -/

/-- Mainline enters a critical section by clearing `sys.IE`. -/
def enterCritical (s : State) : State := { s with sys := { s.sys with ie := false } }

/-- Mainline leaves a critical section by setting `sys.IE`. -/
def leaveCritical (s : State) : State := { s with sys := { s.sys with ie := true } }

/-! ### Interrupt entry and return (60_exceptions.md R156 to R158) -/

/-- Entry holds interrupts off and saves nothing of the block's state (R156, R157). -/
def enterHandler (s : State) : State := { s with sys := { s.sys with ie := false } }

/-- Return sets `sys.IE` and ends the low-power wait (R156, R158, R161). -/
def returnFromHandler (s : State) : State := { s with sys := { s.sys with ie := true, sleeping := false } }

/-- `dispatch(X)` (R156): entry, body and return as one step, or the refusal that applies first. -/
def dispatch (x : Source) (body : State → Except Fault State) (s : State) : Out :=
  require (!x.serial || s.st.configured) .notConfigured
    (require s.sys.ie .interruptsOff
      (require (pending s x) .noEvent
        (match body (enterHandler s) with
          | .error e => .fault e
          | .ok t => .next (returnFromHandler t))))

/-! ### Fetch (30_encoding.md R64, R74) -/

/-- The refusal that a decoder's error is (60_exceptions.md R151). -/
def Refusal.ofDecode : DecodeError → Refusal
  | .reservedCode => .reservedCode
  | .badFsel => .badFsel
  | .truncatedStimulus => .truncatedStimulus

/-- What the front of the stream gives. -/
inductive Fetched where
  /-- The stream is at its end. -/
  | none
  /-- The front is no stimulus. -/
  | refuse (r : Refusal)
  /-- A stimulus, and the state with its bytes consumed. -/
  | stimulus (i : Instr) (s : State)

/-- Take the stimulus at the front of the stream (R64). -/
def fetch (s : State) : Fetched :=
  match s.stream with
  | [] => .none
  | op :: bytes =>
    match decode (op :: bytes) with
    | .error e => .refuse (Refusal.ofDecode e)
    | .ok (i, rest) => .stimulus i { s with stream := rest }

end Sys2Proof.Machine
end

