-- ==== Sys2Proof/Machine/Link.lean ====
section
/-! DEFINITION. The clocked link decoder: the falling-edge handler, one definition per group of frame states, and the
acceptance of its two readers (42_clocked_link_decoder_ops.md). -/

namespace Sys2Proof.Machine

/-- `frame_reset()` (R120). -/
def frameReset (s : State) : State :=
  { s with cl := { s.cl with bitCount := some 0, bitBuffer := some 0, parityAcc := some false } }

/-- State 0, the start bit (R121). -/
def state0 (b : Bool) (s : State) : Except Fault State :=
  .ok (if b then s else { s with cl := { s.cl with bitCount := some 1 } })

/-- States 1 to 8, the data bits (R122); a triple without a value faults (R120, Exceptions). -/
def stateData (c : BitVec 4) (b : Bool) (s : State) : Except Fault State :=
  match s.cl.bitBuffer, s.cl.parityAcc with
  | some buf, some p =>
    .ok { s with cl := { s.cl with
            bitBuffer := some (buf ||| (bitByte b <<< (c.toNat - 1))),
            parityAcc := some (p ^^ b),
            bitCount := some (c + 1) } }
  | _, _ => .error .uninitialised

/-- State 9, the parity bit (R123); a triple without a value faults (R120, Exceptions). -/
def stateParity (b : Bool) (s : State) : Except Fault State :=
  match s.cl.parityAcc with
  | some p => .ok (if (!b) ≠ p then frameReset s else { s with cl := { s.cl with bitCount := some 10 } })
  | none => .error .uninitialised

/-- State 10, the stop bit, which is not checked; a byte that finds `LINK_RX` full is dropped (R124); a
triple without a value faults (R120, Exceptions). -/
def stateStop (s : State) : Except Fault State :=
  match s.cl.bitBuffer with
  | some buf =>
    match s.linkRx.push (s.cap .linkRx) buf with
    | .error e => .error e
    | .ok (r, _) => .ok (frameReset { s with linkRx := r })
  | none => .error .uninitialised

/-- The frame machine's step on the sampled bit `b` (R120); a triple without a value faults (R120, Exceptions). -/
def frameStep (b : Bool) (s : State) : Except Fault State :=
  match s.cl.bitCount with
  | none => .error .uninitialised
  | some c =>
    if c.toNat = 0 then state0 b s
    else if c.toNat ≤ 8 then stateData c b s
    else if c.toNat = 9 then stateParity b s
    else if c.toNat = 10 then stateStop s
    else .error .badFrameState

/-- The body of the clock-edge handler: take the sample, retire the latch, advance the frame by one bit (R120).
A latch without a sample faults (60_exceptions.md R151). -/
def isrEdgeBody (s : State) : Except Fault State :=
  match s.cl.clkSamp with
  | none => .error .uninitialised
  | some b => frameStep b { s with cl := { s.cl with clkPend := false } }

/-- `CL.ISR_EDGE` (R120, 60_exceptions.md R156). -/
def execClIsrEdge (s : State) : Out := dispatch .clki isrEdgeBody s

/-- `CL.READ_BYTE` is accepted (R125). -/
def execClReadByte (s : State) : Out :=
  asLinkBlocking s (.next (s.begin .readByte))

/-- `CL.READ_SCANCODE` is accepted (R126). -/
def execClReadScancode (s : State) : Out :=
  asLinkBlocking s (.next (s.begin (.readScancode none)))

end Sys2Proof.Machine
end

