-- ==== Sys2Proof/Machine/RingBuffer.lean ====
section
/-! DEFINITION. The raw ring buffer stimuli, each one indivisible mainline step (40_ringbuffer_ops.md). -/

namespace Sys2Proof.Machine

/-- `RB.CLEAR f` (R90). -/
def execRbClear (f : Inst) (s : State) : Out :=
  asMainline s (.next (s.setRing f (s.ring f).clear))

/-- `RB.IS_EMPTY f` (R91). -/
def execRbIsEmpty (f : Inst) (s : State) : Out :=
  asMainline s
    (match (s.ring f).isEmpty with
      | .error e => .fault e
      | .ok b => .next (s.log (.bool b)))

/-- `RB.IS_FULL f` (R92). -/
def execRbIsFull (f : Inst) (s : State) : Out :=
  asMainline s
    (match (s.ring f).isFull (s.cap f) with
      | .error e => .fault e
      | .ok b => .next (s.log (.bool b)))

/-- `RB.PUSH f, v` (R93). -/
def execRbPush (f : Inst) (v : Byte) (s : State) : Out :=
  asMainline s
    (match (s.ring f).push (s.cap f) v with
      | .error e => .fault e
      | .ok (r, ok) => .next ((s.setRing f r).log (.bool ok)))

/-- `RB.POP f` (R94). -/
def execRbPop (f : Inst) (s : State) : Out :=
  asMainline s
    (match (s.ring f).pop (s.cap f) with
      | .error e => .fault e
      | .ok (r, v) => .next ((s.setRing f r).log (.byte v)))

end Sys2Proof.Machine
end

