-- ==== Sys2Proof/Machine/Serial.lean ====
section
/-! DEFINITION. The serial transport: configuration, the acceptance of its four blocking operations, and its two
handlers (41_serial_transport_ops.md). The phases of a blocking operation are in Machine/Mainline.lean. -/

namespace Sys2Proof.Machine

/-- `round(F_CLK / (k * rate))` in integers, halves upward (R101(a)). -/
def roundDiv (fClk k rate : Nat) : Nat := (2 * fClk + k * rate) / (2 * k * rate)

/-- The 16x error exceeds `tol` percent: `100 * abs(F_CLK - 16*q16*rate) > tol * 16*q16*rate` (R100, R101(b)). -/
def exceedsTol (fClk rate tol q16 : Nat) : Bool :=
  decide (100 * ((fClk : Int) - ((16 * q16 * rate : Nat) : Int)).natAbs > tol * (16 * q16 * rate))

/-- The divisor and the doubling flag for a rate and a tolerance, given `q16` (R100, R101(c)). -/
def chooseRate (fClk rate tol q16 : Nat) : Nat × Bool :=
  if exceedsTol fClk rate tol q16 then (roundDiv fClk 8 rate - 1, true) else (q16 - 1, false)

/-- `ST.CONFIGURE rate, tol` (R100 to R102): one step of mainline. -/
def execStConfigure (rate : Rate) (tol : Byte) (s : State) : Out :=
  let q16 := roundDiv s.cfg.fClk 16 rate.toNat
  let dx := chooseRate s.cfg.fClk rate.toNat tol.toNat q16
  asMainline s
    (require (decide (rate.toNat ≠ 0)) .badRate
      (require (decide (q16 ≠ 0)) .badRate
        (require (decide (dx.1 < 2 ^ s.cfg.divBits)) .divisorOverflow
          (.next { s with st := { s.st with ubrr := some dx.1, u2x := some dx.2, configured := true } }))))

/-- `ST.SEND_BYTE v` is accepted (R103). -/
def execStSendByte (v : Byte) (s : State) : Out :=
  asSerialBlocking s (.next (s.begin (.sendByte v false)))

/-- `ST.SEND_STRING c` is accepted; the empty string sends nothing and completes at once (R105). -/
def execStSendString (c : List Byte) (s : State) : Out :=
  asSerialBlocking s
    (match c with
      | [] => .next s
      | c0 :: rest => .next (s.begin (.sendString c0 rest false)))

/-- `ST.RECV_BYTE` is accepted (R107). -/
def execStRecvByte (s : State) : Out :=
  asSerialBlocking s (.next (s.begin .recvByte))

/-- `ST.RECV_LINE max_len` is accepted; with `max_len` = 1 it reads nothing and returns the empty line (R109). -/
def execStRecvLine (maxLen : Byte) (s : State) : Out :=
  asSerialBlocking s
    (require (decide (maxLen ≠ 0)) .badMaxLen
      (if maxLen.toNat - 1 = 0 then .next (s.log (.line 0 [Config.strTerm]))
       else .next (s.begin (.recvLine maxLen []))))

/-- The body of the transmit-ready handler (R112). -/
def isrTxBody (s : State) : Except Fault State :=
  match s.serTx.isEmpty with
  | .error e => .error e
  | .ok true => .ok s
  | .ok false =>
    match s.serTx.pop (s.cap .serTx) with
    | .error e => .error e
    | .ok (r, v) => .ok { s with serTx := r, st := { s.st with txd := some v, txdEmpty := false } }

/-- `ST.ISR_TX` (R112, 60_exceptions.md R156). -/
def execStIsrTx (s : State) : Out := dispatch .txi isrTxBody s

/-- The body of the receive-ready handler: the one read of `st.rxd`, then the push, whose failure drops the byte
(R113). A register without a value faults (43_system_env_ops.md R135, Corner cases). -/
def isrRxBody (s : State) : Except Fault State :=
  match s.st.rxd with
  | none => .error .uninitialised
  | some v =>
    match s.serRx.push (s.cap .serRx) v with
    | .error e => .error e
    | .ok (r, _) => .ok { s with serRx := r, st := { s.st with rxdFull := false } }

/-- `ST.ISR_RX` (R113, 60_exceptions.md R156). -/
def execStIsrRx (s : State) : Out := dispatch .rxi isrRxBody s

end Sys2Proof.Machine
end

