-- ==== Sys2Proof/Machine/System.lean ====
section
/-! DEFINITION. The platform stimuli and the environment events (43_system_env_ops.md). -/

namespace Sys2Proof.Machine

/-- `SYS.RESET` (R135): accepted in every state. -/
def execSysReset (s : State) : Out := .next (State.resetWith s.cfg s.stream s.turns)

/-- `SYS.INIT` (R136). -/
def execSysInit (s : State) : Out :=
  asMainline s
    (require (!s.sys.ie) .interruptsOn
      (.next (frameReset { s with
        serRx := s.serRx.clear, serTx := s.serTx.clear, linkRx := s.linkRx.clear })))

/-- `SYS.IRQ_ON` (R137). -/
def execSysIrqOn (s : State) : Out :=
  asMainline s (.next { s with sys := { s.sys with ie := true } })

/-- `SYS.IRQ_OFF` (R138). -/
def execSysIrqOff (s : State) : Out :=
  asMainline s (.next { s with sys := { s.sys with ie := false } })

/-- `SYS.WAIT` (R139). -/
def execSysWait (s : State) : Out :=
  asMainline s
    (require s.sys.ie .interruptsOff
      (.next { s with sys := { s.sys with sleeping := true } }))

/-- `ENV.RX_ARRIVE v` (R141): a byte that finds the input register full is lost. -/
def execEnvRxArrive (v : Byte) (s : State) : Out :=
  require s.st.configured .notConfigured
    (if s.st.rxdFull then .next s
     else .next { s with st := { s.st with rxd := some v, rxdFull := true } })

/-- `ENV.TX_DONE` (R142); a register without a value faults (R135, Corner cases). -/
def execEnvTxDone (s : State) : Out :=
  require s.st.configured .notConfigured
    (require (!s.st.txdEmpty) .noEvent
      (match s.st.txd with
        | none => .fault .uninitialised
        | some v => .next { s with
            st := { s.st with txdEmpty := true }
            obs := { s.obs with wireOut := s.obs.wireOut ++ [v] } }))

/-- `ENV.CLK_FALL b` (R143): the newest edge overwrites the latch. -/
def execEnvClkFall (b : Bool) (s : State) : Out :=
  .next { s with cl := { s.cl with clkSamp := some b, clkPend := true } }

end Sys2Proof.Machine
end

