-- ==== Sys2Proof/Machine/Dispatch.lean ====
section
/-! DEFINITION. The meaning of every stimulus, one arm per constructor. -/

namespace Sys2Proof.Machine

def exec (i : Instr) (s : State) : Host.Outcome State Fault Refusal :=
  match i with
  | .rbClear f => Sys2Proof.Machine.execRbClear f s
  | .rbIsEmpty f => Sys2Proof.Machine.execRbIsEmpty f s
  | .rbIsFull f => Sys2Proof.Machine.execRbIsFull f s
  | .rbPush f v => Sys2Proof.Machine.execRbPush f v s
  | .rbPop f => Sys2Proof.Machine.execRbPop f s
  | .stConfigure rate tol => Sys2Proof.Machine.execStConfigure rate tol s
  | .stSendByte v => Sys2Proof.Machine.execStSendByte v s
  | .stSendString c => Sys2Proof.Machine.execStSendString c s
  | .stRecvByte => Sys2Proof.Machine.execStRecvByte s
  | .stRecvLine maxLen => Sys2Proof.Machine.execStRecvLine maxLen s
  | .stIsrTx => Sys2Proof.Machine.execStIsrTx s
  | .stIsrRx => Sys2Proof.Machine.execStIsrRx s
  | .clIsrEdge => Sys2Proof.Machine.execClIsrEdge s
  | .clReadByte => Sys2Proof.Machine.execClReadByte s
  | .clReadScancode => Sys2Proof.Machine.execClReadScancode s
  | .sysReset => Sys2Proof.Machine.execSysReset s
  | .sysInit => Sys2Proof.Machine.execSysInit s
  | .sysIrqOn => Sys2Proof.Machine.execSysIrqOn s
  | .sysIrqOff => Sys2Proof.Machine.execSysIrqOff s
  | .sysWait => Sys2Proof.Machine.execSysWait s
  | .envRxArrive v => Sys2Proof.Machine.execEnvRxArrive v s
  | .envTxDone => Sys2Proof.Machine.execEnvTxDone s
  | .envClkFall b => Sys2Proof.Machine.execEnvClkFall b s

end Sys2Proof.Machine
end

