-- ==== Sys2Proof/Machine/Mainline.lean ====
section
/-! DEFINITION. The phase steps of a blocking mainline operation: CHECK, SLEEP, MUTATE (60_exceptions.md R160). -/

namespace Sys2Proof.Machine

/-- The instance an operation waits on (41_serial_transport_ops.md R103, R107; 42_clocked_link_decoder_ops.md R125). -/
def MlOp.channel : MlOp → Inst
  | .sendByte _ _ => .serTx
  | .sendString _ _ _ => .serTx
  | .recvByte => .serRx
  | .recvLine _ _ => .serRx
  | .readByte => .linkRx
  | .readScancode _ => .linkRx

/-- The byte a sending operation pushes next, its expansion's carriage return first; `none` for an operation that
receives (R103, R105). -/
def MlOp.sends (p : Params) (op : MlOp) : Option Byte :=
  match op with
  | .sendByte v _ => some (if crDue p op then Config.carriageReturn else v)
  | .sendString c _ _ => some (if crDue p op then Config.carriageReturn else c)
  | .recvByte | .recvLine _ _ | .readByte | .readScancode _ => none

/-- The wait condition of an operation (R160): room in `SER_TX` for a sender, an element in its instance for a
receiver. -/
def MlOp.cond (op : MlOp) (s : State) : Except Fault Bool :=
  let answer := match op.sends s.cfg with
    | some _ => (s.ring op.channel).isFull (s.cap op.channel)
    | none => (s.ring op.channel).isEmpty
  match answer with
  | .error e => .error e
  | .ok b => .ok (!b)

/-- CHECK (R160): the condition found true leads to MUTATE, found false to SLEEP, which is one step with the CHECK under
`ATOMIC_CHECK_SLEEP`. -/
def checkStep (op : MlOp) (s : State) : Out :=
  match op.cond s with
  | .error e => .fault e
  | .ok true => .next (s.setMl (.busy op .mutate))
  | .ok false =>
    if s.cfg.atomicCheckSleep then
      .next { s with sys := { s.sys with sleeping := true, ml := .busy op .check } }
    else .next (s.setMl (.busy op .sleep))

/-- SLEEP (R160): enter the low-power wait; the condition is checked again after the wake. -/
def sleepStep (op : MlOp) (s : State) : Out :=
  .next { s with sys := { s.sys with sleeping := true, ml := .busy op .check } }

/-- A sending operation goes on or completes after its push (R103, R105). -/
def afterSend (op : MlOp) (s : State) : State :=
  match op with
  | .sendByte v _ => if crDue s.cfg op then s.begin (.sendByte v true) else s.setMl .idle
  | .sendString c rest _ =>
    if crDue s.cfg op then s.begin (.sendString c rest true)
    else
      match rest with
      | [] => s.setMl .idle
      | c' :: rest' => s.begin (.sendString c' rest' false)
  | .recvByte | .recvLine _ _ | .readByte | .readScancode _ => s

/-- The value `v` is returned and the operation completes. -/
def finish (s : State) (v : Logged) : State := (s.log v).setMl .idle

/-- `ST.RECV_LINE` after it received `c`: a newline ends the line and is not stored, a full line ends too (R109). -/
def afterLineByte (maxLen : Byte) (line : List Byte) (c : Byte) (s : State) : State :=
  if c = Config.newline then finish s (.line line.length (line ++ [Config.strTerm]))
  else if line.length + 1 < maxLen.toNat - 1 then s.begin (.recvLine maxLen (line ++ [c]))
  else finish s (.line (line.length + 1) (line ++ [c, Config.strTerm]))

/-- `CL.READ_SCANCODE` after it read `c`: a first byte that is an escape marker is discarded and a second byte is read
(R126). -/
def afterScanByte (first : Option Byte) (c : Byte) (s : State) : State :=
  if first = none ∧ isEscape s.cfg c = true then s.begin (.readScancode (some c))
  else finish s (.byte (translateByte s.cfg c))

/-- A receiving operation goes on or completes after its pop of `c` (R107, R109, R125, R126). -/
def afterReceive (op : MlOp) (c : Byte) (s : State) : State :=
  match op with
  | .recvByte => finish s (.byte c)
  | .readByte => finish s (.byte c)
  | .recvLine maxLen line => afterLineByte maxLen line c s
  | .readScancode first => afterScanByte first c s
  | .sendByte _ _ | .sendString _ _ _ => s

/-- The critical section of a sender: push `v` into its instance (R103, 20_memory.md R50). -/
def atomicPush (f : Inst) (v : Byte) (s : State) : Except Fault State :=
  match ((enterCritical s).ring f).push (s.cap f) v with
  | .error e => .error e
  | .ok (r, _) => .ok (leaveCritical ((enterCritical s).setRing f r))

/-- The critical section of a receiver: pop from its instance (R107, R125, 20_memory.md R50). -/
def atomicPop (f : Inst) (s : State) : Except Fault (State × Byte) :=
  match ((enterCritical s).ring f).pop (s.cap f) with
  | .error e => .error e
  | .ok (r, v) => .ok (leaveCritical ((enterCritical s).setRing f r), v)

/-- MUTATE (R160): the critical section as one step; the operation continues or completes. -/
def mutateStep (op : MlOp) (s : State) : Out :=
  match op.sends s.cfg with
  | some v =>
    match atomicPush op.channel v s with
    | .error e => .fault e
    | .ok t => .next (afterSend op t)
  | none =>
    match atomicPop op.channel s with
    | .error e => .fault e
    | .ok (t, c) => .next (afterReceive op c t)

/-- One step of mainline (R160). Idle mainline has none. -/
def mainlineStep (s : State) : Out :=
  match s.sys.ml with
  | .idle => .next s
  | .busy op .check => checkStep op s
  | .busy op .sleep => sleepStep op s
  | .busy op .mutate => mutateStep op s

end Sys2Proof.Machine
end

