-- ==== Sys2Proof/Machine/Step.lean ====
section
/-! DEFINITION. One step of the block: a phase step of mainline, or the stimulus at the front of the stream. -/

namespace Sys2Proof.Machine

/-- The stimulus at the front of the stream is applied; at the end of the stream the block waits, unchanged
(60_exceptions.md R165; log 7). -/
def stimulusStep (s : State) : Out :=
  match fetch s with
  | .none => .next s
  | .refuse r => .refused r
  | .stimulus i t => exec i t

/-- One indivisible step (20_memory.md R54). A block with an illegal capacity is refused (00_scope.md R1). Where
mainline can move it moves first, unless the schedule puts another agent first (60_exceptions.md R155, R165; log 3). -/
def step (s : State) : Host.Outcome State Fault Refusal :=
  if s.cfg.capacityOk then
    if s.mainlineMoves then mainlineStep s.takeTurn else stimulusStep s.takeTurn
  else .refused .badCapacity

/-- The state with the instruction of the table's word `w` alone in the stream; where mainline could move, the schedule
gives this step to the stream. -/
def State.withFetchWord (s : State) (nbits w : Nat) : State :=
  { s with
    stream := tableStream nbits w
    turns := if s.canMove then .other :: s.turns else s.turns }

end Sys2Proof.Machine
end

