-- ==== Sys2Proof/Safety.lean ====
section
/-! DEFINITION. The terms claims are made in: the invariant of the block, which stimuli belong to which agent, sequences of
buffer calls, runs of edges, and the transmit trace. -/

namespace Sys2Proof.Safety

open Sys2Proof.Machine

/-! ### Agents -/

/-- The stimuli of mainline (60_exceptions.md R165). -/
def isMainline : Instr → Bool
  | .rbClear _ | .rbIsEmpty _ | .rbIsFull _ | .rbPush _ _ | .rbPop _
  | .stConfigure _ _ | .stSendByte _ | .stSendString _ | .stRecvByte | .stRecvLine _
  | .clReadByte | .clReadScancode | .sysInit | .sysIrqOn | .sysIrqOff | .sysWait => true
  | .stIsrTx | .stIsrRx | .clIsrEdge | .sysReset | .envRxArrive _ | .envTxDone | .envClkFall _ => false

/-- The handler stimuli (60_exceptions.md R156). -/
def isHandler : Instr → Bool
  | .stIsrTx | .stIsrRx | .clIsrEdge => true
  | .rbClear _ | .rbIsEmpty _ | .rbIsFull _ | .rbPush _ _ | .rbPop _
  | .stConfigure _ _ | .stSendByte _ | .stSendString _ | .stRecvByte | .stRecvLine _
  | .clReadByte | .clReadScancode | .sysInit | .sysIrqOn | .sysIrqOff | .sysWait
  | .sysReset | .envRxArrive _ | .envTxDone | .envClkFall _ => false

/-- The step applies the stimulus `i`: it is not mainline's turn and `i` stands at the front of the stream. -/
def applies (s : State) (i : Instr) : Prop :=
  s.mainlineMoves = false ∧ ∃ rest, decode s.stream = .ok (i, rest)

/-! ### Frames -/

/-- The two indices of instance `f` hold `a` and `b`. -/
abbrev indicesAre (s : State) (f : Inst) (a b : Byte) : Prop :=
  (s.ring f).startIx = some a ∧ (s.ring f).endIx = some b

/-- Every instance but `f` is as before, its indices and every slot of it. -/
def otherRingsSame (f : Inst) (s t : State) : Prop := ∀ g, g ≠ f → t.ring g = s.ring g

/-- Nothing changed but ring buffers and `obs.results`. -/
structure SameButRings (s t : State) : Prop where
  st : t.st = s.st
  cl : t.cl = s.cl
  sys : t.sys = s.sys
  wireOut : t.obs.wireOut = s.obs.wireOut
  cfg : t.cfg = s.cfg
  stream : t.stream = s.stream
  turns : t.turns = s.turns

/-! ### Sequences of buffer calls (40_ringbuffer_ops.md R96 to R98) -/

/-- A call of the producer or of the consumer. -/
inductive Call where
  | push (v : Byte)
  | pop
deriving DecidableEq, Repr

/-- What a sequence of calls left behind. -/
structure Calls where
  /-- The buffer afterwards. -/
  ring : Ring
  /-- The elements of the successful pushes, in order. -/
  accepted : List Byte
  /-- The elements of the pops, in order. -/
  popped : List Byte
deriving DecidableEq, Repr

/-- The calls one after another on a buffer with `N` = `n`; a fault ends the sequence. -/
def runCalls (n : Nat) : List Call → Ring → Except Fault Calls
  | [], r => .ok { ring := r, accepted := [], popped := [] }
  | .push v :: cs, r =>
    match r.push n v with
    | .error e => .error e
    | .ok (r', ok) =>
      match runCalls n cs r' with
      | .error e => .error e
      | .ok c => .ok { c with accepted := if ok then v :: c.accepted else c.accepted }
  | .pop :: cs, r =>
    match r.pop n with
    | .error e => .error e
    | .ok (r', v) =>
      match runCalls n cs r' with
      | .error e => .error e
      | .ok c => .ok { c with popped := v :: c.popped }

/-! ### Outbound bytes -/

/-- The bytes `send_raw` is called with for one byte of a string (41_serial_transport_ops.md R105). -/
def expandByte (c : Byte) : List Byte :=
  if c = Config.newline then [Config.carriageReturn, Config.newline] else [c]

/-- The bytes of a whole string. -/
def expandString (c : List Byte) : List Byte := c.flatMap expandByte

/-- What leaves, or is on its way out, on the serial line, in order: `obs.wire_out`, then `st.txd` when it holds a byte
not yet taken, then the content of `SER_TX` (41_serial_transport_ops.md R115). -/
def txTrace (s : State) : List (Option Byte) :=
  s.obs.wireOut.map some ++ (if s.st.txdEmpty then [] else [s.st.txd]) ++ s.serTx.content (s.cap .serTx)

/-- The byte for which this step runs a `send_raw` critical section, if it does. -/
def sentNow (s : State) : List (Option Byte) :=
  if s.mainlineMoves then
    match s.sys.ml with
    | .busy op .mutate =>
      match op.sends s.cfg with
      | some v => [some v]
      | none => []
    | _ => []
  else []

/-! ### Inbound bytes -/

/-- The element that this step's critical section of a receiver takes from instance `f`, if it takes one. -/
def takenNow (s : State) (f : Inst) : List (Option Byte) :=
  if s.mainlineMoves then
    match s.sys.ml with
    | .busy op .mutate =>
      if op.sends s.cfg = none ∧ op.channel = f then ((s.ring f).content (s.cap f)).take 1 else []
    | _ => []
  else []

/-- The raw stimuli that change instance `f` from mainline, and the two that empty every instance
(70_reset_and_hazards.md R186). -/
def rewrites (f : Inst) : Instr → Bool
  | .rbClear g | .rbPush g _ | .rbPop g => decide (g = f)
  | .sysInit | .sysReset => true
  | .rbIsEmpty _ | .rbIsFull _ | .stConfigure _ _ | .stSendByte _ | .stSendString _ | .stRecvByte | .stRecvLine _
  | .stIsrTx | .stIsrRx | .clIsrEdge | .clReadByte | .clReadScancode
  | .sysIrqOn | .sysIrqOff | .sysWait | .envRxArrive _ | .envTxDone | .envClkFall _ => false

/-- This step is the critical section of a mainline operation on instance `f`. -/
def mainlineMutates (s : State) (f : Inst) : Prop :=
  s.mainlineMoves = true ∧ ∃ op, s.sys.ml = .busy op .mutate ∧ op.channel = f

/-- This step is one of the producer of instance `f` (10_state.md R15). -/
def producerMoves (s : State) : Inst → Prop
  | .serRx => applies s .stIsrRx
  | .serTx => mainlineMutates s .serTx
  | .linkRx => applies s .clIsrEdge

/-- This step is one of the consumer of instance `f` (10_state.md R15). -/
def consumerMoves (s : State) : Inst → Prop
  | .serRx => mainlineMutates s .serRx
  | .serTx => applies s .stIsrTx
  | .linkRx => mainlineMutates s .linkRx

/-! ### Inbound lines -/

/-- What `ST.RECV_LINE` makes of the bytes waiting for it, with room for `room` of them (41_serial_transport_ops.md
R109): the line, and how many bytes it consumes; `none` if it has to wait for more. -/
def takeLine : Nat → List Byte → Option (List Byte × Nat)
  | 0, _ => some ([], 0)
  | _ + 1, [] => none
  | room + 1, c :: cs =>
    if c = Config.newline then some ([], 1)
    else match takeLine room cs with
      | none => none
      | some (line, k) => some (c :: line, k + 1)

/-! ### Link frames (30_encoding.md R61 to R63) -/

/-- The exclusive or of the bits of a byte. -/
def xorBits (v : Byte) : Bool :=
  ((((((v.getLsbD 0 ^^ v.getLsbD 1) ^^ v.getLsbD 2) ^^ v.getLsbD 3) ^^ v.getLsbD 4) ^^ v.getLsbD 5) ^^ v.getLsbD 6)
    ^^ v.getLsbD 7

/-- The parity bit `P = 1 ^ data[0] ^ ... ^ data[7]` (R63). -/
def parityBit (v : Byte) : Bool := !xorBits v

/-- The eleven bits of a frame in time order: start, data least significant bit first, parity, stop (R61). -/
def frameBits (v : Byte) (p stop : Bool) : List Bool :=
  [false, v.getLsbD 0, v.getLsbD 1, v.getLsbD 2, v.getLsbD 3, v.getLsbD 4, v.getLsbD 5, v.getLsbD 6, v.getLsbD 7, p, stop]

/-- One falling edge with the data line at `b`, and its handler at once (30_encoding.md R76, `LINK.BIT b`). -/
def linkBit (b : Bool) (s : State) : Out :=
  match exec (.envClkFall b) s with
  | .next t => exec .clIsrEdge t
  | .fault r => .fault r
  | .refused r => .refused r

/-- Edges one after another. -/
def linkBits : List Bool → State → Out
  | [], s => .next s
  | b :: bs, s =>
    match linkBit b s with
    | .next t => linkBits bs t
    | .fault r => .fault r
    | .refused r => .refused r

/-- The frame triple is (0,0,0) (10_state.md R26). -/
abbrev frameIdle (s : State) : Prop :=
  s.cl.bitCount = some 0 ∧ s.cl.bitBuffer = some 0 ∧ s.cl.parityAcc = some false

/-! ### The invariant -/

/-- A ring buffer with `N` = `n`: its array is in canonical form and inside `0 .. n-1`; either no index holds a value and
nothing is stored, or both indices are legal (10_state.md R13) and every slot of the content holds a value
(20_memory.md R43). -/
def ringInv (n : Nat) (r : Ring) : Bool :=
  decide r.mem.wf && r.mem.all (fun c => decide (c.1 < n)) &&
  match r.startIx, r.endIx with
  | some a, some b => decide (a.toNat < n) && decide (b.toNat < n) && (r.content n).all Option.isSome
  | none, none => decide (r.mem = [])
  | _, _ => false

/-- The serial transport: its rate registers hold values that fit iff it is configured, nothing moves before that, and a
data register that is said to hold a byte does (10_state.md R16 to R20). -/
def serialInv (p : Params) (st : Serial) : Bool :=
  (if st.configured then
    st.u2x.isSome && (match st.ubrr with | some d => decide (d < 2 ^ p.divBits) | none => false)
  else decide (st.ubrr = none) && decide (st.u2x = none) && decide (st.txd = none) && decide (st.rxd = none)
    && st.txdEmpty && !st.rxdFull)
  && (st.txdEmpty || st.txd.isSome) && (!st.rxdFull || st.rxd.isSome)

/-- The decoder: the frame triple holds no value, or a position 0 to 10 with only the data bits received so far set and
their exclusive or beside them (10_state.md R22 to R24, 30_encoding.md R62, R63); a pending edge has a sample (R25). -/
def linkInv (cl : Link) : Bool :=
  (match cl.bitCount, cl.bitBuffer, cl.parityAcc with
    | some c, some buf, some p =>
      decide (c.toNat ≤ 10) && decide (buf.toNat < 2 ^ (c.toNat - 1)) && decide (p = xorBits buf)
    | none, none, none => true
    | _, _, _ => false)
  && (!cl.clkPend || cl.clkSamp.isSome)

/-- What an operation in progress keeps is what its rule lets it keep: a sent carriage return belongs to a newline, a line
is still short of `max_len - 1` and holds no newline, a first byte kept is an escape marker. -/
def localsInv (p : Params) : MlOp → Bool
  | .sendByte v crSent => !crSent || (p.crlfInSendByte && decide (v = Config.newline))
  | .sendString c rest crSent =>
    (!crSent || decide (c = Config.newline)) && (c :: rest).all (fun x => decide (x ≠ Config.strTerm))
  | .recvByte => true
  | .recvLine maxLen line =>
    decide (line.length + 1 < maxLen.toNat) && line.all (fun x => decide (x ≠ Config.newline))
  | .readByte => true
  | .readScancode first => match first with | none => true | some e => isEscape p e

/-- An operation of the serial transport. -/
def onSerial : MlOp → Bool
  | .sendByte _ _ | .sendString _ _ _ | .recvByte | .recvLine _ _ => true
  | .readByte | .readScancode _ => false

/-- The platform: a waiting or working mainline has interrupts on (60_exceptions.md R160, 20_memory.md R50), a serial
operation found the transport configured, only a CHECK is waited for, and a condition found true is still true
(20_memory.md R53). -/
def mainlineInv (s : State) : Bool :=
  (!s.sys.sleeping || s.sys.ie) &&
  match s.sys.ml with
  | .idle => true
  | .busy op ph =>
    s.sys.ie && (!onSerial op || s.st.configured) && (!s.sys.sleeping || decide (ph = .check)) && localsInv s.cfg op
    && (match ph with
      | .mutate => (match op.cond s with | .ok b => b | .error _ => false)
      | _ => true)

/-- The invariant of the block. -/
def inv (s : State) : Bool :=
  s.cfg.capacityOk && ringInv (s.cap .serRx) s.serRx && ringInv (s.cap .serTx) s.serTx
  && ringInv (s.cap .linkRx) s.linkRx && serialInv s.cfg s.st && linkInv s.cl && mainlineInv s

/-- Initialised: every index and the frame triple hold a value, as they do from `SYS.INIT` on
(70_reset_and_hazards.md R181). -/
def booted (s : State) : Bool :=
  s.serRx.startIx.isSome && s.serTx.startIx.isSome && s.linkRx.startIx.isSome && s.cl.bitCount.isSome

end Sys2Proof.Safety
end

