-- ==== Sys2Proof/Certificates/Slice0/Obligations.lean ====
section
/-! DEFINITION. The statements about the block, in the order encoding, ring buffers, serial transport, decoder, platform,
step and schedule, whole block. -/

open Sys2Proof Sys2Proof.Machine Sys2Proof.Safety

/-! ### Encoding (30_encoding.md section 2) -/

/-- Decoding the encoding of a well-formed stimulus gives it back, whatever bytes follow. -/
def Obligations.EncodeThenDecodeGivesTheStimulus : Prop :=
  ∀ (i : Instr) (rest : List Byte), i.wf = true → decode (encode i ++ rest) = .ok (i, rest)

/-- What the decoder takes from a stream is well-formed and is the encoding of what it answers. -/
def Obligations.DecodedBytesAreTheEncoding : Prop :=
  ∀ (bs : List Byte) (i : Instr) (rest : List Byte),
    decode bs = .ok (i, rest) → i.wf = true ∧ bs = encode i ++ rest

/-- The reserved opcode bytes, range by range as rule R72 lists them; `BadFsel` for 0x30 to 0x34; every other opcode byte
is assigned, 34 in all; a step refuses a reserved one; the first 0x00 ends a string. -/
def Obligations.ReservedOpcodesAreRefused : Prop :=
  (∀ (op : Byte) (rest : List Byte),
    (decode (op :: rest) = .error .reservedCode ↔
      (0x05 ≤ op.toNat ∧ op.toNat ≤ 0x0F) ∨ (0x15 ≤ op.toNat ∧ op.toNat ≤ 0x1F) ∨
      (0x25 ≤ op.toNat ∧ op.toNat ≤ 0x2F) ∨ (0x35 ≤ op.toNat ∧ op.toNat ≤ 0x3F) ∨
      (0x45 ≤ op.toNat ∧ op.toNat ≤ 0x47) ∨ (0x4A ≤ op.toNat ∧ op.toNat ≤ 0x4F) ∨
      op.toNat = 0x81 ∨ (0x84 ≤ op.toNat ∧ op.toNat ≤ 0x8F) ∨
      (0xC5 ≤ op.toNat ∧ op.toNat ≤ 0xC7) ∨ (0xCC ≤ op.toNat ∧ op.toNat ≤ 0xCF) ∨
      (0x50 ≤ op.toNat ∧ op.toNat ≤ 0x7F) ∨ (0x90 ≤ op.toNat ∧ op.toNat ≤ 0xBF) ∨
      (0xD0 ≤ op.toNat ∧ op.toNat ≤ 0xFF)) ∧
    (decode (op :: rest) = .error .badFsel ↔ 0x30 ≤ op.toNat ∧ op.toNat ≤ 0x34)) ∧
  ((List.range 256).filter (fun k =>
      match decode [BitVec.ofNat 8 k, 1, 1, 1, 1, 0] with | .ok _ => true | .error _ => false)).length = 34 ∧
  (∀ (s : State) (e : DecodeError), s.cfg.capacityOk = true → s.mainlineMoves = false → s.stream ≠ [] →
    decode s.stream = .error e → step s = .refused (Refusal.ofDecode e)) ∧
  (∀ c rest : List Byte, (∀ b ∈ c, b ≠ 0) → decode (0x42 :: (c ++ 0 :: rest)) = .ok (.stSendString c, rest))

/-- Bytes that end inside a stimulus are refused as truncated, wherever inside it they end. -/
def Obligations.TruncatedStimulusIsRefused : Prop :=
  ∀ (i : Instr) (n : Nat), i.wf = true → 0 < n → n < (encode i).length →
    decode ((encode i).take n) = .error .truncatedStimulus

/-- Words of the opcode table, one of each family and format, decode to what they stand for. -/
def Obligations.TableWordsDecode : Prop :=
  decodeTableWord 8 0x10 = some (.rbClear .serTx) ∧
  decodeTableWord 16 0x5A23 = some (.rbPush .linkRx 0x5A) ∧
  decodeTableWord 48 0x020000258040 = some (.stConfigure 9600 2) ∧
  decodeTableWord 24 0x696842 = some (.stSendString [0x68, 0x69]) ∧
  decodeTableWord 8 0x83 = some .clReadScancode ∧
  decodeTableWord 8 0xC4 = some .sysWait ∧
  decodeTableWord 16 0xFFC8 = some (.envRxArrive 0xFF) ∧
  decodeTableWord 8 0xCB = some (.envClkFall true)

/-! ### Ring buffers (40_ringbuffer_ops.md, 10_state.md) -/

/-- The capacities never change, every step of a block with an illegal one is refused, and the default is 16. R1 and R151
refuse the building of such an instance; that every step of it answers `BadCapacity` is the model's reading (log 11). -/
def Obligations.CapacityIsFixedAndBounded : Prop :=
  (∀ s t : State, step s = .next t → ∀ f, t.cap f = s.cap f) ∧
  (∀ (s : State) (f : Inst), s.cap f < 2 ∨ 255 < s.cap f → step s = .refused .badCapacity) ∧
  (∀ (s : State), (∀ f, 2 ≤ s.cap f ∧ s.cap f ≤ 255) → step s ≠ .refused .badCapacity) ∧
  (∀ f, State.reset.cap f = 16)

/-- Empty, full and count are functions of the two indices; empty is count 0, full is count `N - 1`, and an instance is
never both. -/
def Obligations.EmptyAndFullExcludeEachOther : Prop :=
  ∀ (n : Nat) (r : Ring) (a b : Byte), 2 ≤ n → n ≤ 255 → r.startIx = some a → r.endIx = some b →
    a.toNat < n → b.toNat < n →
    (countIx n a b : Int) = ((b.toNat : Int) - (a.toNat : Int)) % (n : Int) ∧ countIx n a b ≤ n - 1 ∧
    r.isEmpty = .ok (decide (a = b)) ∧ r.isFull n = .ok (decide ((b.toNat + 1) % n = a.toNat)) ∧
    (r.isEmpty = .ok true ↔ countIx n a b = 0) ∧ (r.isFull n = .ok true ↔ countIx n a b = n - 1) ∧
    ¬ (r.isEmpty = .ok true ∧ r.isFull n = .ok true)

/-- `RB.CLEAR f` sets both indices to 0 and changes nothing else. -/
def Obligations.ClearEmptiesTheInstance : Prop :=
  (∀ (f : Inst) (s : State),
    (s.ready = true → ∃ t, exec (.rbClear f) s = .next t ∧
      (t.ring f).startIx = some 0 ∧ (t.ring f).endIx = some 0 ∧
      (∀ i, (t.ring f).mem.read i = (s.ring f).mem.read i) ∧
      (t.ring f).isEmpty = .ok true ∧ (2 ≤ s.cap f → (t.ring f).isFull (s.cap f) = .ok false) ∧
      (t.ring f).content (s.cap f) = [] ∧
      otherRingsSame f s t ∧ SameButRings s t ∧ t.obs.results = s.obs.results) ∧
    (s.ready = false → exec (.rbClear f) s = .refused .mainlineBusy)) ∧
  encode (.rbClear .serRx) = [0x00] ∧ encode (.rbClear .serTx) = [0x10] ∧ encode (.rbClear .linkRx) = [0x20]

/-- `RB.IS_EMPTY f` logs whether the indices are equal, and that is whether every successful push since the last clear was
matched by a pop. -/
def Obligations.IsEmptyLogsWhetherPushesAreMatched : Prop :=
  (∀ (f : Inst) (s : State) (a b : Byte), s.ready = true → indicesAre s f a b →
    exec (.rbIsEmpty f) s =
      .next { s with obs := { s.obs with results := s.obs.results ++ [.bool (decide (a = b))] } }) ∧
  (∀ (f : Inst) (s : State), s.ready = true → ((s.ring f).startIx = none ∨ (s.ring f).endIx = none) →
    exec (.rbIsEmpty f) s = .fault .uninitialised) ∧
  (∀ (f : Inst) (s : State), s.ready = false → exec (.rbIsEmpty f) s = .refused .mainlineBusy) ∧
  (∀ (n : Nat) (r : Ring) (cs : List Call) (c : Calls), 2 ≤ n → n ≤ 255 → runCalls n cs r.clear = .ok c →
    c.ring.isEmpty = .ok (decide (c.accepted.length = c.popped.length))) ∧
  encode (.rbIsEmpty .serRx) = [0x01] ∧ encode (.rbIsEmpty .serTx) = [0x11] ∧ encode (.rbIsEmpty .linkRx) = [0x21]

/-- `RB.IS_FULL f` logs whether the successor of `end` is `start`, which for legal indices is count `N - 1`. -/
def Obligations.IsFullLogsWhetherOneSlotIsLeft : Prop :=
  (∀ (f : Inst) (s : State) (a b : Byte), s.ready = true → indicesAre s f a b → s.cfg.capOk f = true →
    exec (.rbIsFull f) s =
      .next { s with obs := { s.obs with
        results := s.obs.results ++ [.bool (decide ((b.toNat + 1) % s.cap f = a.toNat))] } } ∧
    (a.toNat < s.cap f → b.toNat < s.cap f →
      ((b.toNat + 1) % s.cap f = a.toNat ↔ countIx (s.cap f) a b = s.cap f - 1) ∧ b.toNat + 1 ≤ 255)) ∧
  (∀ (f : Inst) (s : State), s.ready = true → ((s.ring f).startIx = none ∨ (s.ring f).endIx = none) →
    exec (.rbIsFull f) s = .fault .uninitialised) ∧
  (∀ (f : Inst) (s : State), s.ready = false → exec (.rbIsFull f) s = .refused .mainlineBusy) ∧
  encode (.rbIsFull .serRx) = [0x02] ∧ encode (.rbIsFull .serTx) = [0x12] ∧ encode (.rbIsFull .linkRx) = [0x22]

/-- `RB.PUSH f, v` with room stores `v` in slot `end`, advances `end` and logs 1; on a full instance it logs 0 and changes
nothing else. -/
def Obligations.PushStoresAtEndOrReportsFull : Prop :=
  (∀ (f : Inst) (v : Byte) (s : State) (a b : Byte), s.ready = true → indicesAre s f a b → s.cfg.capOk f = true →
    a.toNat < s.cap f → b.toNat < s.cap f →
    if (b.toNat + 1) % s.cap f ≠ a.toNat then
      ∃ t, exec (.rbPush f v) s = .next t ∧
        (t.ring f).startIx = some a ∧ (t.ring f).endIx = some (BitVec.ofNat 8 ((b.toNat + 1) % s.cap f)) ∧
        (t.ring f).mem.read b.toNat = some v ∧
        (∀ i, i ≠ b.toNat → (t.ring f).mem.read i = (s.ring f).mem.read i) ∧
        (t.ring f).isEmpty = .ok false ∧
        (t.ring f).isFull (s.cap f) = .ok (decide (countIx (s.cap f) a b + 1 = s.cap f - 1)) ∧
        otherRingsSame f s t ∧ SameButRings s t ∧ t.obs.results = s.obs.results ++ [.bool true]
    else
      exec (.rbPush f v) s =
        .next { s with obs := { s.obs with results := s.obs.results ++ [.bool false] } }) ∧
  (∀ (f : Inst) (v : Byte) (s : State), s.ready = true → ((s.ring f).startIx = none ∨ (s.ring f).endIx = none) →
    exec (.rbPush f v) s = .fault .uninitialised) ∧
  (∀ (f : Inst) (v : Byte) (s : State), s.ready = false → exec (.rbPush f v) s = .refused .mainlineBusy) ∧
  (∀ v : Byte, encode (.rbPush .serRx v) = [0x03, v] ∧ encode (.rbPush .serTx v) = [0x13, v] ∧
    encode (.rbPush .linkRx v) = [0x23, v])

/-- `RB.POP f` on a non-empty instance logs the byte of slot `start` and advances `start`; it faults on an
empty one and where the slot holds no value. -/
def Obligations.PopTakesFromStartOrFaultsWhenEmpty : Prop :=
  (∀ (f : Inst) (s : State) (a b v : Byte), s.ready = true → indicesAre s f a b → s.cfg.capOk f = true →
    a.toNat < s.cap f → b.toNat < s.cap f → a ≠ b → (s.ring f).mem.read a.toNat = some v →
    ∃ t, exec (.rbPop f) s = .next t ∧
      (t.ring f).startIx = some (BitVec.ofNat 8 ((a.toNat + 1) % s.cap f)) ∧ (t.ring f).endIx = some b ∧
      (∀ i, (t.ring f).mem.read i = (s.ring f).mem.read i) ∧
      (t.ring f).isFull (s.cap f) = .ok false ∧
      (t.ring f).isEmpty = .ok (decide (countIx (s.cap f) a b = 1)) ∧
      otherRingsSame f s t ∧ SameButRings s t ∧ t.obs.results = s.obs.results ++ [.byte v]) ∧
  (∀ (f : Inst) (s : State) (a : Byte), s.ready = true → indicesAre s f a a →
    exec (.rbPop f) s = .fault .popEmpty) ∧
  (∀ (f : Inst) (s : State) (a b : Byte), s.ready = true → indicesAre s f a b → a ≠ b → a.toNat < s.cap f →
    (s.ring f).mem.read a.toNat = none → exec (.rbPop f) s = .fault .unwrittenSlot) ∧
  (∀ (f : Inst) (s : State), s.ready = true → ((s.ring f).startIx = none ∨ (s.ring f).endIx = none) →
    exec (.rbPop f) s = .fault .uninitialised) ∧
  (∀ (f : Inst) (s : State), s.ready = false → exec (.rbPop f) s = .refused .mainlineBusy) ∧
  encode (.rbPop .serRx) = [0x04] ∧ encode (.rbPop .serTx) = [0x14] ∧ encode (.rbPop .linkRx) = [0x24]

/-- The content of an instance is the list of its slots from `start` to `end`: a successful push appends, a failed one
leaves it, a pop removes its head, a clear empties it; and pops give back pushes in order. -/
def Obligations.ContentFollowsTheQueueLaw : Prop :=
  ∀ (n : Nat) (r : Ring) (a b : Byte), 2 ≤ n → n ≤ 255 → r.startIx = some a → r.endIx = some b →
    a.toNat < n → b.toNat < n →
    (r.content n).length = countIx n a b ∧
    (∀ k, k < countIx n a b → (r.content n)[k]? = some (r.mem.read ((a.toNat + k) % n))) ∧
    (∀ v, ∃ r' ok, r.push n v = .ok (r', ok) ∧
      r'.content n = if ok = true then r.content n ++ [some v] else r.content n) ∧
    (∀ v rest, r.content n = some v :: rest → ∃ r', r.pop n = .ok (r', v) ∧ r'.content n = rest) ∧
    r.clear.content n = [] ∧
    (∀ vs : List Byte, vs.length ≤ n - 1 →
      ∃ c, runCalls n (vs.map Call.push ++ vs.map (fun _ => Call.pop)) r.clear = .ok c ∧
        c.accepted = vs ∧ c.popped = vs)

/-- The content never has more than `N - 1` elements, a push succeeds iff it has fewer, and with `N` = 16 fifteen pushes
succeed on an empty buffer and the sixteenth fails. -/
def Obligations.CapacityIsOneLessThanTheSlots : Prop :=
  (∀ (n : Nat) (r : Ring) (a b : Byte), 2 ≤ n → n ≤ 255 → r.startIx = some a → r.endIx = some b →
    a.toNat < n → b.toNat < n →
    (r.content n).length ≤ n - 1 ∧
    ∀ v, ∃ r' ok, r.push n v = .ok (r', ok) ∧ (ok = true ↔ (r.content n).length < n - 1)) ∧
  (∀ (r : Ring) (a : Byte) (vs : List Byte), r.startIx = some a → r.endIx = some a → a.toNat < 16 → vs.length = 15 →
    ∃ c, runCalls 16 (vs.map Call.push) r = .ok c ∧ c.accepted = vs ∧
      ∀ v, c.ring.push 16 v = .ok (c.ring, false))

/-- Any interleaving of pushes and pops loses and duplicates nothing and keeps the order: what was popped, and then what is
left, is what was there, and then what was accepted; the buffer never ends up full and empty. -/
def Obligations.InterleavedCallsKeepOrderAndElements : Prop :=
  ∀ (n : Nat) (cs : List Call) (r : Ring) (a b : Byte) (c : Calls), 2 ≤ n → n ≤ 255 →
    r.startIx = some a → r.endIx = some b → a.toNat < n → b.toNat < n → runCalls n cs r = .ok c →
    c.popped.map some ++ c.ring.content n = r.content n ++ c.accepted.map some ∧
    ¬ (c.ring.isEmpty = .ok true ∧ c.ring.isFull n = .ok true)

/-! ### Serial transport (41_serial_transport_ops.md) -/

/-- `ST.CONFIGURE` writes the divisor and the mode of the threshold rule and changes nothing else; where it refuses, and its
bytes. -/
def Obligations.ConfigureWritesDivisorAndMode : Prop :=
  ∀ (rate : Rate) (tol : Byte) (s : State) (q16 d : Nat) (exceeds : Bool),
    q16 = (2 * s.cfg.fClk + 16 * rate.toNat) / (32 * rate.toNat) →
    (exceeds = true ↔
      (tol.toNat : Int) * (16 * q16 * rate.toNat) < 100 * |(s.cfg.fClk : Int) - 16 * q16 * rate.toNat|) →
    d = (if exceeds = true then (2 * s.cfg.fClk + 8 * rate.toNat) / (16 * rate.toNat) - 1 else q16 - 1) →
    (s.ready = true → rate.toNat ≠ 0 → q16 ≠ 0 → d < 2 ^ s.cfg.divBits →
      exec (.stConfigure rate tol) s =
        .next { s with st := { s.st with ubrr := some d, u2x := some exceeds, configured := true } }) ∧
    (s.ready = false → exec (.stConfigure rate tol) s = .refused .mainlineBusy) ∧
    (s.ready = true → rate.toNat = 0 ∨ q16 = 0 → exec (.stConfigure rate tol) s = .refused .badRate) ∧
    (s.ready = true → rate.toNat ≠ 0 → q16 ≠ 0 → 2 ^ s.cfg.divBits ≤ d →
      exec (.stConfigure rate tol) s = .refused .divisorOverflow) ∧
    encode (.stConfigure rate tol) =
      [0x40, rate.extractLsb' 0 8, rate.extractLsb' 8 8, rate.extractLsb' 16 8, rate.extractLsb' 24 8, tol]

/-- The refusals of `ST.CONFIGURE`: rate 0, a rate above `F_CLK / 8`, a divisor that does not fit. -/
def Obligations.ConfigureRefusesWhatHasNoMeaning : Prop :=
  ∀ (rate : Rate) (tol : Byte) (s : State), s.ready = true →
    (rate.toNat = 0 → exec (.stConfigure rate tol) s = .refused .badRate) ∧
    (rate.toNat ≠ 0 → ((2 * s.cfg.fClk + 16 * rate.toNat) / (32 * rate.toNat) = 0 ↔ s.cfg.fClk < 8 * rate.toNat)) ∧
    (s.cfg.fClk < 8 * rate.toNat → exec (.stConfigure rate tol) s = .refused .badRate) ∧
    (∀ (q16 d : Nat) (exceeds : Bool), rate.toNat ≠ 0 →
      q16 = (2 * s.cfg.fClk + 16 * rate.toNat) / (32 * rate.toNat) → q16 ≠ 0 →
      (exceeds = true ↔
        (tol.toNat : Int) * (16 * q16 * rate.toNat) < 100 * |(s.cfg.fClk : Int) - 16 * q16 * rate.toNat|) →
      d = (if exceeds = true then (2 * s.cfg.fClk + 8 * rate.toNat) / (16 * rate.toNat) - 1 else q16 - 1) →
      2 ^ s.cfg.divBits ≤ d → exec (.stConfigure rate tol) s = .refused .divisorOverflow)

/-- The rounding of the divisor: `q` is the nearest integer to `F_CLK / (k * rate)`, halves upward; and wherever the 16x
quotient is at least 1, so is the 8x quotient, so no divisor is negative. -/
def Obligations.DivisorIsRoundedToNearest : Prop :=
  (∀ fClk k rate q : Nat, 0 < k → 0 < rate → q = roundDiv fClk k rate →
    2 * k * rate * q ≤ 2 * fClk + k * rate ∧ 2 * fClk + k * rate < 2 * k * rate * (q + 1)) ∧
  (∀ fClk rate : Nat, 0 < rate → 1 ≤ roundDiv fClk 16 rate → 1 ≤ roundDiv fClk 8 rate)

/-- A blocking operation is accepted at its first CHECK, those of the serial transport only when it is configured; the
empty string and the line of `max_len` 1 complete at once, and `max_len` 0 is refused. -/
def Obligations.BlockingOperationsAreAccepted : Prop :=
  ∀ s : State, s.ready = true → s.sys.ie = true →
    (s.st.configured = true →
      (∀ v, exec (.stSendByte v) s =
        .next { s with sys := { s.sys with ml := .busy (.sendByte v false) .check } }) ∧
      exec (.stSendString []) s = .next s ∧
      (∀ c rest, exec (.stSendString (c :: rest)) s =
        .next { s with sys := { s.sys with ml := .busy (.sendString c rest false) .check } }) ∧
      exec .stRecvByte s = .next { s with sys := { s.sys with ml := .busy .recvByte .check } } ∧
      exec (.stRecvLine 0) s = .refused .badMaxLen ∧
      exec (.stRecvLine 1) s =
        .next { s with obs := { s.obs with results := s.obs.results ++ [.line 0 [0x00]] } } ∧
      (∀ m : Byte, 2 ≤ m.toNat → exec (.stRecvLine m) s =
        .next { s with sys := { s.sys with ml := .busy (.recvLine m []) .check } })) ∧
    exec .clReadByte s = .next { s with sys := { s.sys with ml := .busy .readByte .check } } ∧
    exec .clReadScancode s = .next { s with sys := { s.sys with ml := .busy (.readScancode none) .check } }

/-- The order of the refusals of the blocking operations: mainline busy, not configured, interrupts off. -/
def Obligations.BlockingOperationsAreRefusedInOrder : Prop :=
  ∀ (i : Instr) (s : State),
    ((∃ v, i = .stSendByte v) ∨ (∃ c, i = .stSendString c) ∨ i = .stRecvByte ∨ (∃ m, i = .stRecvLine m) →
      (s.ready = false → exec i s = .refused .mainlineBusy) ∧
      (s.ready = true → s.st.configured = false → exec i s = .refused .notConfigured) ∧
      (s.ready = true → s.st.configured = true → s.sys.ie = false → exec i s = .refused .interruptsOff)) ∧
    (i = .clReadByte ∨ i = .clReadScancode →
      (s.ready = false → exec i s = .refused .mainlineBusy) ∧
      (s.ready = true → s.sys.ie = false → exec i s = .refused .interruptsOff))

/-- `ST.SEND_BYTE v` with room in `SER_TX`: under the eager schedule three steps (acceptance, CHECK, MUTATE) append `v` and
leave mainline idle, nothing else changed but the stream. With `CRLF_IN_SEND_BYTE` a newline goes out as
`SenderMutateAppends` says. That acceptance is a step of its own is the model's reading (log 8). -/
def Obligations.SendByteAppendsWhereThereIsRoom : Prop :=
  ∀ (s : State) (v : Byte) (rest : List Byte) (a b : Byte), s.cfg.capacityOk = true → s.ready = true →
    s.st.configured = true → s.sys.ie = true → s.turns = [] → s.stream = 0x41 :: v :: rest →
    s.cfg.crlfInSendByte = false → indicesAre s .serTx a b → a.toNat < s.cap .serTx → b.toNat < s.cap .serTx →
    (b.toNat + 1) % s.cap .serTx ≠ a.toNat →
    ∃ t, Host.Core.run core 3 s = .next t ∧
      t.serTx.content (s.cap .serTx) = s.serTx.content (s.cap .serTx) ++ [some v] ∧
      t.serTx.startIx = some a ∧ t.serTx.endIx = some (BitVec.ofNat 8 ((b.toNat + 1) % s.cap .serTx)) ∧
      t.serTx.mem.read b.toNat = some v ∧
      (∀ i, i ≠ b.toNat → t.serTx.mem.read i = s.serTx.mem.read i) ∧
      t.serRx = s.serRx ∧ t.linkRx = s.linkRx ∧ t.st = s.st ∧ t.cl = s.cl ∧ t.sys = s.sys ∧ t.obs = s.obs ∧
      t.cfg = s.cfg ∧ t.stream = rest ∧ t.turns = []

/-- `ST.SEND_STRING c` with room for its expansion: under the eager schedule it appends the bytes of `c`, each newline
behind a carriage return, in order, whichever side of `send_byte` makes the expansion. That acceptance is a step of its
own is the model's reading (log 8). -/
def Obligations.SendStringAppendsItsExpansion : Prop :=
  ∀ (s : State) (c rest : List Byte) (a b : Byte), s.cfg.capacityOk = true → s.ready = true →
    s.st.configured = true → s.sys.ie = true → s.turns = [] → (∀ x ∈ c, x ≠ 0) →
    s.stream = 0x42 :: (c ++ 0 :: rest) →
    indicesAre s .serTx a b → a.toNat < s.cap .serTx → b.toNat < s.cap .serTx →
    (s.serTx.content (s.cap .serTx)).length + (expandString c).length ≤ s.cap .serTx - 1 →
    ∃ t, Host.Core.run core (1 + 2 * (expandString c).length) s = .next t ∧
      t.serTx.content (s.cap .serTx) = s.serTx.content (s.cap .serTx) ++ (expandString c).map some ∧
      t.serTx.startIx = some a ∧
      t.serTx.endIx = some (BitVec.ofNat 8 ((b.toNat + (expandString c).length) % s.cap .serTx)) ∧
      (∀ i, (∀ k, k < (expandString c).length → i ≠ (b.toNat + k) % s.cap .serTx) →
        t.serTx.mem.read i = s.serTx.mem.read i) ∧
      t.serRx = s.serRx ∧ t.linkRx = s.linkRx ∧ t.st = s.st ∧ t.cl = s.cl ∧ t.sys = s.sys ∧ t.obs = s.obs ∧
      t.cfg = s.cfg ∧ t.stream = rest ∧ t.turns = []

/-- `ST.RECV_BYTE` with a byte in `SER_RX`: under the eager schedule three steps log the oldest byte and remove it.
That acceptance is a step of its own is the model's reading (log 8). -/
def Obligations.RecvByteReturnsTheOldest : Prop :=
  ∀ (s : State) (v : Byte) (waiting : List (Option Byte)) (rest : List Byte) (a b : Byte),
    s.cfg.capacityOk = true → s.ready = true → s.st.configured = true → s.sys.ie = true → s.turns = [] →
    s.stream = 0x43 :: rest → indicesAre s .serRx a b → a.toNat < s.cap .serRx → b.toNat < s.cap .serRx →
    s.serRx.content (s.cap .serRx) = some v :: waiting →
    ∃ t, Host.Core.run core 3 s = .next t ∧ t.obs.results = s.obs.results ++ [.byte v] ∧
      t.serRx.content (s.cap .serRx) = waiting ∧ t.serRx.endIx = some b ∧ t.serRx.mem = s.serRx.mem ∧
      t.serTx = s.serTx ∧ t.linkRx = s.linkRx ∧ t.st = s.st ∧ t.cl = s.cl ∧ t.sys = s.sys ∧
      t.obs.wireOut = s.obs.wireOut ∧ t.cfg = s.cfg ∧ t.stream = rest ∧ t.turns = []

/-- `ST.RECV_LINE max_len` with its line in `SER_RX`: under the eager schedule it logs the bytes before the newline, or the
first `max_len - 1`, with the terminator and their count, and consumes those bytes and the newline alone. That
acceptance is a step of its own is the model's reading (log 8). -/
def Obligations.RecvLineReturnsTheLine : Prop :=
  ∀ (s : State) (maxLen : Byte) (bytes line rest : List Byte) (k : Nat) (a b : Byte),
    s.cfg.capacityOk = true → s.ready = true → s.st.configured = true → s.sys.ie = true → s.turns = [] →
    s.stream = 0x44 :: maxLen :: rest → maxLen ≠ 0 →
    indicesAre s .serRx a b → a.toNat < s.cap .serRx → b.toNat < s.cap .serRx →
    s.serRx.content (s.cap .serRx) = bytes.map some → takeLine (maxLen.toNat - 1) bytes = some (line, k) →
    ∃ t, Host.Core.run core (1 + 2 * k) s = .next t ∧
      t.obs.results = s.obs.results ++ [.line line.length (line ++ [0x00])] ∧
      t.serRx.content (s.cap .serRx) = (bytes.drop k).map some ∧ t.serRx.endIx = some b ∧
      t.serRx.mem = s.serRx.mem ∧
      t.serTx = s.serTx ∧ t.linkRx = s.linkRx ∧ t.st = s.st ∧ t.cl = s.cl ∧ t.sys = s.sys ∧
      t.obs.wireOut = s.obs.wireOut ∧ t.cfg = s.cfg ∧ t.stream = rest ∧ t.turns = []

/-- The transmit-ready handler moves the oldest byte of `SER_TX` to `st.txd`, does nothing on an empty `SER_TX`, and wakes
mainline either way; its refusals in order. -/
def Obligations.TransmitReadyHandlerMovesOneByte : Prop :=
  ∀ (s : State) (a b : Byte),
    (s.st.configured = true → s.sys.ie = true → s.st.txdEmpty = true → indicesAre s .serTx a b →
      (a = b → exec .stIsrTx s = .next { s with sys := { s.sys with sleeping := false } }) ∧
      (∀ v, a ≠ b → s.cfg.capOk .serTx = true → a.toNat < s.cap .serTx → b.toNat < s.cap .serTx →
        s.serTx.mem.read a.toNat = some v →
        exec .stIsrTx s = .next { s with
          serTx := { s.serTx with startIx := some (BitVec.ofNat 8 ((a.toNat + 1) % s.cap .serTx)) }
          st := { s.st with txd := some v, txdEmpty := false }
          sys := { s.sys with sleeping := false } })) ∧
    (s.st.configured = false → exec .stIsrTx s = .refused .notConfigured) ∧
    (s.st.configured = true → s.sys.ie = false → exec .stIsrTx s = .refused .interruptsOff) ∧
    (s.st.configured = true → s.sys.ie = true → s.st.txdEmpty = false → exec .stIsrTx s = .refused .noEvent) ∧
    encode .stIsrTx = [0x48]

/-- The receive-ready handler reads `st.rxd` once whether or not there is room, appends the byte to `SER_RX` if there is,
drops it if not, and wakes mainline; its refusals in order. -/
def Obligations.ReceiveReadyHandlerStoresOrDrops : Prop :=
  ∀ (s : State) (a b v : Byte),
    (s.st.configured = true → s.sys.ie = true → s.st.rxdFull = true → s.st.rxd = some v → indicesAre s .serRx a b →
      s.cfg.capOk .serRx = true → a.toNat < s.cap .serRx → b.toNat < s.cap .serRx →
      ∃ t, exec .stIsrRx s = .next t ∧
        t.st = { s.st with rxdFull := false } ∧ t.sys = { s.sys with sleeping := false } ∧
        (if (b.toNat + 1) % s.cap .serRx ≠ a.toNat then
          t.serRx.startIx = some a ∧ t.serRx.endIx = some (BitVec.ofNat 8 ((b.toNat + 1) % s.cap .serRx)) ∧
          t.serRx.mem.read b.toNat = some v ∧
          (∀ i, i ≠ b.toNat → t.serRx.mem.read i = s.serRx.mem.read i)
        else t.serRx = s.serRx) ∧
        t.serTx = s.serTx ∧ t.linkRx = s.linkRx ∧ t.cl = s.cl ∧ t.obs = s.obs ∧ t.cfg = s.cfg ∧
        t.stream = s.stream ∧ t.turns = s.turns) ∧
    (s.st.configured = false → exec .stIsrRx s = .refused .notConfigured) ∧
    (s.st.configured = true → s.sys.ie = false → exec .stIsrRx s = .refused .interruptsOff) ∧
    (s.st.configured = true → s.sys.ie = true → s.st.rxdFull = false → exec .stIsrRx s = .refused .noEvent) ∧
    encode .stIsrRx = [0x49]

/-! ### Clocked link decoder (42_clocked_link_decoder_ops.md) -/

/-- State 0: a start bit of 0 starts a frame, a 1 is ignored; the buffer and the parity are not written. -/
def Obligations.StartBitStateStartsOrIgnores : Prop :=
  ∀ (s : State) (b : Bool), s.sys.ie = true → s.cl.clkPend = true → s.cl.clkSamp = some b → s.cl.bitCount = some 0 →
    exec .clIsrEdge s = .next { s with
      cl := { s.cl with clkPend := false, bitCount := some (if b = true then 0 else 1) }
      sys := { s.sys with sleeping := false } }

/-- States 1 to 8: the bit goes to its place in the buffer and into the parity, and the position advances. -/
def Obligations.DataBitStatesAssembleTheByte : Prop :=
  ∀ (s : State) (b p : Bool) (c : BitVec 4) (buf : Byte), s.sys.ie = true → s.cl.clkPend = true →
    s.cl.clkSamp = some b → s.cl.bitCount = some c → 1 ≤ c.toNat → c.toNat ≤ 8 →
    s.cl.bitBuffer = some buf → s.cl.parityAcc = some p →
    ∃ buf', exec .clIsrEdge s = .next { s with
        cl := { s.cl with
          clkPend := false, bitCount := some (BitVec.ofNat 4 (c.toNat + 1)),
          bitBuffer := some buf', parityAcc := some (p ^^ b) }
        sys := { s.sys with sleeping := false } } ∧
      (∀ k, k < 8 → buf'.getLsbD k = (buf.getLsbD k || (decide (k = c.toNat - 1) && b))) ∧
      (b = false → buf' = buf)

/-- State 9: the frame is kept iff the inverted bit equals the parity; otherwise the triple is reset and nothing is
pushed. -/
def Obligations.ParityStateKeepsOrAborts : Prop :=
  ∀ (s : State) (b p : Bool), s.sys.ie = true → s.cl.clkPend = true → s.cl.clkSamp = some b →
    s.cl.bitCount = some 9 → s.cl.parityAcc = some p →
    ((!b) = p → exec .clIsrEdge s = .next { s with
        cl := { s.cl with clkPend := false, bitCount := some 10 }
        sys := { s.sys with sleeping := false } }) ∧
    ((!b) ≠ p → exec .clIsrEdge s = .next { s with
        cl := { s.cl with clkPend := false, bitCount := some 0, bitBuffer := some 0, parityAcc := some false }
        sys := { s.sys with sleeping := false } })

/-- State 10: whatever the stop bit, the byte is appended to `LINK_RX` if there is room and dropped if not, and the triple
is reset. -/
def Obligations.StopStateAcceptsTheFrame : Prop :=
  ∀ (s : State) (stop : Bool) (i j buf : Byte), s.sys.ie = true → s.cl.clkPend = true → s.cl.clkSamp = some stop →
    s.cl.bitCount = some 10 → s.cl.bitBuffer = some buf → indicesAre s .linkRx i j → s.cfg.capOk .linkRx = true →
    i.toNat < s.cap .linkRx → j.toNat < s.cap .linkRx →
    ∃ t, exec .clIsrEdge s = .next t ∧
      t.cl = { s.cl with clkPend := false, bitCount := some 0, bitBuffer := some 0, parityAcc := some false } ∧
      t.sys = { s.sys with sleeping := false } ∧
      (if (j.toNat + 1) % s.cap .linkRx ≠ i.toNat then
        t.linkRx.startIx = some i ∧ t.linkRx.endIx = some (BitVec.ofNat 8 ((j.toNat + 1) % s.cap .linkRx)) ∧
        t.linkRx.mem.read j.toNat = some buf ∧
        (∀ k, k ≠ j.toNat → t.linkRx.mem.read k = s.linkRx.mem.read k)
      else t.linkRx = s.linkRx) ∧
      t.serRx = s.serRx ∧ t.serTx = s.serTx ∧ t.st = s.st ∧ t.obs = s.obs ∧ t.cfg = s.cfg ∧
      t.stream = s.stream ∧ t.turns = s.turns

/-- Where the clock-edge handler stops: its refusals in order, a frame triple without a value, a position above 10. -/
def Obligations.EdgeHandlerStops : Prop :=
  ∀ s : State,
    (s.sys.ie = false → exec .clIsrEdge s = .refused .interruptsOff) ∧
    (s.sys.ie = true → s.cl.clkPend = false → exec .clIsrEdge s = .refused .noEvent) ∧
    (s.sys.ie = true → s.cl.clkPend = true → s.cl.clkSamp.isSome = true → s.cl.bitCount = none →
      exec .clIsrEdge s = .fault .uninitialised) ∧
    (∀ c : BitVec 4, s.sys.ie = true → s.cl.clkPend = true → s.cl.clkSamp.isSome = true → s.cl.bitCount = some c →
      10 < c.toNat → exec .clIsrEdge s = .fault .badFrameState)

/-- Eleven edges of a frame with correct odd parity, for every byte and either stop bit, append the byte to `LINK_RX` (or
drop it where `LINK_RX` is full), return the triple to (0,0,0) and change nothing else. -/
def Obligations.ValidFrameDeliversItsByte : Prop :=
  ∀ (s : State) (v : Byte) (stop : Bool) (i j : Byte), s.sys.ie = true → frameIdle s → indicesAre s .linkRx i j →
    s.cfg.capOk .linkRx = true → i.toNat < s.cap .linkRx → j.toNat < s.cap .linkRx →
    ∃ t, linkBits (frameBits v (parityBit v) stop) s = .next t ∧
      t.cl = { s.cl with clkPend := false, clkSamp := some stop } ∧ t.sys = { s.sys with sleeping := false } ∧
      (if (j.toNat + 1) % s.cap .linkRx ≠ i.toNat then
        t.linkRx.content (s.cap .linkRx) = s.linkRx.content (s.cap .linkRx) ++ [some v] ∧
        t.linkRx.startIx = some i ∧ t.linkRx.endIx = some (BitVec.ofNat 8 ((j.toNat + 1) % s.cap .linkRx)) ∧
        t.linkRx.mem.read j.toNat = some v ∧
        (∀ k, k ≠ j.toNat → t.linkRx.mem.read k = s.linkRx.mem.read k)
       else t.linkRx = s.linkRx) ∧
      t.serRx = s.serRx ∧ t.serTx = s.serTx ∧ t.st = s.st ∧ t.obs = s.obs ∧ t.cfg = s.cfg ∧
      t.stream = s.stream ∧ t.turns = s.turns

/-- Eleven edges of a frame with the parity bit inverted push nothing; with a stop bit of 1 the triple is (0,0,0) again,
with a stop bit of 0 that bit was taken as a start bit. -/
def Obligations.BadParityFrameIsDiscarded : Prop :=
  ∀ (s : State) (v : Byte) (stop : Bool), s.sys.ie = true → frameIdle s →
    linkBits (frameBits v (!parityBit v) stop) s = .next { s with
      cl := { s.cl with clkPend := false, clkSamp := some stop, bitCount := some (if stop = true then 0 else 1) }
      sys := { s.sys with sleeping := false } }

/-- `CL.READ_BYTE` with a byte in `LINK_RX`: under the eager schedule three steps log the oldest byte and remove it;
`CL.READ_SCANCODE` logs the translation of the first byte, or, if that is an escape marker, of the second, in two steps
more; the translation of a byte is its entry in the table, 0 for a byte without one. That acceptance is a step of its own
is the model's reading (log 8). -/
def Obligations.LinkReadersReturnTheOldest : Prop :=
  ∀ (s : State) (c : Byte) (waiting : List (Option Byte)) (rest : List Byte) (i j : Byte) (op : Byte),
    s.cfg.capacityOk = true → s.ready = true → s.sys.ie = true → s.turns = [] → s.stream = op :: rest →
    indicesAre s .linkRx i j → i.toNat < s.cap .linkRx → j.toNat < s.cap .linkRx →
    s.linkRx.content (s.cap .linkRx) = some c :: waiting →
    ∀ (steps : Nat) (logged : Byte) (left : List (Option Byte)),
      ((op = 0x82 ∧ steps = 3 ∧ logged = c ∧ left = waiting) ∨
        (op = 0x83 ∧ c ∉ s.cfg.escapeSet ∧ steps = 3 ∧ logged = (s.cfg.translation.lookup c).getD 0 ∧ left = waiting) ∨
        (op = 0x83 ∧ c ∈ s.cfg.escapeSet ∧ steps = 5 ∧
          ∃ d, waiting = some d :: left ∧ logged = (s.cfg.translation.lookup d).getD 0)) →
      ∃ t, Host.Core.run core steps s = .next t ∧ t.obs.results = s.obs.results ++ [.byte logged] ∧
        t.linkRx.content (s.cap .linkRx) = left ∧ t.linkRx.endIx = some j ∧ t.linkRx.mem = s.linkRx.mem ∧
        t.serRx = s.serRx ∧ t.serTx = s.serTx ∧ t.st = s.st ∧ t.cl = s.cl ∧ t.sys = s.sys ∧
        t.obs.wireOut = s.obs.wireOut ∧ t.cfg = s.cfg ∧ t.stream = rest ∧ t.turns = []

/-! ### Platform and environment (43_system_env_ops.md) -/

/-- `SYS.RESET` is accepted in every state and leaves every piece of state of the block at its reset value. -/
def Obligations.ResetLeavesTheResetState : Prop :=
  (∀ s : State, ∃ t, exec .sysReset s = .next t ∧
    (∀ f, (t.ring f).startIx = none ∧ (t.ring f).endIx = none ∧ ∀ i, (t.ring f).mem.read i = none) ∧
    t.st = { ubrr := none, u2x := none, txd := none, txdEmpty := true, rxd := none, rxdFull := false,
             configured := false } ∧
    t.cl = { bitCount := none, bitBuffer := none, parityAcc := none, clkPend := false, clkSamp := none } ∧
    t.sys = { ie := false, sleeping := false, ml := .idle } ∧ t.obs = { wireOut := [], results := [] } ∧
    t.cfg = s.cfg ∧ t.stream = s.stream ∧ t.turns = s.turns) ∧
  encode .sysReset = [0xC0]

/-- `SYS.INIT` clears the indices of the three instances and the frame triple, and nothing else; with interrupts on it is
refused. -/
def Obligations.InitClearsIndicesAndFrame : Prop :=
  (∀ s : State,
    (s.ready = true → s.sys.ie = false → exec .sysInit s = .next { s with
      serRx := { s.serRx with startIx := some 0, endIx := some 0 }
      serTx := { s.serTx with startIx := some 0, endIx := some 0 }
      linkRx := { s.linkRx with startIx := some 0, endIx := some 0 }
      cl := { s.cl with bitCount := some 0, bitBuffer := some 0, parityAcc := some false } }) ∧
    (s.ready = true → s.sys.ie = true → exec .sysInit s = .refused .interruptsOn) ∧
    (s.ready = false → exec .sysInit s = .refused .mainlineBusy)) ∧
  encode .sysInit = [0xC1]

/-- `SYS.IRQ_ON` and `SYS.IRQ_OFF` write `sys.IE` and nothing else. -/
def Obligations.IrqOnAndOffWriteTheFlag : Prop :=
  (∀ s : State,
    (s.ready = true → exec .sysIrqOn s = .next { s with sys := { s.sys with ie := true } } ∧
      exec .sysIrqOff s = .next { s with sys := { s.sys with ie := false } }) ∧
    (s.ready = false → exec .sysIrqOn s = .refused .mainlineBusy ∧ exec .sysIrqOff s = .refused .mainlineBusy)) ∧
  encode .sysIrqOn = [0xC2] ∧ encode .sysIrqOff = [0xC3]

/-- `SYS.WAIT` puts mainline to sleep with interrupts on and is refused with interrupts off; asleep, mainline accepts and
takes no step, until any handler has run. -/
def Obligations.WaitSleepsWithInterruptsOn : Prop :=
  (∀ s : State,
    (s.ready = true → s.sys.ie = true → exec .sysWait s = .next { s with sys := { s.sys with sleeping := true } }) ∧
    (s.ready = true → s.sys.ie = false → exec .sysWait s = .refused .interruptsOff) ∧
    (s.ready = false → exec .sysWait s = .refused .mainlineBusy) ∧
    (s.sys.sleeping = true → s.ready = false ∧ s.mainlineMoves = false) ∧
    (∀ (i : Instr) (t : State), isHandler i = true → exec i s = .next t → t.sys.sleeping = false)) ∧
  encode .sysWait = [0xC4]

/-- `ENV.RX_ARRIVE v` loads the input register if it is free and is lost without a trace if not. -/
def Obligations.ArrivingByteLoadsOrIsLost : Prop :=
  ∀ (v : Byte) (s : State),
    (s.st.configured = false → exec (.envRxArrive v) s = .refused .notConfigured) ∧
    (s.st.configured = true → s.st.rxdFull = false →
      exec (.envRxArrive v) s = .next { s with st := { s.st with rxd := some v, rxdFull := true } }) ∧
    (s.st.configured = true → s.st.rxdFull = true → exec (.envRxArrive v) s = .next s) ∧
    encode (.envRxArrive v) = [0xC8, v]

/-- `ENV.TX_DONE` appends the byte of the output register to the wire log and empties the register. -/
def Obligations.TransmittedByteGoesToTheWire : Prop :=
  (∀ s : State,
    (s.st.configured = false → exec .envTxDone s = .refused .notConfigured) ∧
    (s.st.configured = true → s.st.txdEmpty = true → exec .envTxDone s = .refused .noEvent) ∧
    (∀ v, s.st.configured = true → s.st.txdEmpty = false → s.st.txd = some v →
      exec .envTxDone s = .next { s with
        st := { s.st with txdEmpty := true }
        obs := { s.obs with wireOut := s.obs.wireOut ++ [v] } })) ∧
  encode .envTxDone = [0xC9]

/-- `ENV.CLK_FALL b` latches the edge and its sample in every state; a later edge overwrites an earlier one. -/
def Obligations.FallingEdgeIsLatched : Prop :=
  (∀ (b : Bool) (s : State), exec (.envClkFall b) s =
    .next { s with cl := { s.cl with clkSamp := some b, clkPend := true } }) ∧
  encode (.envClkFall false) = [0xCA] ∧ encode (.envClkFall true) = [0xCB]

/-! ### Phases, step and schedule (60_exceptions.md) -/

/-- CHECK: the condition true leads to MUTATE, false to SLEEP, or under `ATOMIC_CHECK_SLEEP` straight to the wait. SLEEP
enters the wait whatever the condition has become meanwhile (the lost wake-up), and a sleeping mainline has no step: the
next step is the stream's. -/
def Obligations.CheckAndSleepPhasesDecideTheWait : Prop :=
  (∀ (s : State) (op : MlOp) (a b : Byte), s.sys.ml = .busy op .check → s.cfg.capOk op.channel = true →
    indicesAre s op.channel a b →
    ∀ blocked : Bool,
      (blocked = true ↔
        if op.channel = .serTx then (b.toNat + 1) % s.cap .serTx = a.toNat else a = b) →
      mainlineStep s =
        if blocked = false then .next { s with sys := { s.sys with ml := .busy op .mutate } }
        else if s.cfg.atomicCheckSleep = true then
          .next { s with sys := { s.sys with sleeping := true, ml := .busy op .check } }
        else .next { s with sys := { s.sys with ml := .busy op .sleep } }) ∧
  (∀ (s : State) (op : MlOp), s.sys.ml = .busy op .sleep →
    mainlineStep s = .next { s with sys := { s.sys with sleeping := true, ml := .busy op .check } }) ∧
  (∀ s : State, s.cfg.capacityOk = true → s.sys.sleeping = true → step s = stimulusStep s)

/-- MUTATE of a sender: the byte due is appended to `SER_TX` in one step that leaves interrupts on, and the operation goes
on to the newline behind its carriage return, to the next byte, or completes. -/
def Obligations.SenderMutateAppends : Prop :=
  ∀ (s : State) (op : MlOp) (a b v : Byte) (m : Mainline), s.sys.ml = .busy op .mutate →
    indicesAre s .serTx a b → s.cfg.capOk .serTx = true → a.toNat < s.cap .serTx → b.toNat < s.cap .serTx →
    (b.toNat + 1) % s.cap .serTx ≠ a.toNat →
    ((∃ x sent, op = .sendByte x sent ∧
        if s.cfg.crlfInSendByte = true ∧ x = Config.newline ∧ sent = false then
          v = Config.carriageReturn ∧ m = .busy (.sendByte x true) .check
        else v = x ∧ m = .idle) ∨
      (∃ x rest sent, op = .sendString x rest sent ∧
        if x = Config.newline ∧ sent = false then
          v = Config.carriageReturn ∧ m = .busy (.sendString x rest true) .check
        else v = x ∧ m = (match rest with | [] => .idle | y :: ys => .busy (.sendString y ys false) .check))) →
    ∃ t, mainlineStep s = .next t ∧ t.sys = { s.sys with ie := true, ml := m } ∧
      t.serTx.startIx = some a ∧ t.serTx.endIx = some (BitVec.ofNat 8 ((b.toNat + 1) % s.cap .serTx)) ∧
      t.serTx.mem.read b.toNat = some v ∧ (∀ i, i ≠ b.toNat → t.serTx.mem.read i = s.serTx.mem.read i) ∧
      t.serRx = s.serRx ∧ t.linkRx = s.linkRx ∧ t.st = s.st ∧ t.cl = s.cl ∧ t.obs = s.obs ∧ t.cfg = s.cfg ∧
      t.stream = s.stream ∧ t.turns = s.turns

/-- MUTATE of a receiver: the oldest byte leaves its instance in one step that leaves interrupts on; the operation logs its
result and completes, or goes on to its next byte. -/
def Obligations.ReceiverMutateTakes : Prop :=
  ∀ (s : State) (op : MlOp) (a b c : Byte) (m : Mainline) (new : List Logged), s.sys.ml = .busy op .mutate →
    op.channel ≠ .serTx → indicesAre s op.channel a b → s.cfg.capOk op.channel = true →
    a.toNat < s.cap op.channel → a ≠ b → (s.ring op.channel).mem.read a.toNat = some c →
    ((op = .recvByte ∧ m = .idle ∧ new = [.byte c]) ∨ (op = .readByte ∧ m = .idle ∧ new = [.byte c]) ∨
      (∃ maxLen line, op = .recvLine maxLen line ∧
        if c = Config.newline then m = .idle ∧ new = [.line line.length (line ++ [0x00])]
        else if line.length + 1 = maxLen.toNat - 1 then
          m = .idle ∧ new = [.line (line.length + 1) (line ++ [c] ++ [0x00])]
        else line.length + 1 < maxLen.toNat - 1 ∧ m = .busy (.recvLine maxLen (line ++ [c])) .check ∧ new = []) ∨
      (∃ first, op = .readScancode first ∧
        if first = none ∧ c ∈ s.cfg.escapeSet then m = .busy (.readScancode (some c)) .check ∧ new = []
        else m = .idle ∧ new = [.byte (translateByte s.cfg c)])) →
    ∃ t, mainlineStep s = .next t ∧ t.sys = { s.sys with ie := true, ml := m } ∧
      t.ring op.channel =
        { s.ring op.channel with startIx := some (BitVec.ofNat 8 ((a.toNat + 1) % s.cap op.channel)) } ∧
      t.obs = { s.obs with results := s.obs.results ++ new } ∧
      otherRingsSame op.channel s t ∧ t.st = s.st ∧ t.cl = s.cl ∧ t.cfg = s.cfg ∧ t.stream = s.stream ∧
      t.turns = s.turns

/-- Where it is not mainline's turn, a step is the meaning of the stimulus that the front of the stream decodes to, its bytes
consumed. -/
def Obligations.StepRunsTheDecodedStimulus : Prop :=
  ∀ (s : State) (i : Instr) (rest : List Byte), s.cfg.capacityOk = true → s.mainlineMoves = false →
    decode s.stream = .ok (i, rest) → step s = exec i { s.takeTurn with stream := rest }

/-- Where mainline can move, the eager schedule (no turns left) and a turn of mainline's give it the step, and a turn of the
others gives the step to the stream. At the end of the stream the block waits unchanged, which is the model's choice
(log 7). -/
def Obligations.TurnsChooseTheAgent : Prop :=
  ∀ s : State, s.cfg.capacityOk = true → s.canMove = true →
    (s.turns = [] → step s = mainlineStep s) ∧
    (∀ ts, s.turns = .mainline :: ts → step s = mainlineStep { s with turns := ts }) ∧
    (∀ ts, s.turns = .other :: ts → step s = stimulusStep { s with turns := ts }) ∧
    (∀ ts, s.turns = .other :: ts → s.stream = [] → step s = .next { s with turns := ts })

/-- A word of the opcode table placed with `withFetchWord` is what the very next step runs, in every state of a block with
legal capacities (the model's loading, log 2). -/
def Obligations.PlacedWordRunsNext : Prop :=
  ∀ (s : State) (nbits w : Nat) (i : Instr), s.cfg.capacityOk = true → decodeTableWord nbits w = some i →
    step (s.withFetchWord nbits w) = exec i { s with stream := [] }

/-- Every stimulus of mainline is refused while mainline is busy or asleep, and no other stimulus is refused for that. -/
def Obligations.BusyMainlineRefusesItsStimuli : Prop :=
  ∀ (i : Instr) (s : State),
    (isMainline i = true → s.ready = false → exec i s = .refused .mainlineBusy) ∧
    (isMainline i = false → exec i s ≠ .refused .mainlineBusy)

/-! ### The whole block -/

/-- Only a handler or a reset ends the low-power wait, and every handler that runs ends it. -/
def Obligations.OnlyHandlersAndResetEndTheWait : Prop :=
  (∀ s t : State, step s = .next t → s.sys.sleeping = true → t.sys.sleeping = false →
    ∃ i, applies s i ∧ (isHandler i = true ∨ i = .sysReset)) ∧
  (∀ (i : Instr) (s t : State), isHandler i = true → exec i s = .next t → t.sys.sleeping = false ∧ t.sys.ie = true)

/-- The frame triple is touched by the edge handler, `SYS.INIT` and `SYS.RESET` alone; no step of mainline's operations
touches it. -/
def Obligations.FrameTripleIsPrivate : Prop :=
  ∀ s t : State, step s = .next t →
    (t.cl.bitCount = s.cl.bitCount ∧ t.cl.bitBuffer = s.cl.bitBuffer ∧ t.cl.parityAcc = s.cl.parityAcc) ∨
    applies s .clIsrEdge ∨ applies s .sysInit ∨ applies s .sysReset

/-- `sys.IE` changes by `SYS.IRQ_ON`, `SYS.IRQ_OFF` and `SYS.RESET` alone: critical sections and handlers leave it as they
found it. -/
def Obligations.InterruptFlagHasThreeWriters : Prop :=
  ∀ s t : State, inv s = true → step s = .next t → t.sys.ie ≠ s.sys.ie →
    applies s .sysIrqOn ∨ applies s .sysIrqOff ∨ applies s .sysReset

/-- Producers and consumers: apart from the raw stimuli on an instance, `SYS.INIT` and `SYS.RESET`, the end of an instance
moves only in a step of its producer and its start only in a step of its consumer. -/
def Obligations.EachIndexHasItsOneContext : Prop :=
  ∀ s t : State, step s = .next t →
    ∀ f, (∀ i, applies s i → rewrites f i = false) →
      ((t.ring f).endIx ≠ (s.ring f).endIx → producerMoves s f) ∧
      ((t.ring f).startIx ≠ (s.ring f).startIx → consumerMoves s f)

/-- The logs are append-only: apart from `SYS.RESET`, results only grow, and the wire log grows by `ENV.TX_DONE` alone. -/
def Obligations.LogsOnlyGrow : Prop :=
  ∀ s t : State, step s = .next t → ¬ applies s .sysReset →
    (∃ new, t.obs.results = s.obs.results ++ new ∧ new.length ≤ 1) ∧
    (t.obs.wireOut = s.obs.wireOut ∨
      (applies s .envTxDone ∧ ∃ v, s.st.txd = some v ∧ t.obs.wireOut = s.obs.wireOut ++ [v]))

/-- The invariant holds right after reset. -/
def Obligations.InvariantHoldsAtReset : Prop := inv State.reset = true

/-- Every step keeps the invariant: arrays canonical, indices legal, every element of a content written, the rate registers
in range, the frame triple a position with the parity of its bits, and mainline's wait conditions as found. -/
def Obligations.EveryStepKeepsTheInvariant : Prop :=
  ∀ s t : State, inv s = true → step s = .next t → inv t = true

/-- After initialisation no step faults but a raw `RB.POP` on an empty instance, and only `SYS.RESET` undoes the
initialisation. -/
def Obligations.InitialisedBlockFaultsOnlyOnRawPop : Prop :=
  ∀ s : State, inv s = true → booted s = true →
    (∀ e, step s = .fault e → e = .popEmpty ∧ ∃ f, applies s (.rbPop f) ∧ (s.ring f).isEmpty = .ok true) ∧
    (∀ t, step s = .next t → booted t = true ∨ applies s .sysReset)

/-- Transmit order: without raw stimuli on `SER_TX`, initialisation and reset, the wire log, the output register and the
content of `SER_TX` together change by one thing alone: the byte of a `send_raw` critical section goes to the end. So no
byte is dropped, duplicated or reordered. -/
def Obligations.TransmitKeepsEveryByteInOrder : Prop :=
  ∀ s t : State, inv s = true → step s = .next t → (∀ i, applies s i → rewrites .serTx i = false) →
    txTrace t = txTrace s ++ sentNow s

/-- Receive order: without raw stimuli on the instance, initialisation and reset, the content of `SER_RX` grows by the byte
that `ST.ISR_RX` reads (unless it is full), that of `LINK_RX` by the byte of an accepted frame (unless it is full), and each
shrinks by the element its mainline consumer takes from its front. -/
def Obligations.ReceiveKeepsArrivalOrder : Prop :=
  ∀ s t : State, inv s = true → step s = .next t →
    ((∀ i, applies s i → rewrites .serRx i = false) →
      (applies s .stIsrRx →
        t.serRx.content (s.cap .serRx) =
          if s.serRx.isFull (s.cap .serRx) = .ok true then s.serRx.content (s.cap .serRx)
          else s.serRx.content (s.cap .serRx) ++ [s.st.rxd]) ∧
      (¬ applies s .stIsrRx →
        takenNow s .serRx ++ t.serRx.content (s.cap .serRx) = s.serRx.content (s.cap .serRx))) ∧
    ((∀ i, applies s i → rewrites .linkRx i = false) →
      (applies s .clIsrEdge ∧ s.cl.bitCount = some 10 →
        t.linkRx.content (s.cap .linkRx) =
          if s.linkRx.isFull (s.cap .linkRx) = .ok true then s.linkRx.content (s.cap .linkRx)
          else s.linkRx.content (s.cap .linkRx) ++ [s.cl.bitBuffer]) ∧
      (¬ (applies s .clIsrEdge ∧ s.cl.bitCount = some 10) →
        takenNow s .linkRx ++ t.linkRx.content (s.cap .linkRx) = s.linkRx.content (s.cap .linkRx)))

/-! ### Reads of what holds no value (10_state.md R36, 43_system_env_ops.md R135) -/

/-- The stops that R36 and R135 order, beside those of the raw stimuli and the frame triple, which stand at their own
statements: a CHECK and a handler that read an index without a value, `ST.ISR_RX` and `ENV.TX_DONE` on a data register
without one. -/
def Obligations.ReadingWhatHoldsNoValueFaults : Prop :=
  (∀ (s : State) (op : MlOp), s.sys.ml = .busy op .check →
    (s.ring op.channel).startIx = none ∨ (s.ring op.channel).endIx = none →
    mainlineStep s = .fault .uninitialised) ∧
  (∀ s : State, s.st.configured = true → s.sys.ie = true → s.st.txdEmpty = true →
    s.serTx.startIx = none ∨ s.serTx.endIx = none → exec .stIsrTx s = .fault .uninitialised) ∧
  (∀ s : State, s.st.configured = true → s.sys.ie = true → s.st.rxdFull = true →
    s.serRx.startIx = none ∨ s.serRx.endIx = none ∨ s.st.rxd = none → exec .stIsrRx s = .fault .uninitialised) ∧
  (∀ s : State, s.st.configured = true → s.st.txdEmpty = false → s.st.txd = none →
    exec .envTxDone s = .fault .uninitialised)
end

