-- ==== Sys2Proof/Laws/Memory.lean ====
section
/-! SUPPORT. The laws of a storage array: read after write, the canonical form, and what `memRead` and `memWrite` can
answer. -/

namespace Sys2Proof.Machine

theorem memory_read_write_same (m : Memory) (a : Nat) (v : Byte) : (m.write a v).read a = some v := by
  induction m with
  | nil => simp [Memory.write, Memory.read]
  | cons c m ih =>
    obtain ⟨b, w⟩ := c
    by_cases h1 : a < b
    · simp [Memory.write, Memory.read, h1]
    · by_cases h2 : a = b
      · simp [Memory.write, Memory.read, h2]
      · have h3 : b ≠ a := fun h => h2 h.symm
        simp [Memory.write, Memory.read, h1, h2, h3, ih]

theorem memory_read_write_other (m : Memory) {a i : Nat} (v : Byte) (h : i ≠ a) : (m.write a v).read i = m.read i := by
  have h' : a ≠ i := fun e => h e.symm
  induction m with
  | nil => simp [Memory.write, Memory.read, h']
  | cons c m ih =>
    obtain ⟨b, w⟩ := c
    by_cases h1 : a < b
    · simp [Memory.write, Memory.read, h1, h']
    · by_cases h2 : a = b
      · subst h2
        simp [Memory.write, Memory.read, h']
      · simp [Memory.write, Memory.read, h1, h2, ih]

/-- Every slot listed after a write was listed before or is the one written. -/
theorem memory_mem_write {m : Memory} {a : Nat} {v : Byte} {c : Host.Cell} (h : c ∈ m.write a v) : c ∈ m ∨ c = (a, v) := by
  induction m with
  | nil => simpa [Memory.write] using h
  | cons d m ih =>
    obtain ⟨b, w⟩ := d
    by_cases h1 : a < b
    · simp only [Memory.write, h1, if_true, List.mem_cons] at h
      rcases h with h | h | h
      · exact .inr h
      · exact .inl (by simp [h])
      · exact .inl (by simp [h])
    · by_cases h2 : a = b
      · simp only [Memory.write, h2, lt_irrefl, if_false, if_true, List.mem_cons] at h
        rcases h with h | h
        · exact .inr (by simp [h, h2])
        · exact .inl (by simp [h])
      · simp only [Memory.write, h1, h2, if_false, List.mem_cons] at h
        rcases h with h | h
        · exact .inl (by simp [h])
        · rcases ih h with h | h
          · exact .inl (by simp [h])
          · exact .inr h

/-- A write keeps the canonical form. -/
theorem memory_wf_write {m : Memory} (a : Nat) (v : Byte) (h : m.wf) : (m.write a v).wf := by
  induction m with
  | nil => simp [Memory.write, Memory.wf]
  | cons c m ih =>
    obtain ⟨b, w⟩ := c
    have hp := List.pairwise_cons.mp h
    by_cases h1 : a < b
    · simp only [Memory.write, h1, if_true, Memory.wf]
      refine List.pairwise_cons.mpr ⟨fun c hc => ?_, h⟩
      rcases List.mem_cons.mp hc with rfl | hc
      · exact h1
      · exact Nat.lt_trans h1 (hp.1 c hc)
    · by_cases h2 : a = b
      · subst h2
        simp only [Memory.write, lt_irrefl, if_false, if_true, Memory.wf]
        exact List.pairwise_cons.mpr ⟨hp.1, hp.2⟩
      · simp only [Memory.write, h1, h2, if_false, Memory.wf]
        refine List.pairwise_cons.mpr ⟨fun c hc => ?_, ih hp.2⟩
        rcases memory_mem_write hc with hc | rfl
        · exact hp.1 c hc
        · show b < a
          omega

/-- The empty array, which reset leaves, is in canonical form. -/
theorem memory_wf_reset : Memory.wf Ring.reset.mem := List.Pairwise.nil

/-- All that `memRead` can answer with a value. -/
theorem memRead_ok {n i : Nat} {m : Memory} {v : Byte} (h : memRead n m i = .ok v) : i < n ∧ m.read i = some v := by
  unfold memRead at h
  split at h
  · split at h
    · exact ⟨by assumption, by simp_all⟩
    · cases h
  · cases h

/-- All that `memWrite` can answer with an array. -/
theorem memWrite_ok {n i : Nat} {m m' : Memory} {v : Byte} (h : memWrite n m i v = .ok m') : i < n ∧ m' = m.write i v := by
  unfold memWrite at h
  split at h
  · exact ⟨by assumption, by simpa using h.symm⟩
  · cases h

/-- `memWrite` keeps the canonical form. -/
theorem memWrite_wf {n i : Nat} {m m' : Memory} {v : Byte} (hm : m.wf) (h : memWrite n m i v = .ok m') : m'.wf := by
  obtain ⟨-, rfl⟩ := memWrite_ok h
  exact memory_wf_write i v hm

end Sys2Proof.Machine
end

