-- ==== Sys2Proof/Laws/Ring.lean ====
section
/-! SUPPORT. What the ring buffer functions can do, said once each. -/

namespace Sys2Proof.Machine

theorem indices_ok {r : Ring} {p : Byte × Byte} (h : r.indices = .ok p) : r.startIx = some p.1 ∧ r.endIx = some p.2 := by
  unfold Ring.indices at h
  split at h
  · cases h; exact ⟨by assumption, by assumption⟩
  · cases h

theorem indices_eq {r : Ring} {a b : Byte} (ha : r.startIx = some a) (hb : r.endIx = some b) : r.indices = .ok (a, b) := by
  simp [Ring.indices, ha, hb]

theorem indices_error {r : Ring} {e : Fault} (h : r.indices = .error e) :
    e = .uninitialised ∧ (r.startIx = none ∨ r.endIx = none) := by
  unfold Ring.indices at h
  split at h
  · cases h
  · rename_i hn
    cases h
    refine ⟨rfl, ?_⟩
    cases ha : r.startIx with
    | none => exact .inl rfl
    | some a =>
      cases hb : r.endIx with
      | none => exact .inr rfl
      | some b => exact absurd hb (hn a b ha)

/-- The successor of an index is a legal index, as a number (20_memory.md R41). -/
theorem nextIx_toNat {n : Nat} (h0 : 0 < n) (h : n ≤ 256) (i : Byte) : (nextIx n i).toNat = (i.toNat + 1) % n := by
  have := Nat.mod_lt (i.toNat + 1) h0
  simp only [nextIx, BitVec.toNat_ofNat]
  exact Nat.mod_eq_of_lt (by omega)

theorem nextIx_lt {n : Nat} (h0 : 0 < n) (h : n ≤ 256) (i : Byte) : (nextIx n i).toNat < n := by
  rw [nextIx_toNat h0 h]; exact Nat.mod_lt _ h0

/-- All that `rb_is_empty` can answer with a value. -/
theorem isEmpty_ok {r : Ring} {e : Bool} (h : r.isEmpty = .ok e) :
    ∃ a b, r.startIx = some a ∧ r.endIx = some b ∧ e = decide (a = b) := by
  unfold Ring.isEmpty at h
  split at h
  · cases h
  · rename_i a b hi
    obtain ⟨ha, hb⟩ := indices_ok hi
    exact ⟨a, b, ha, hb, by simpa [isEmptyIx] using h.symm⟩

/-- All that `rb_is_full` can answer with a value. -/
theorem isFull_ok {n : Nat} {r : Ring} {e : Bool} (h : r.isFull n = .ok e) :
    ∃ a b, r.startIx = some a ∧ r.endIx = some b ∧ e = decide (nextIx n b = a) := by
  unfold Ring.isFull at h
  split at h
  · cases h
  · rename_i a b hi
    obtain ⟨ha, hb⟩ := indices_ok hi
    exact ⟨a, b, ha, hb, by simpa [isFullIx] using h.symm⟩

/-- All that `rb_push` can do when it answers: it stored the element, or the buffer was full and is as it was. -/
theorem push_ok {n : Nat} {r r' : Ring} {v : Byte} {ok : Bool} (h : r.push n v = .ok (r', ok)) :
    ∃ a b, r.startIx = some a ∧ r.endIx = some b ∧
      ((ok = true ∧ nextIx n b ≠ a ∧ b.toNat < n ∧
          r' = { r with mem := r.mem.write b.toNat v, endIx := some (nextIx n b) }) ∨
        (ok = false ∧ nextIx n b = a ∧ r' = r)) := by
  unfold Ring.push at h
  split at h
  · cases h
  · rename_i a b hi
    obtain ⟨ha, hb⟩ := indices_ok hi
    refine ⟨a, b, ha, hb, ?_⟩
    split at h
    · rename_i hne
      split at h
      · cases h
      · rename_i m hm
        obtain ⟨hlt, rfl⟩ := memWrite_ok hm
        cases h
        exact .inl ⟨rfl, hne, hlt, rfl⟩
    · rename_i he
      cases h
      exact .inr ⟨rfl, by simpa using he, rfl⟩

/-- All that `rb_pop` can do when it answers. -/
theorem pop_ok {n : Nat} {r r' : Ring} {v : Byte} (h : r.pop n = .ok (r', v)) :
    ∃ a b, r.startIx = some a ∧ r.endIx = some b ∧ a ≠ b ∧ a.toNat < n ∧ r.mem.read a.toNat = some v ∧
      r' = { r with startIx := some (nextIx n a) } := by
  unfold Ring.pop at h
  split at h
  · cases h
  · rename_i a b hi
    obtain ⟨ha, hb⟩ := indices_ok hi
    split at h
    · cases h
    · rename_i hne
      split at h
      · cases h
      · rename_i w hm
        obtain ⟨hlt, hr⟩ := memRead_ok hm
        cases h
        exact ⟨a, b, ha, hb, hne, hlt, hr, rfl⟩

/-- `rb_push` keeps the array's canonical form. -/
theorem push_wf {n : Nat} {r r' : Ring} {v : Byte} {ok : Bool} (hw : r.mem.wf) (h : r.push n v = .ok (r', ok)) :
    r'.mem.wf := by
  obtain ⟨a, b, -, -, ⟨-, -, -, rfl⟩ | ⟨-, -, rfl⟩⟩ := push_ok h
  · exact memory_wf_write _ _ hw
  · exact hw

/-- `rb_pop` leaves the array as it is, canonical form included. -/
theorem pop_mem {n : Nat} {r r' : Ring} {v : Byte} (h : r.pop n = .ok (r', v)) : r'.mem = r.mem := by
  obtain ⟨a, b, -, -, -, -, -, rfl⟩ := pop_ok h
  rfl

@[simp] theorem clear_startIx (r : Ring) : r.clear.startIx = some 0 := rfl
@[simp] theorem clear_endIx (r : Ring) : r.clear.endIx = some 0 := rfl
@[simp] theorem clear_mem (r : Ring) : r.clear.mem = r.mem := rfl

end Sys2Proof.Machine
end

