-- ==== Sys2Proof/Laws/Content.lean ====
section
/-! SUPPORT. The arithmetic of the two indices and the content of an instance under a push and a pop (10_state.md R14,
40_ringbuffer_ops.md R96). -/

namespace Sys2Proof.Machine

variable {n : Nat} {a b : Byte}

theorem countIx_of_le (hb : b.toNat < n) (h : a.toNat ≤ b.toNat) : countIx n a b = b.toNat - a.toNat := by
  unfold countIx
  rw [Int.emod_eq_of_lt (by omega) (by omega)]
  omega

theorem countIx_of_gt (ha : a.toNat < n) (h : b.toNat < a.toNat) : countIx n a b = b.toNat + n - a.toNat := by
  unfold countIx
  rw [show ((b.toNat : Int) - a.toNat) % n = ((b.toNat : Int) - a.toNat + n) % n by simp,
    Int.emod_eq_of_lt (by omega) (by omega)]
  omega

theorem succ_mod_eq {x : Nat} (h : x < n) : (x + 1) % n = if x + 1 = n then 0 else x + 1 := by
  split
  · rename_i he; rw [he, Nat.mod_self]
  · exact Nat.mod_eq_of_lt (by omega)

theorem countIx_lt (ha : a.toNat < n) (hb : b.toNat < n) : countIx n a b < n := by
  rcases Nat.lt_or_ge b.toNat a.toNat with h | h
  · rw [countIx_of_gt ha h]; omega
  · rw [countIx_of_le hb h]; omega

theorem countIx_eq_zero (ha : a.toNat < n) (hb : b.toNat < n) : countIx n a b = 0 ↔ a = b := by
  rw [← BitVec.toNat_inj]
  rcases Nat.lt_or_ge b.toNat a.toNat with h | h
  · rw [countIx_of_gt ha h]; omega
  · rw [countIx_of_le hb h]; omega

/-- The comparison of bytes that `rb_is_full` makes is the comparison of numbers (20_memory.md R41). -/
theorem nextIx_eq_iff (h0 : 0 < n) (hn : n ≤ 256) : nextIx n b = a ↔ (b.toNat + 1) % n = a.toNat := by
  rw [← BitVec.toNat_inj, nextIx_toNat h0 hn]

theorem succ_mod_eq_iff (ha : a.toNat < n) (hb : b.toNat < n) : (b.toNat + 1) % n = a.toNat ↔ countIx n a b = n - 1 := by
  rw [succ_mod_eq hb]
  rcases Nat.lt_or_ge b.toNat a.toNat with h | h
  · rw [countIx_of_gt ha h]; split <;> omega
  · rw [countIx_of_le hb h]; split <;> omega

theorem content_eq {r : Ring} (h1 : r.startIx = some a) (h2 : r.endIx = some b) :
    r.content n = (List.range (countIx n a b)).map (fun k => r.mem.read ((a.toNat + k) % n)) := by
  simp [Ring.content, h1, h2]

theorem content_length {r : Ring} (h1 : r.startIx = some a) (h2 : r.endIx = some b) :
    (r.content n).length = countIx n a b := by
  simp [content_eq h1 h2]

/-- The slot behind the content is slot `end`. -/
theorem slot_at_count (ha : a.toNat < n) (hb : b.toNat < n) : (a.toNat + countIx n a b) % n = b.toNat := by
  rcases Nat.lt_or_ge b.toNat a.toNat with h | h
  · rw [countIx_of_gt ha h, show a.toNat + (b.toNat + n - a.toNat) = b.toNat + n by omega, Nat.add_mod_right,
      Nat.mod_eq_of_lt hb]
  · rw [countIx_of_le hb h, show a.toNat + (b.toNat - a.toNat) = b.toNat by omega, Nat.mod_eq_of_lt hb]

/-- No slot of the content is slot `end`. -/
theorem slot_ne_end {k : Nat} (ha : a.toNat < n) (hb : b.toNat < n) (h : k < countIx n a b) :
    (a.toNat + k) % n ≠ b.toNat := by
  have hc := countIx_lt ha hb
  rcases Nat.lt_or_ge (a.toNat + k) n with h3 | h3
  · rw [Nat.mod_eq_of_lt h3]
    rcases Nat.lt_or_ge b.toNat a.toNat with h1 | h1
    · omega
    · rw [countIx_of_le hb h1] at h; omega
  · rw [Nat.mod_eq_sub_mod h3, Nat.mod_eq_of_lt (by omega)]
    rcases Nat.lt_or_ge b.toNat a.toNat with h1 | h1
    · rw [countIx_of_gt ha h1] at h; omega
    · rw [countIx_of_le hb h1] at h; omega

end Sys2Proof.Machine
end

