-- ==== Sys2Proof/Laws/State.lean ====
section
/-! SUPPORT. One lemma per field per named update of the state, so that no proof unfolds a record update. -/

namespace Sys2Proof.Machine

variable (s : State)

/-! ### `State.setRing` and `State.ring` -/

@[simp] theorem ring_serRx : s.ring .serRx = s.serRx := rfl
@[simp] theorem ring_serTx : s.ring .serTx = s.serTx := rfl
@[simp] theorem ring_linkRx : s.ring .linkRx = s.linkRx := rfl
@[simp] theorem ring_setRing_same (f : Inst) (r : Ring) : (s.setRing f r).ring f = r := by cases f <;> rfl
theorem ring_setRing_other {f g : Inst} (h : g ≠ f) (r : Ring) : (s.setRing f r).ring g = s.ring g := by
  cases f <;> cases g <;> first | rfl | exact absurd rfl h
@[simp] theorem setRing_ring_self (f : Inst) : s.setRing f (s.ring f) = s := by cases f <;> rfl
@[simp] theorem setRing_st (f : Inst) (r : Ring) : (s.setRing f r).st = s.st := by cases f <;> rfl
@[simp] theorem setRing_cl (f : Inst) (r : Ring) : (s.setRing f r).cl = s.cl := by cases f <;> rfl
@[simp] theorem setRing_sys (f : Inst) (r : Ring) : (s.setRing f r).sys = s.sys := by cases f <;> rfl
@[simp] theorem setRing_obs (f : Inst) (r : Ring) : (s.setRing f r).obs = s.obs := by cases f <;> rfl
@[simp] theorem setRing_cfg (f : Inst) (r : Ring) : (s.setRing f r).cfg = s.cfg := by cases f <;> rfl
@[simp] theorem setRing_stream (f : Inst) (r : Ring) : (s.setRing f r).stream = s.stream := by cases f <;> rfl
@[simp] theorem setRing_turns (f : Inst) (r : Ring) : (s.setRing f r).turns = s.turns := by cases f <;> rfl
@[simp] theorem setRing_cap (f g : Inst) (r : Ring) : (s.setRing f r).cap g = s.cap g := by cases f <;> rfl
@[simp] theorem setRing_serRx_serRx (r : Ring) : (s.setRing .serRx r).serRx = r := rfl
@[simp] theorem setRing_serRx_serTx (r : Ring) : (s.setRing .serRx r).serTx = s.serTx := rfl
@[simp] theorem setRing_serRx_linkRx (r : Ring) : (s.setRing .serRx r).linkRx = s.linkRx := rfl
@[simp] theorem setRing_serTx_serRx (r : Ring) : (s.setRing .serTx r).serRx = s.serRx := rfl
@[simp] theorem setRing_serTx_serTx (r : Ring) : (s.setRing .serTx r).serTx = r := rfl
@[simp] theorem setRing_serTx_linkRx (r : Ring) : (s.setRing .serTx r).linkRx = s.linkRx := rfl
@[simp] theorem setRing_linkRx_serRx (r : Ring) : (s.setRing .linkRx r).serRx = s.serRx := rfl
@[simp] theorem setRing_linkRx_serTx (r : Ring) : (s.setRing .linkRx r).serTx = s.serTx := rfl
@[simp] theorem setRing_linkRx_linkRx (r : Ring) : (s.setRing .linkRx r).linkRx = r := rfl

/-! ### `State.log` -/

@[simp] theorem log_serRx (v : Logged) : (s.log v).serRx = s.serRx := rfl
@[simp] theorem log_serTx (v : Logged) : (s.log v).serTx = s.serTx := rfl
@[simp] theorem log_linkRx (v : Logged) : (s.log v).linkRx = s.linkRx := rfl
@[simp] theorem log_st (v : Logged) : (s.log v).st = s.st := rfl
@[simp] theorem log_cl (v : Logged) : (s.log v).cl = s.cl := rfl
@[simp] theorem log_sys (v : Logged) : (s.log v).sys = s.sys := rfl
@[simp] theorem log_cfg (v : Logged) : (s.log v).cfg = s.cfg := rfl
@[simp] theorem log_stream (v : Logged) : (s.log v).stream = s.stream := rfl
@[simp] theorem log_turns (v : Logged) : (s.log v).turns = s.turns := rfl
@[simp] theorem log_ring (v : Logged) (f : Inst) : (s.log v).ring f = s.ring f := by cases f <;> rfl
@[simp] theorem log_cap (v : Logged) (f : Inst) : (s.log v).cap f = s.cap f := rfl
@[simp] theorem log_results (v : Logged) : (s.log v).obs.results = s.obs.results ++ [v] := rfl
@[simp] theorem log_wireOut (v : Logged) : (s.log v).obs.wireOut = s.obs.wireOut := rfl

/-! ### `State.setMl` -/

@[simp] theorem setMl_serRx (m : Mainline) : (s.setMl m).serRx = s.serRx := rfl
@[simp] theorem setMl_serTx (m : Mainline) : (s.setMl m).serTx = s.serTx := rfl
@[simp] theorem setMl_linkRx (m : Mainline) : (s.setMl m).linkRx = s.linkRx := rfl
@[simp] theorem setMl_st (m : Mainline) : (s.setMl m).st = s.st := rfl
@[simp] theorem setMl_cl (m : Mainline) : (s.setMl m).cl = s.cl := rfl
@[simp] theorem setMl_obs (m : Mainline) : (s.setMl m).obs = s.obs := rfl
@[simp] theorem setMl_cfg (m : Mainline) : (s.setMl m).cfg = s.cfg := rfl
@[simp] theorem setMl_stream (m : Mainline) : (s.setMl m).stream = s.stream := rfl
@[simp] theorem setMl_turns (m : Mainline) : (s.setMl m).turns = s.turns := rfl
@[simp] theorem setMl_ring (m : Mainline) (f : Inst) : (s.setMl m).ring f = s.ring f := by cases f <;> rfl
@[simp] theorem setMl_cap (m : Mainline) (f : Inst) : (s.setMl m).cap f = s.cap f := rfl
@[simp] theorem setMl_ml (m : Mainline) : (s.setMl m).sys.ml = m := rfl
@[simp] theorem setMl_ie (m : Mainline) : (s.setMl m).sys.ie = s.sys.ie := rfl
@[simp] theorem setMl_sleeping (m : Mainline) : (s.setMl m).sys.sleeping = s.sys.sleeping := rfl

/-! ### `State.begin` -/

@[simp] theorem begin_serRx (op : MlOp) : (s.begin op).serRx = s.serRx := rfl
@[simp] theorem begin_serTx (op : MlOp) : (s.begin op).serTx = s.serTx := rfl
@[simp] theorem begin_linkRx (op : MlOp) : (s.begin op).linkRx = s.linkRx := rfl
@[simp] theorem begin_st (op : MlOp) : (s.begin op).st = s.st := rfl
@[simp] theorem begin_cl (op : MlOp) : (s.begin op).cl = s.cl := rfl
@[simp] theorem begin_obs (op : MlOp) : (s.begin op).obs = s.obs := rfl
@[simp] theorem begin_cfg (op : MlOp) : (s.begin op).cfg = s.cfg := rfl
@[simp] theorem begin_stream (op : MlOp) : (s.begin op).stream = s.stream := rfl
@[simp] theorem begin_turns (op : MlOp) : (s.begin op).turns = s.turns := rfl
@[simp] theorem begin_ring (op : MlOp) (f : Inst) : (s.begin op).ring f = s.ring f := by cases f <;> rfl
@[simp] theorem begin_cap (op : MlOp) (f : Inst) : (s.begin op).cap f = s.cap f := rfl
@[simp] theorem begin_ml (op : MlOp) : (s.begin op).sys.ml = .busy op .check := rfl
@[simp] theorem begin_ie (op : MlOp) : (s.begin op).sys.ie = s.sys.ie := rfl
@[simp] theorem begin_sleeping (op : MlOp) : (s.begin op).sys.sleeping = s.sys.sleeping := rfl

/-! ### `enterCritical` -/

@[simp] theorem enterCritical_serRx : (enterCritical s).serRx = s.serRx := rfl
@[simp] theorem enterCritical_serTx : (enterCritical s).serTx = s.serTx := rfl
@[simp] theorem enterCritical_linkRx : (enterCritical s).linkRx = s.linkRx := rfl
@[simp] theorem enterCritical_st : (enterCritical s).st = s.st := rfl
@[simp] theorem enterCritical_cl : (enterCritical s).cl = s.cl := rfl
@[simp] theorem enterCritical_obs : (enterCritical s).obs = s.obs := rfl
@[simp] theorem enterCritical_cfg : (enterCritical s).cfg = s.cfg := rfl
@[simp] theorem enterCritical_stream : (enterCritical s).stream = s.stream := rfl
@[simp] theorem enterCritical_turns : (enterCritical s).turns = s.turns := rfl
@[simp] theorem enterCritical_ring (f : Inst) : (enterCritical s).ring f = s.ring f := by cases f <;> rfl
@[simp] theorem enterCritical_cap (f : Inst) : (enterCritical s).cap f = s.cap f := rfl
@[simp] theorem enterCritical_ie : (enterCritical s).sys.ie = false := rfl
@[simp] theorem enterCritical_ml : (enterCritical s).sys.ml = s.sys.ml := rfl
@[simp] theorem enterCritical_sleeping : (enterCritical s).sys.sleeping = s.sys.sleeping := rfl

/-! ### `leaveCritical` -/

@[simp] theorem leaveCritical_serRx : (leaveCritical s).serRx = s.serRx := rfl
@[simp] theorem leaveCritical_serTx : (leaveCritical s).serTx = s.serTx := rfl
@[simp] theorem leaveCritical_linkRx : (leaveCritical s).linkRx = s.linkRx := rfl
@[simp] theorem leaveCritical_st : (leaveCritical s).st = s.st := rfl
@[simp] theorem leaveCritical_cl : (leaveCritical s).cl = s.cl := rfl
@[simp] theorem leaveCritical_obs : (leaveCritical s).obs = s.obs := rfl
@[simp] theorem leaveCritical_cfg : (leaveCritical s).cfg = s.cfg := rfl
@[simp] theorem leaveCritical_stream : (leaveCritical s).stream = s.stream := rfl
@[simp] theorem leaveCritical_turns : (leaveCritical s).turns = s.turns := rfl
@[simp] theorem leaveCritical_ring (f : Inst) : (leaveCritical s).ring f = s.ring f := by cases f <;> rfl
@[simp] theorem leaveCritical_cap (f : Inst) : (leaveCritical s).cap f = s.cap f := rfl
@[simp] theorem leaveCritical_ie : (leaveCritical s).sys.ie = true := rfl
@[simp] theorem leaveCritical_ml : (leaveCritical s).sys.ml = s.sys.ml := rfl
@[simp] theorem leaveCritical_sleeping : (leaveCritical s).sys.sleeping = s.sys.sleeping := rfl

/-! ### `enterHandler` -/

@[simp] theorem enterHandler_serRx : (enterHandler s).serRx = s.serRx := rfl
@[simp] theorem enterHandler_serTx : (enterHandler s).serTx = s.serTx := rfl
@[simp] theorem enterHandler_linkRx : (enterHandler s).linkRx = s.linkRx := rfl
@[simp] theorem enterHandler_st : (enterHandler s).st = s.st := rfl
@[simp] theorem enterHandler_cl : (enterHandler s).cl = s.cl := rfl
@[simp] theorem enterHandler_obs : (enterHandler s).obs = s.obs := rfl
@[simp] theorem enterHandler_cfg : (enterHandler s).cfg = s.cfg := rfl
@[simp] theorem enterHandler_stream : (enterHandler s).stream = s.stream := rfl
@[simp] theorem enterHandler_turns : (enterHandler s).turns = s.turns := rfl
@[simp] theorem enterHandler_ring (f : Inst) : (enterHandler s).ring f = s.ring f := by cases f <;> rfl
@[simp] theorem enterHandler_cap (f : Inst) : (enterHandler s).cap f = s.cap f := rfl
@[simp] theorem enterHandler_ie : (enterHandler s).sys.ie = false := rfl
@[simp] theorem enterHandler_ml : (enterHandler s).sys.ml = s.sys.ml := rfl
@[simp] theorem enterHandler_sleeping : (enterHandler s).sys.sleeping = s.sys.sleeping := rfl

/-! ### `returnFromHandler` -/

@[simp] theorem returnFromHandler_serRx : (returnFromHandler s).serRx = s.serRx := rfl
@[simp] theorem returnFromHandler_serTx : (returnFromHandler s).serTx = s.serTx := rfl
@[simp] theorem returnFromHandler_linkRx : (returnFromHandler s).linkRx = s.linkRx := rfl
@[simp] theorem returnFromHandler_st : (returnFromHandler s).st = s.st := rfl
@[simp] theorem returnFromHandler_cl : (returnFromHandler s).cl = s.cl := rfl
@[simp] theorem returnFromHandler_obs : (returnFromHandler s).obs = s.obs := rfl
@[simp] theorem returnFromHandler_cfg : (returnFromHandler s).cfg = s.cfg := rfl
@[simp] theorem returnFromHandler_stream : (returnFromHandler s).stream = s.stream := rfl
@[simp] theorem returnFromHandler_turns : (returnFromHandler s).turns = s.turns := rfl
@[simp] theorem returnFromHandler_ring (f : Inst) : (returnFromHandler s).ring f = s.ring f := by cases f <;> rfl
@[simp] theorem returnFromHandler_cap (f : Inst) : (returnFromHandler s).cap f = s.cap f := rfl
@[simp] theorem returnFromHandler_ie : (returnFromHandler s).sys.ie = true := rfl
@[simp] theorem returnFromHandler_ml : (returnFromHandler s).sys.ml = s.sys.ml := rfl
@[simp] theorem returnFromHandler_sleeping : (returnFromHandler s).sys.sleeping = false := rfl

/-! ### `frameReset` -/

@[simp] theorem frameReset_serRx : (frameReset s).serRx = s.serRx := rfl
@[simp] theorem frameReset_serTx : (frameReset s).serTx = s.serTx := rfl
@[simp] theorem frameReset_linkRx : (frameReset s).linkRx = s.linkRx := rfl
@[simp] theorem frameReset_st : (frameReset s).st = s.st := rfl
@[simp] theorem frameReset_sys : (frameReset s).sys = s.sys := rfl
@[simp] theorem frameReset_obs : (frameReset s).obs = s.obs := rfl
@[simp] theorem frameReset_cfg : (frameReset s).cfg = s.cfg := rfl
@[simp] theorem frameReset_stream : (frameReset s).stream = s.stream := rfl
@[simp] theorem frameReset_turns : (frameReset s).turns = s.turns := rfl
@[simp] theorem frameReset_ring (f : Inst) : (frameReset s).ring f = s.ring f := by cases f <;> rfl
@[simp] theorem frameReset_cap (f : Inst) : (frameReset s).cap f = s.cap f := rfl
@[simp] theorem frameReset_bitCount : (frameReset s).cl.bitCount = some 0 := rfl
@[simp] theorem frameReset_bitBuffer : (frameReset s).cl.bitBuffer = some 0 := rfl
@[simp] theorem frameReset_parityAcc : (frameReset s).cl.parityAcc = some false := rfl
@[simp] theorem frameReset_clkPend : (frameReset s).cl.clkPend = s.cl.clkPend := rfl
@[simp] theorem frameReset_clkSamp : (frameReset s).cl.clkSamp = s.cl.clkSamp := rfl

/-! ### `finish` -/

@[simp] theorem finish_serRx (v : Logged) : (finish s v).serRx = s.serRx := rfl
@[simp] theorem finish_serTx (v : Logged) : (finish s v).serTx = s.serTx := rfl
@[simp] theorem finish_linkRx (v : Logged) : (finish s v).linkRx = s.linkRx := rfl
@[simp] theorem finish_st (v : Logged) : (finish s v).st = s.st := rfl
@[simp] theorem finish_cl (v : Logged) : (finish s v).cl = s.cl := rfl
@[simp] theorem finish_cfg (v : Logged) : (finish s v).cfg = s.cfg := rfl
@[simp] theorem finish_stream (v : Logged) : (finish s v).stream = s.stream := rfl
@[simp] theorem finish_turns (v : Logged) : (finish s v).turns = s.turns := rfl
@[simp] theorem finish_results (v : Logged) : (finish s v).obs.results = s.obs.results ++ [v] := rfl
@[simp] theorem finish_wireOut (v : Logged) : (finish s v).obs.wireOut = s.obs.wireOut := rfl
@[simp] theorem finish_ml (v : Logged) : (finish s v).sys.ml = .idle := rfl
@[simp] theorem finish_ie (v : Logged) : (finish s v).sys.ie = s.sys.ie := rfl
@[simp] theorem finish_sleeping (v : Logged) : (finish s v).sys.sleeping = s.sys.sleeping := rfl

/-! ### `State.takeTurn` -/

@[simp] theorem takeTurn_serRx : s.takeTurn.serRx = s.serRx := by unfold State.takeTurn; split <;> rfl
@[simp] theorem takeTurn_serTx : s.takeTurn.serTx = s.serTx := by unfold State.takeTurn; split <;> rfl
@[simp] theorem takeTurn_linkRx : s.takeTurn.linkRx = s.linkRx := by unfold State.takeTurn; split <;> rfl
@[simp] theorem takeTurn_st : s.takeTurn.st = s.st := by unfold State.takeTurn; split <;> rfl
@[simp] theorem takeTurn_cl : s.takeTurn.cl = s.cl := by unfold State.takeTurn; split <;> rfl
@[simp] theorem takeTurn_sys : s.takeTurn.sys = s.sys := by unfold State.takeTurn; split <;> rfl
@[simp] theorem takeTurn_obs : s.takeTurn.obs = s.obs := by unfold State.takeTurn; split <;> rfl
@[simp] theorem takeTurn_cfg : s.takeTurn.cfg = s.cfg := by unfold State.takeTurn; split <;> rfl
@[simp] theorem takeTurn_stream : s.takeTurn.stream = s.stream := by unfold State.takeTurn; split <;> rfl
@[simp] theorem takeTurn_ring (f : Inst) : s.takeTurn.ring f = s.ring f := by unfold State.takeTurn; split <;> cases f <;> rfl
@[simp] theorem takeTurn_cap (f : Inst) : s.takeTurn.cap f = s.cap f := by unfold State.takeTurn; split <;> rfl
theorem takeTurn_turns : s.takeTurn.turns = if s.canMove then s.turns.tail else s.turns := by unfold State.takeTurn; split <;> rfl

/-! ### `State.resetWith` -/

@[simp] theorem resetWith_serRx (p : Params) (bs : List Byte) (ts : List Turn) : (State.resetWith p bs ts).serRx = Ring.reset := rfl
@[simp] theorem resetWith_serTx (p : Params) (bs : List Byte) (ts : List Turn) : (State.resetWith p bs ts).serTx = Ring.reset := rfl
@[simp] theorem resetWith_linkRx (p : Params) (bs : List Byte) (ts : List Turn) : (State.resetWith p bs ts).linkRx = Ring.reset := rfl
@[simp] theorem resetWith_cfg (p : Params) (bs : List Byte) (ts : List Turn) : (State.resetWith p bs ts).cfg = p := rfl
@[simp] theorem resetWith_stream (p : Params) (bs : List Byte) (ts : List Turn) : (State.resetWith p bs ts).stream = bs := rfl
@[simp] theorem resetWith_turns (p : Params) (bs : List Byte) (ts : List Turn) : (State.resetWith p bs ts).turns = ts := rfl

end Sys2Proof.Machine
end

