-- ==== Sys2Proof/Laws/Gates.lean ====
section
/-! SUPPORT. What a gated stimulus, a dispatch, a fetch, a phase of mainline and a step can do, said once each. -/

namespace Sys2Proof.Machine

theorem require_next {c : Bool} {r : Refusal} {k : Out} {t : State} (h : require c r k = .next t) : c = true ∧ k = .next t := by
  unfold require at h
  split at h
  · exact ⟨by assumption, h⟩
  · cases h

theorem require_fault {c : Bool} {r : Refusal} {k : Out} {e : Fault} (h : require c r k = .fault e) :
    c = true ∧ k = .fault e := by
  unfold require at h
  split at h
  · exact ⟨by assumption, h⟩
  · cases h

@[simp] theorem require_true (r : Refusal) (k : Out) : require true r k = k := rfl
@[simp] theorem require_false (r : Refusal) (k : Out) : require false r k = .refused r := rfl

theorem ready_iff (s : State) : s.ready = true ↔ s.sys.ml = .idle ∧ s.sys.sleeping = false := by
  simp [State.ready]

theorem canMove_iff (s : State) : s.canMove = true ↔ s.sys.ml ≠ .idle ∧ s.sys.sleeping = false := by
  simp [State.canMove]

theorem asMainline_next {s t : State} {k : Out} (h : asMainline s k = .next t) : s.ready = true ∧ k = .next t :=
  require_next h

theorem asMainline_fault {s : State} {k : Out} {e : Fault} (h : asMainline s k = .fault e) :
    s.ready = true ∧ k = .fault e :=
  require_fault h

theorem asSerialBlocking_next {s t : State} {k : Out} (h : asSerialBlocking s k = .next t) :
    s.ready = true ∧ s.st.configured = true ∧ s.sys.ie = true ∧ k = .next t := by
  obtain ⟨h1, h⟩ := asMainline_next h
  obtain ⟨h2, h⟩ := require_next h
  obtain ⟨h3, h⟩ := require_next h
  exact ⟨h1, h2, h3, h⟩

theorem asSerialBlocking_fault {s : State} {k : Out} {e : Fault} (h : asSerialBlocking s k = .fault e) : k = .fault e :=
  (require_fault (require_fault (asMainline_fault h).2).2).2

theorem asLinkBlocking_next {s t : State} {k : Out} (h : asLinkBlocking s k = .next t) :
    s.ready = true ∧ s.sys.ie = true ∧ k = .next t := by
  obtain ⟨h1, h⟩ := asMainline_next h
  obtain ⟨h2, h⟩ := require_next h
  exact ⟨h1, h2, h⟩

theorem asLinkBlocking_fault {s : State} {k : Out} {e : Fault} (h : asLinkBlocking s k = .fault e) : k = .fault e :=
  (require_fault (asMainline_fault h).2).2

/-- All that a dispatch can do when it answers a next state (60_exceptions.md R156). -/
theorem dispatch_next {x : Source} {body : State → Except Fault State} {s t : State} (h : dispatch x body s = .next t) :
    s.sys.ie = true ∧ pending s x = true ∧ ∃ u, body (enterHandler s) = .ok u ∧ t = returnFromHandler u := by
  obtain ⟨-, h⟩ := require_next h
  obtain ⟨h2, h⟩ := require_next h
  obtain ⟨h3, h⟩ := require_next h
  refine ⟨h2, h3, ?_⟩
  split at h
  · cases h
  · rename_i u hu
    cases h
    exact ⟨u, hu, rfl⟩

/-- A dispatch faults only where the body does. -/
theorem dispatch_fault {x : Source} {body : State → Except Fault State} {s : State} {e : Fault}
    (h : dispatch x body s = .fault e) : s.sys.ie = true ∧ pending s x = true ∧ body (enterHandler s) = .error e := by
  obtain ⟨-, h⟩ := require_fault h
  obtain ⟨h2, h⟩ := require_fault h
  obtain ⟨h3, h⟩ := require_fault h
  refine ⟨h2, h3, ?_⟩
  split at h
  · rename_i e' he
    cases h
    exact he
  · cases h

/-- All that a fetch of a stimulus can be. -/
theorem fetch_stimulus {s t : State} {i : Instr} (h : fetch s = .stimulus i t) :
    ∃ rest, decode s.stream = .ok (i, rest) ∧ t = { s with stream := rest } := by
  unfold fetch at h
  split at h
  · cases h
  · rename_i op bytes hs
    split at h
    · cases h
    · rename_i i' rest hd
      cases h
      exact ⟨rest, by rw [hs]; exact hd, rfl⟩

/-- All that the stimulus half of a step can do when it answers a next state. -/
theorem stimulusStep_next {s t : State} (h : stimulusStep s = .next t) :
    (fetch s = .none ∧ t = s) ∨ ∃ i rest, decode s.stream = .ok (i, rest) ∧ exec i { s with stream := rest } = .next t := by
  unfold stimulusStep at h
  split at h
  · cases h
    exact .inl ⟨by assumption, rfl⟩
  · cases h
  · rename_i i u hf
    obtain ⟨rest, hd, rfl⟩ := fetch_stimulus hf
    exact .inr ⟨i, rest, hd, h⟩

/-- The stimulus half of a step faults only where the stimulus does. -/
theorem stimulusStep_fault {s : State} {e : Fault} (h : stimulusStep s = .fault e) :
    ∃ i rest, decode s.stream = .ok (i, rest) ∧ exec i { s with stream := rest } = .fault e := by
  unfold stimulusStep at h
  split at h
  · cases h
  · cases h
  · rename_i i u hf
    obtain ⟨rest, hd, rfl⟩ := fetch_stimulus hf
    exact ⟨i, rest, hd, h⟩

/-- All that a step can do when it answers a next state: a phase of mainline, nothing at the end of the stream, or the
stimulus at its front. -/
theorem step_next {s t : State} (h : step s = .next t) :
    s.cfg.capacityOk = true ∧
      ((s.mainlineMoves = true ∧ mainlineStep s.takeTurn = .next t) ∨
        (s.mainlineMoves = false ∧ s.stream = [] ∧ t = s.takeTurn) ∨
        (s.mainlineMoves = false ∧
          ∃ i rest, decode s.stream = .ok (i, rest) ∧ exec i { s.takeTurn with stream := rest } = .next t)) := by
  unfold step at h
  split at h
  · refine ⟨by assumption, ?_⟩
    split at h
    · exact .inl ⟨by assumption, h⟩
    · rename_i hm
      have hm : s.mainlineMoves = false := by simpa using hm
      rcases stimulusStep_next h with ⟨hf, rfl⟩ | ⟨i, rest, hd, he⟩
      · refine .inr (.inl ⟨hm, ?_, rfl⟩)
        unfold fetch at hf
        split at hf
        · rename_i hs; simpa using hs
        · split at hf <;> cases hf
      · exact .inr (.inr ⟨hm, i, rest, by simpa using hd, he⟩)
  · cases h

/-- The critical section of a sender, when it answers (20_memory.md R50). -/
theorem atomicPush_ok {f : Inst} {v : Byte} {s t : State} (h : atomicPush f v s = .ok t) :
    ∃ r ok, (s.ring f).push (s.cap f) v = .ok (r, ok) ∧ t = leaveCritical (s.setRing f r) := by
  unfold atomicPush at h
  split at h
  · cases h
  · rename_i r ok hp
    cases h
    refine ⟨r, ok, by simpa using hp, ?_⟩
    cases f <;> rfl

/-- The critical section of a receiver, when it answers (20_memory.md R50). -/
theorem atomicPop_ok {f : Inst} {c : Byte} {s t : State} (h : atomicPop f s = .ok (t, c)) :
    ∃ r, (s.ring f).pop (s.cap f) = .ok (r, c) ∧ t = leaveCritical (s.setRing f r) := by
  unfold atomicPop at h
  split at h
  · cases h
  · rename_i r v hp
    cases h
    refine ⟨r, by simpa using hp, ?_⟩
    cases f <;> rfl

/-- All that a wait condition can answer with a value: the negation of full for a sender, of empty for a receiver. -/
theorem cond_ok {op : MlOp} {s : State} {b : Bool} (h : op.cond s = .ok b) :
    ((op.sends s.cfg).isSome ∧ (s.ring op.channel).isFull (s.cap op.channel) = .ok (!b)) ∨
      (op.sends s.cfg = none ∧ (s.ring op.channel).isEmpty = .ok (!b)) := by
  unfold MlOp.cond at h
  cases hs : op.sends s.cfg with
  | some v =>
    simp only [hs] at h
    split at h
    · cases h
    · rename_i q hq
      cases h
      exact .inl ⟨rfl, by simpa using hq⟩
  | none =>
    simp only [hs] at h
    split at h
    · cases h
    · rename_i q hq
      cases h
      exact .inr ⟨rfl, by simpa using hq⟩

end Sys2Proof.Machine
end

