-- ==== Sys2Proof/Laws/Exec.lean ====
section
/-! SUPPORT. What each meaning and each phase of mainline did when it answered a next state, said once each. -/

namespace Sys2Proof.Machine

variable {s t : State}

/-! ### Raw ring buffer stimuli -/

theorem execRbClear_next {f : Inst} (h : execRbClear f s = .next t) :
    s.ready = true ∧ t = s.setRing f (s.ring f).clear := by
  obtain ⟨h1, h2⟩ := asMainline_next h
  cases h2
  exact ⟨h1, rfl⟩

theorem execRbIsEmpty_next {f : Inst} (h : execRbIsEmpty f s = .next t) :
    s.ready = true ∧ ∃ b, (s.ring f).isEmpty = .ok b ∧ t = s.log (.bool b) := by
  obtain ⟨h1, h2⟩ := asMainline_next h
  refine ⟨h1, ?_⟩
  split at h2
  · cases h2
  · cases h2; exact ⟨_, by assumption, rfl⟩

theorem execRbIsFull_next {f : Inst} (h : execRbIsFull f s = .next t) :
    s.ready = true ∧ ∃ b, (s.ring f).isFull (s.cap f) = .ok b ∧ t = s.log (.bool b) := by
  obtain ⟨h1, h2⟩ := asMainline_next h
  refine ⟨h1, ?_⟩
  split at h2
  · cases h2
  · cases h2; exact ⟨_, by assumption, rfl⟩

theorem execRbPush_next {f : Inst} {v : Byte} (h : execRbPush f v s = .next t) :
    s.ready = true ∧ ∃ r ok, (s.ring f).push (s.cap f) v = .ok (r, ok) ∧ t = (s.setRing f r).log (.bool ok) := by
  obtain ⟨h1, h2⟩ := asMainline_next h
  refine ⟨h1, ?_⟩
  split at h2
  · cases h2
  · cases h2; exact ⟨_, _, by assumption, rfl⟩

theorem execRbPop_next {f : Inst} (h : execRbPop f s = .next t) :
    s.ready = true ∧ ∃ r v, (s.ring f).pop (s.cap f) = .ok (r, v) ∧ t = (s.setRing f r).log (.byte v) := by
  obtain ⟨h1, h2⟩ := asMainline_next h
  refine ⟨h1, ?_⟩
  split at h2
  · cases h2
  · cases h2; exact ⟨_, _, by assumption, rfl⟩

/-! ### Serial transport -/

theorem execStConfigure_next {rate : Rate} {tol : Byte} (h : execStConfigure rate tol s = .next t) :
    s.ready = true ∧ ∃ d x, d < 2 ^ s.cfg.divBits ∧
      t = { s with st := { s.st with ubrr := some d, u2x := some x, configured := true } } := by
  unfold execStConfigure at h
  obtain ⟨h1, h⟩ := asMainline_next h
  obtain ⟨-, h⟩ := require_next h
  obtain ⟨-, h⟩ := require_next h
  obtain ⟨h2, h⟩ := require_next h
  cases h
  exact ⟨h1, _, _, of_decide_eq_true h2, rfl⟩

theorem execStSendByte_next {v : Byte} (h : execStSendByte v s = .next t) :
    s.ready = true ∧ s.st.configured = true ∧ s.sys.ie = true ∧ t = s.begin (.sendByte v false) := by
  obtain ⟨h1, h2, h3, h⟩ := asSerialBlocking_next h
  cases h
  exact ⟨h1, h2, h3, rfl⟩

theorem execStSendString_next {c : List Byte} (h : execStSendString c s = .next t) :
    s.ready = true ∧ s.st.configured = true ∧ s.sys.ie = true ∧
      ((c = [] ∧ t = s) ∨ ∃ x xs, c = x :: xs ∧ t = s.begin (.sendString x xs false)) := by
  obtain ⟨h1, h2, h3, h⟩ := asSerialBlocking_next h
  refine ⟨h1, h2, h3, ?_⟩
  split at h
  · cases h; exact .inl ⟨rfl, rfl⟩
  · cases h; exact .inr ⟨_, _, rfl, rfl⟩

theorem execStRecvByte_next (h : execStRecvByte s = .next t) :
    s.ready = true ∧ s.st.configured = true ∧ s.sys.ie = true ∧ t = s.begin .recvByte := by
  obtain ⟨h1, h2, h3, h⟩ := asSerialBlocking_next h
  cases h
  exact ⟨h1, h2, h3, rfl⟩

theorem execStRecvLine_next {m : Byte} (h : execStRecvLine m s = .next t) :
    s.ready = true ∧ s.st.configured = true ∧ s.sys.ie = true ∧
      ((m.toNat = 1 ∧ t = s.log (.line 0 [Config.strTerm])) ∨ (2 ≤ m.toNat ∧ t = s.begin (.recvLine m []))) := by
  obtain ⟨h1, h2, h3, h⟩ := asSerialBlocking_next h
  obtain ⟨h4, h⟩ := require_next h
  have h4 : m ≠ 0 := of_decide_eq_true h4
  have h5 : m.toNat ≠ 0 := fun h => h4 (BitVec.eq_of_toNat_eq (by simpa using h))
  refine ⟨h1, h2, h3, ?_⟩
  split at h
  · cases h; exact .inl ⟨by omega, rfl⟩
  · cases h; exact .inr ⟨by omega, rfl⟩

theorem execStIsrTx_next (h : execStIsrTx s = .next t) :
    s.sys.ie = true ∧ pending s .txi = true ∧
      ((s.serTx.isEmpty = .ok true ∧ t = returnFromHandler (enterHandler s)) ∨
        (s.serTx.isEmpty = .ok false ∧ ∃ r v, s.serTx.pop (s.cap .serTx) = .ok (r, v) ∧
          t = returnFromHandler
            { enterHandler s with serTx := r, st := { s.st with txd := some v, txdEmpty := false } })) := by
  obtain ⟨h1, h2, u, hu, rfl⟩ := dispatch_next h
  refine ⟨h1, h2, ?_⟩
  unfold isrTxBody at hu
  simp only [enterHandler_serTx, enterHandler_cap, enterHandler_st] at hu
  split at hu
  · cases hu
  · rename_i he
    cases hu
    exact .inl ⟨he, rfl⟩
  · rename_i he
    split at hu
    · cases hu
    · rename_i r v hp
      cases hu
      exact .inr ⟨he, r, v, hp, rfl⟩

theorem execStIsrRx_next (h : execStIsrRx s = .next t) :
    s.sys.ie = true ∧ pending s .rxi = true ∧ ∃ v r ok, s.st.rxd = some v ∧
      s.serRx.push (s.cap .serRx) v = .ok (r, ok) ∧
      t = returnFromHandler { enterHandler s with serRx := r, st := { s.st with rxdFull := false } } := by
  obtain ⟨h1, h2, u, hu, rfl⟩ := dispatch_next h
  refine ⟨h1, h2, ?_⟩
  unfold isrRxBody at hu
  simp only [enterHandler_serRx, enterHandler_cap, enterHandler_st] at hu
  split at hu
  · cases hu
  · rename_i v hv
    split at hu
    · cases hu
    · rename_i r ok hp
      cases hu
      exact ⟨v, r, ok, hv, hp, rfl⟩

/-! ### Clocked link decoder -/

/-- What one bit does to the decoder and to `LINK_RX`: every state of the frame machine that answers. -/
theorem frameStep_ok {b : Bool} (h : frameStep b s = .ok t) :
    (s.cl.bitCount = some 0 ∧ t = (if b then s else { s with cl := { s.cl with bitCount := some 1 } })) ∨
    (∃ c buf p, s.cl.bitCount = some c ∧ 1 ≤ c.toNat ∧ c.toNat ≤ 8 ∧ s.cl.bitBuffer = some buf ∧
      s.cl.parityAcc = some p ∧
      t = { s with cl := { s.cl with
              bitBuffer := some (buf ||| (bitByte b <<< (c.toNat - 1))),
              parityAcc := some (p ^^ b), bitCount := some (c + 1) } }) ∨
    (s.cl.bitCount = some 9 ∧ ∃ p, s.cl.parityAcc = some p ∧
      t = (if (!b) ≠ p then frameReset s else { s with cl := { s.cl with bitCount := some 10 } })) ∨
    (s.cl.bitCount = some 10 ∧ ∃ buf r ok, s.cl.bitBuffer = some buf ∧
      s.linkRx.push (s.cap .linkRx) buf = .ok (r, ok) ∧ t = frameReset { s with linkRx := r }) := by
  unfold frameStep at h
  split at h
  · cases h
  · rename_i c hc
    split at h
    · rename_i h0
      have : c = 0 := BitVec.eq_of_toNat_eq (by simpa using h0)
      subst this
      cases h
      exact .inl ⟨hc, rfl⟩
    · split at h
      · unfold stateData at h
        split at h
        · rename_i buf p hb hp
          cases h
          exact .inr (.inl ⟨c, buf, p, hc, by omega, by assumption, hb, hp, rfl⟩)
        · cases h
      · split at h
        · rename_i h9
          have : c = 9 := BitVec.eq_of_toNat_eq (by simpa using h9)
          subst this
          unfold stateParity at h
          split at h
          · rename_i p hp
            cases h
            exact .inr (.inr (.inl ⟨hc, p, hp, rfl⟩))
          · cases h
        · split at h
          · rename_i h10
            have : c = 10 := BitVec.eq_of_toNat_eq (by simpa using h10)
            subst this
            unfold stateStop at h
            split at h
            · rename_i buf hb
              split at h
              · cases h
              · rename_i r ok hp
                cases h
                exact .inr (.inr (.inr ⟨hc, buf, r, ok, hb, hp, rfl⟩))
            · cases h
          · cases h

theorem execClIsrEdge_next (h : execClIsrEdge s = .next t) :
    s.sys.ie = true ∧ s.cl.clkPend = true ∧ ∃ b u, s.cl.clkSamp = some b ∧
      frameStep b { enterHandler s with cl := { s.cl with clkPend := false } } = .ok u ∧ t = returnFromHandler u := by
  obtain ⟨h1, h2, u, hu, rfl⟩ := dispatch_next h
  refine ⟨h1, h2, ?_⟩
  unfold isrEdgeBody at hu
  simp only [enterHandler_cl] at hu
  split at hu
  · cases hu
  · rename_i b hb
    exact ⟨b, u, hb, hu, rfl⟩

theorem execClReadByte_next (h : execClReadByte s = .next t) :
    s.ready = true ∧ s.sys.ie = true ∧ t = s.begin .readByte := by
  obtain ⟨h1, h2, h⟩ := asLinkBlocking_next h
  cases h
  exact ⟨h1, h2, rfl⟩

theorem execClReadScancode_next (h : execClReadScancode s = .next t) :
    s.ready = true ∧ s.sys.ie = true ∧ t = s.begin (.readScancode none) := by
  obtain ⟨h1, h2, h⟩ := asLinkBlocking_next h
  cases h
  exact ⟨h1, h2, rfl⟩

/-! ### Platform and environment -/

theorem execSysReset_next (h : execSysReset s = .next t) : t = State.resetWith s.cfg s.stream s.turns := by
  cases h
  rfl

theorem execSysInit_next (h : execSysInit s = .next t) :
    s.ready = true ∧ s.sys.ie = false ∧
      t = frameReset { s with serRx := s.serRx.clear, serTx := s.serTx.clear, linkRx := s.linkRx.clear } := by
  obtain ⟨h1, h⟩ := asMainline_next h
  obtain ⟨h2, h⟩ := require_next h
  cases h
  exact ⟨h1, by simpa using h2, rfl⟩

theorem execSysIrqOn_next (h : execSysIrqOn s = .next t) :
    s.ready = true ∧ t = { s with sys := { s.sys with ie := true } } := by
  obtain ⟨h1, h⟩ := asMainline_next h
  cases h
  exact ⟨h1, rfl⟩

theorem execSysIrqOff_next (h : execSysIrqOff s = .next t) :
    s.ready = true ∧ t = { s with sys := { s.sys with ie := false } } := by
  obtain ⟨h1, h⟩ := asMainline_next h
  cases h
  exact ⟨h1, rfl⟩

theorem execSysWait_next (h : execSysWait s = .next t) :
    s.ready = true ∧ s.sys.ie = true ∧ t = { s with sys := { s.sys with sleeping := true } } := by
  obtain ⟨h1, h⟩ := asMainline_next h
  obtain ⟨h2, h⟩ := require_next h
  cases h
  exact ⟨h1, h2, rfl⟩

theorem execEnvRxArrive_next {v : Byte} (h : execEnvRxArrive v s = .next t) :
    s.st.configured = true ∧ ((s.st.rxdFull = true ∧ t = s) ∨
      (s.st.rxdFull = false ∧ t = { s with st := { s.st with rxd := some v, rxdFull := true } })) := by
  obtain ⟨h1, h⟩ := require_next h
  refine ⟨h1, ?_⟩
  split at h
  · cases h; exact .inl ⟨by assumption, rfl⟩
  · rename_i hf; cases h; exact .inr ⟨by simpa using hf, rfl⟩

theorem execEnvTxDone_next (h : execEnvTxDone s = .next t) :
    s.st.configured = true ∧ s.st.txdEmpty = false ∧ ∃ v, s.st.txd = some v ∧
      t = { s with st := { s.st with txdEmpty := true }, obs := { s.obs with wireOut := s.obs.wireOut ++ [v] } } := by
  obtain ⟨h1, h⟩ := require_next h
  obtain ⟨h2, h⟩ := require_next h
  refine ⟨h1, by simpa using h2, ?_⟩
  split at h
  · cases h
  · rename_i v hv; cases h; exact ⟨v, hv, rfl⟩

theorem execEnvClkFall_next {b : Bool} (h : execEnvClkFall b s = .next t) :
    t = { s with cl := { s.cl with clkSamp := some b, clkPend := true } } := by
  cases h
  rfl

/-! ### Phases of mainline -/

theorem checkStep_next {op : MlOp} (h : checkStep op s = .next t) :
    ∃ b, op.cond s = .ok b ∧
      t = (if b then s.setMl (.busy op .mutate)
        else if s.cfg.atomicCheckSleep then { s with sys := { s.sys with sleeping := true, ml := .busy op .check } }
        else s.setMl (.busy op .sleep)) := by
  unfold checkStep at h
  split at h
  · cases h
  · rename_i hc; cases h; exact ⟨true, hc, rfl⟩
  · rename_i hc
    refine ⟨false, hc, ?_⟩
    split at h <;> rename_i ha <;> cases h <;> simp [ha]

theorem mutateStep_next {op : MlOp} (h : mutateStep op s = .next t) :
    (∃ v r ok, op.sends s.cfg = some v ∧ (s.ring op.channel).push (s.cap op.channel) v = .ok (r, ok) ∧
      t = afterSend op (leaveCritical (s.setRing op.channel r))) ∨
    (op.sends s.cfg = none ∧ ∃ c r, (s.ring op.channel).pop (s.cap op.channel) = .ok (r, c) ∧
      t = afterReceive op c (leaveCritical (s.setRing op.channel r))) := by
  unfold mutateStep at h
  split at h
  · rename_i v hv
    split at h
    · cases h
    · rename_i u hu
      obtain ⟨r, ok, hp, rfl⟩ := atomicPush_ok hu
      cases h
      exact .inl ⟨v, r, ok, hv, hp, rfl⟩
  · rename_i hv
    split at h
    · cases h
    · rename_i u c hu
      obtain ⟨r, hp, rfl⟩ := atomicPop_ok hu
      cases h
      exact .inr ⟨hv, c, r, hp, rfl⟩

theorem mainlineStep_next (h : mainlineStep s = .next t) :
    (s.sys.ml = .idle ∧ t = s) ∨
    (∃ op, s.sys.ml = .busy op .check ∧ checkStep op s = .next t) ∨
    (∃ op, s.sys.ml = .busy op .sleep ∧
      t = { s with sys := { s.sys with sleeping := true, ml := .busy op .check } }) ∨
    (∃ op, s.sys.ml = .busy op .mutate ∧ mutateStep op s = .next t) := by
  unfold mainlineStep at h
  split at h
  · rename_i hm; cases h; exact .inl ⟨hm, rfl⟩
  · rename_i op hm; exact .inr (.inl ⟨op, hm, h⟩)
  · rename_i op hm; cases h; exact .inr (.inr (.inl ⟨op, hm, rfl⟩))
  · rename_i op hm; exact .inr (.inr (.inr ⟨op, hm, h⟩))

/-- A sender's bookkeeping after its push touches the mainline record alone. -/
theorem afterSend_eq (op : MlOp) (s : State) : ∃ m, afterSend op s = s.setMl m := by
  unfold afterSend
  split
  · split
    · exact ⟨_, rfl⟩
    · exact ⟨_, rfl⟩
  · split
    · exact ⟨_, rfl⟩
    · split
      · exact ⟨_, rfl⟩
      · exact ⟨_, rfl⟩
  all_goals exact ⟨s.sys.ml, rfl⟩

/-- A receiver's bookkeeping after its pop touches the mainline record and the result log alone. -/
theorem afterReceive_eq (op : MlOp) (c : Byte) (s : State) :
    ∃ m, afterReceive op c s = s.setMl m ∨ ∃ v, afterReceive op c s = (s.log v).setMl m := by
  unfold afterReceive
  split
  · exact ⟨_, .inr ⟨_, rfl⟩⟩
  · exact ⟨_, .inr ⟨_, rfl⟩⟩
  · unfold afterLineByte
    split
    · exact ⟨_, .inr ⟨_, rfl⟩⟩
    · split
      · exact ⟨_, .inl rfl⟩
      · exact ⟨_, .inr ⟨_, rfl⟩⟩
  · unfold afterScanByte
    split
    · exact ⟨_, .inl rfl⟩
    · exact ⟨_, .inr ⟨_, rfl⟩⟩
  all_goals exact ⟨s.sys.ml, .inl rfl⟩

end Sys2Proof.Machine
end

