-- ==== Sys2Proof/Laws/PerInstr.lean ====
section
/-! SUPPORT. The statements made once per stimulus: the number of bytes its format gives it (30_encoding.md R66). -/

namespace Sys2Proof.Laws.FormatLength

/-- The length of a stimulus by its format: Z 1, B 2, C 6, S the string's length and 2 (30_encoding.md R66, R68 to
R71). -/
def lengthOf : Instr → Nat
  | .rbPush _ _ | .stSendByte _ | .stRecvLine _ | .envRxArrive _ => 2
  | .stConfigure _ _ => 6
  | .stSendString c => c.length + 2
  | .rbClear _ | .rbIsEmpty _ | .rbIsFull _ | .rbPop _ | .stRecvByte | .stIsrTx | .stIsrRx
  | .clIsrEdge | .clReadByte | .clReadScancode
  | .sysReset | .sysInit | .sysIrqOn | .sysIrqOff | .sysWait | .envTxDone | .envClkFall _ => 1

/-- The encoder writes exactly the bytes of the format. -/
def Statement (i : Instr) : Prop := (encode i).length = lengthOf i

theorem rbClear (f : Inst) : Statement (.rbClear f) := rfl
theorem rbIsEmpty (f : Inst) : Statement (.rbIsEmpty f) := rfl
theorem rbIsFull (f : Inst) : Statement (.rbIsFull f) := rfl
theorem rbPush (f : Inst) (v : Byte) : Statement (.rbPush f v) := rfl
theorem rbPop (f : Inst) : Statement (.rbPop f) := rfl
theorem stConfigure (rate : Rate) (tol : Byte) : Statement (.stConfigure rate tol) := rfl
theorem stSendByte (v : Byte) : Statement (.stSendByte v) := rfl
theorem stSendString (c : List Byte) : Statement (.stSendString c) := by simp [Statement, encode, operandBytes, lengthOf]
theorem stRecvByte : Statement .stRecvByte := rfl
theorem stRecvLine (maxLen : Byte) : Statement (.stRecvLine maxLen) := rfl
theorem stIsrTx : Statement .stIsrTx := rfl
theorem stIsrRx : Statement .stIsrRx := rfl
theorem clIsrEdge : Statement .clIsrEdge := rfl
theorem clReadByte : Statement .clReadByte := rfl
theorem clReadScancode : Statement .clReadScancode := rfl
theorem sysReset : Statement .sysReset := rfl
theorem sysInit : Statement .sysInit := rfl
theorem sysIrqOn : Statement .sysIrqOn := rfl
theorem sysIrqOff : Statement .sysIrqOff := rfl
theorem sysWait : Statement .sysWait := rfl
theorem envRxArrive (v : Byte) : Statement (.envRxArrive v) := rfl
theorem envTxDone : Statement .envTxDone := rfl
theorem envClkFall (b : Bool) : Statement (.envClkFall b) := rfl

end Sys2Proof.Laws.FormatLength
end

