-- ==== Sys2Proof/Tests/Slice0.lean ====
section
/-! SUPPORT. Own tests: ill-formed terms refused, one word of the spec's encoding per constructor, one step per stimulus with
the values of the spec's examples, and a state for the hypotheses of every statement. -/

namespace Sys2Proof.Tests

open Sys2Proof.Machine Sys2Proof.Safety

/-! ### States to test on -/

/-- The parameters of the spec's examples, with four slots per instance (95_test_vectors.md, conventions). -/
def params : Params where
  capSerRx := 4
  capSerTx := 4
  capLinkRx := 4
  fClk := 16000000
  divBits := 12
  escapeSet := [0xE0, 0xF0]
  translation := [(0x1C, 0x61)]
  atomicCheckSleep := false
  crlfInSendByte := false

/-- A ring buffer with the given indices and slots. -/
def ringAt (a b : Byte) (m : Memory) : Ring := { startIx := some a, endIx := some b, mem := m }

/-- An initialised and configured block with interrupts on and mainline idle. -/
def base : State :=
  let r := State.resetWith params [] []
  { r with
    serRx := ringAt 0 0 [], serTx := ringAt 0 0 [], linkRx := ringAt 0 0 []
    st := { r.st with ubrr := some 103, u2x := some false, configured := true }
    cl := { r.cl with bitCount := some 0, bitBuffer := some 0, parityAcc := some false }
    sys := { r.sys with ie := true } }

/-- The same with the given instance in place of an empty one. -/
def withRing (f : Inst) (r : Ring) : State := base.setRing f r

/-- The same with mainline asleep. -/
def asleep : State := { base with sys := { base.sys with sleeping := true } }

/-- The same with interrupts off. -/
def masked : State := { base with sys := { base.sys with ie := false } }

/-- The same before `ST.CONFIGURE`. -/
def unconfigured : State := { base with st := (State.resetWith params [] []).st }

/-- Mainline inside an operation. -/
def inside (op : MlOp) (ph : Phase) (s : State) : State := s.setMl (.busy op ph)

/-- A latched edge in a frame state. -/
def atBit (c : BitVec 4) (buf : Byte) (p b : Bool) : State :=
  { base with cl :=
      { bitCount := some c, bitBuffer := some buf, parityAcc := some p, clkPend := true, clkSamp := some b } }

def nextOf : Out → Option State
  | .next s => some s
  | .fault _ => none
  | .refused _ => none

def faultOf : Out → Option Fault
  | .next _ => none
  | .fault e => some e
  | .refused _ => none

def refusalOf : Out → Option Refusal
  | .next _ => none
  | .fault _ => none
  | .refused r => some r

def decoded (bs : List Byte) : Option (Instr × List Byte) :=
  match decode bs with
  | .ok p => some p
  | .error _ => none

def decodeErr (bs : List Byte) : Option DecodeError :=
  match decode bs with
  | .ok _ => none
  | .error e => some e

/-! ### WellFormed: each check refuses an ill-formed term -/

theorem test_wf_string_with_terminator : (Instr.stSendString [0x61, 0x00, 0x62]).wf = false := by decide
theorem test_wf_string : (Instr.stSendString [0x6F, 0x6B, 0x0A]).wf = true := by decide
theorem test_wf_capacity_one : ({ params with capSerTx := 1 } : Params).capacityOk = false := by decide
theorem test_wf_capacity_256 : ({ params with capLinkRx := 256 } : Params).capacityOk = false := by decide
theorem test_wf_capacity_bounds : ({ params with capSerRx := 2, capSerTx := 255 } : Params).capacityOk = true := by decide
theorem test_wf_clock : ({ params with fClk := 0 } : Params).wf = false := by decide
theorem test_wf_divisor_bits : ({ params with divBits := 0 } : Params).wf = false := by decide
theorem test_wf_params : params.wf = true := by decide

/-! ### Decode: words written out from 30_encoding.md R65 to R71 -/

theorem test_decode_rbClear : decoded [0b00010000, 0xC0] = some (.rbClear .serTx, [0xC0]) := by decide
theorem test_decode_rbIsEmpty : decoded [0b00100001] = some (.rbIsEmpty .linkRx, []) := by decide
theorem test_decode_rbIsFull : decoded [0b00000010] = some (.rbIsFull .serRx, []) := by decide
theorem test_decode_rbPush : decoded [0b00100011, 0xA5] = some (.rbPush .linkRx 0xA5, []) := by decide
theorem test_decode_rbPop : decoded [0b00010100] = some (.rbPop .serTx, []) := by decide
theorem test_decode_stConfigure : decoded [0b01000000, 0x00, 0xC2, 0x01, 0x00, 0x02] = some (.stConfigure 115200 2, []) := by decide
theorem test_decode_stSendByte : decoded [0b01000001, 0x41] = some (.stSendByte 0x41, []) := by decide
theorem test_decode_stSendString : decoded [0b01000010, 0x6F, 0x0A, 0x00, 0xC4] = some (.stSendString [0x6F, 0x0A], [0xC4]) := by decide
theorem test_decode_stRecvByte : decoded [0b01000011] = some (.stRecvByte, []) := by decide
theorem test_decode_stRecvLine : decoded [0b01000100, 0x10] = some (.stRecvLine 16, []) := by decide
theorem test_decode_stIsrTx : decoded [0b01001000] = some (.stIsrTx, []) := by decide
theorem test_decode_stIsrRx : decoded [0b01001001] = some (.stIsrRx, []) := by decide
theorem test_decode_clIsrEdge : decoded [0b10000000] = some (.clIsrEdge, []) := by decide
theorem test_decode_clReadByte : decoded [0b10000010] = some (.clReadByte, []) := by decide
theorem test_decode_clReadScancode : decoded [0b10000011] = some (.clReadScancode, []) := by decide
theorem test_decode_sysReset : decoded [0b11000000] = some (.sysReset, []) := by decide
theorem test_decode_sysInit : decoded [0b11000001] = some (.sysInit, []) := by decide
theorem test_decode_sysIrqOn : decoded [0b11000010] = some (.sysIrqOn, []) := by decide
theorem test_decode_sysIrqOff : decoded [0b11000011] = some (.sysIrqOff, []) := by decide
theorem test_decode_sysWait : decoded [0b11000100] = some (.sysWait, []) := by decide
theorem test_decode_envRxArrive : decoded [0b11001000, 0x68] = some (.envRxArrive 0x68, []) := by decide
theorem test_decode_envTxDone : decoded [0b11001001] = some (.envTxDone, []) := by decide
theorem test_decode_envClkFall : decoded [0b11001010, 0b11001011] = some (.envClkFall false, [0xCB]) := by decide
theorem test_decode_envClkFall_high : decoded [0b11001011] = some (.envClkFall true, []) := by decide
theorem test_decode_badFsel : decodeErr [0x30] = some .badFsel ∧ decodeErr [0x35] = some .reservedCode := by decide
theorem test_decode_truncated : decodeErr [0x03] = some .truncatedStimulus ∧ decodeErr [0x42, 0x61] = some .truncatedStimulus := by decide

/-! ### One step per stimulus, values of the spec's examples -/

-- R90, example: start 2, end 1 of four slots
theorem test_rbClear : (nextOf (exec (.rbClear .serRx) (withRing .serRx (ringAt 2 1 [(0, 9), (2, 7), (3, 8)])))).map State.serRx
    = some (ringAt 0 0 [(0, 9), (2, 7), (3, 8)]) := by decide
-- R91, example
theorem test_rbIsEmpty : (nextOf (exec (.rbIsEmpty .serRx) base)).map (fun t => t.obs.results) = some [.bool true] := by decide
-- V-RB-8: C0 01, the index read after reset and before SYS.INIT
theorem test_rbIsEmpty_before_init : faultOf (step (State.resetWith params [0x01] [])) = some .uninitialised := by decide
-- R92, examples: start 2, end 1 full; start 0, end 2 not full
theorem test_rbIsFull : (nextOf (exec (.rbIsFull .serTx) (withRing .serTx (ringAt 2 1 [])))).map (fun t => t.obs.results)
    = some [.bool true] := by decide
theorem test_rbIsFull_one_free : (nextOf (exec (.rbIsFull .serTx) (withRing .serTx (ringAt 0 2 [])))).map (fun t => t.obs.results)
    = some [.bool false] := by decide
-- R93, example
theorem test_rbPush : (nextOf (exec (.rbPush .serRx 0x33) (withRing .serRx (ringAt 0 2 [(0, 1), (1, 2)])))).map State.serRx
    = some (ringAt 0 3 [(0, 1), (1, 2), (2, 0x33)]) := by decide
theorem test_rbPush_full : (nextOf (exec (.rbPush .serRx 0x44) (withRing .serRx (ringAt 0 3 [(0, 1), (1, 2), (2, 3)])))).map
    (fun t => (t.serRx, t.obs.results)) = some (ringAt 0 3 [(0, 1), (1, 2), (2, 3)], [.bool false]) := by decide
-- R94, example: the last slot wraps
theorem test_rbPop : (nextOf (exec (.rbPop .linkRx) (withRing .linkRx (ringAt 3 1 [(0, 5), (3, 0x77)])))).map
    (fun t => (t.linkRx.startIx, t.obs.results)) = some (some 0, [.byte 0x77]) := by decide
theorem test_rbPop_empty : faultOf (exec (.rbPop .serRx) base) = some .popEmpty := by decide
-- R100, examples
theorem test_stConfigure_16x : (nextOf (exec (.stConfigure 9600 2) unconfigured)).map (fun t => (t.st.ubrr, t.st.u2x))
    = some (some 103, some false) := by decide
theorem test_stConfigure_8x : (nextOf (exec (.stConfigure 57600 2) base)).map (fun t => (t.st.ubrr, t.st.u2x))
    = some (some 34, some true) := by decide
-- R103
theorem test_stSendByte : (nextOf (exec (.stSendByte 0x41) base)).map (fun t => t.sys.ml)
    = some (.busy (.sendByte 0x41 false) .check) := by decide
-- R105
theorem test_stSendString : (nextOf (exec (.stSendString [0x6F, 0x6B]) base)).map (fun t => t.sys.ml)
    = some (.busy (.sendString 0x6F [0x6B] false) .check) := by decide
theorem test_stSendString_empty : (nextOf (exec (.stSendString []) base)).map (fun t => t.sys.ml) = some .idle := by decide
-- R107
theorem test_stRecvByte_off : refusalOf (exec .stRecvByte masked) = some .interruptsOff := by decide
theorem test_stRecvByte_unconfigured : refusalOf (exec .stRecvByte unconfigured) = some .notConfigured := by decide
-- R109
theorem test_stRecvLine_zero : refusalOf (exec (.stRecvLine 0) base) = some .badMaxLen := by decide
theorem test_stRecvLine_one : (nextOf (exec (.stRecvLine 1) base)).map (fun t => t.obs.results) = some [.line 0 [0]] := by decide
-- R112, example
theorem test_stIsrTx : (nextOf (exec .stIsrTx (withRing .serTx (ringAt 0 2 [(0, 0x6F), (1, 0x6B)])))).map
    (fun t => (t.serTx.startIx, t.st.txd, t.st.txdEmpty)) = some (some 1, some 0x6F, false) := by decide
theorem test_stIsrTx_empty_wakes : (nextOf (exec .stIsrTx asleep)).map (fun t => (t.sys.sleeping, t.st.txdEmpty))
    = some (false, true) := by decide
-- R113, example
theorem test_stIsrRx : (nextOf (exec .stIsrRx { base with st := { base.st with rxd := some 0x68, rxdFull := true } })).map
    (fun t => (t.serRx, t.st.rxdFull)) = some (ringAt 0 1 [(0, 0x68)], false) := by decide
theorem test_stIsrRx_none : refusalOf (exec .stIsrRx base) = some .noEvent := by decide
-- R120, example; R123: three ones and a parity bit of 1 abort
theorem test_clIsrEdge : (nextOf (exec .clIsrEdge (atBit 0 0 false false))).map (fun t => (t.cl.bitCount, t.cl.clkPend))
    = some (some 1, false) := by decide
theorem test_clIsrEdge_parity : (nextOf (exec .clIsrEdge (atBit 9 0x1C true true))).map (fun t => (t.cl.bitCount, t.cl.bitBuffer))
    = some (some 0, some 0) := by decide
-- R125, R126: they do not need st.configured
theorem test_clReadByte : (nextOf (exec .clReadByte unconfigured)).map (fun t => t.sys.ml) = some (.busy .readByte .check) := by decide
theorem test_clReadScancode : (nextOf (exec .clReadScancode unconfigured)).map (fun t => t.sys.ml)
    = some (.busy (.readScancode none) .check) := by decide
-- R135 to R139
theorem test_sysReset : nextOf (exec .sysReset asleep) = some (State.resetWith params [] []) := by decide
theorem test_sysInit : (nextOf (exec .sysInit (State.resetWith params [] []))).map (fun t => (t.serTx, t.cl.bitCount))
    = some (ringAt 0 0 [], some 0) := by decide
theorem test_sysInit_on : refusalOf (exec .sysInit base) = some .interruptsOn := by decide
theorem test_sysIrqOn : (nextOf (exec .sysIrqOn masked)).map (fun t => t.sys.ie) = some true := by decide
theorem test_sysIrqOff : (nextOf (exec .sysIrqOff base)).map (fun t => t.sys.ie) = some false := by decide
theorem test_sysWait : (nextOf (exec .sysWait base)).map (fun t => t.sys.sleeping) = some true := by decide
theorem test_sysWait_off : refusalOf (exec .sysWait masked) = some .interruptsOff := by decide
-- R141, example and overrun
theorem test_envRxArrive : (nextOf (exec (.envRxArrive 0x68) base)).map (fun t => (t.st.rxd, t.st.rxdFull))
    = some (some 0x68, true) := by decide
theorem test_envRxArrive_lost : (nextOf (exec (.envRxArrive 0x69) { base with st := { base.st with rxd := some 0x68, rxdFull := true } })).map
    (fun t => t.st.rxd) = some (some 0x68) := by decide
-- R142, example
theorem test_envTxDone : (nextOf (exec .envTxDone { base with st := { base.st with txd := some 0x6F, txdEmpty := false } })).map
    (fun t => (t.obs.wireOut, t.st.txdEmpty)) = some ([0x6F], true) := by decide
-- R143, example
theorem test_envClkFall : (nextOf (exec (.envClkFall true) base)).map (fun t => (t.cl.clkSamp, t.cl.clkPend))
    = some (some true, true) := by decide
-- R160: the newline expansion, one critical section at a time (R105)
theorem test_mutate_newline : (nextOf (mainlineStep (inside (.sendString 0x0A [] false) .mutate base))).map
    (fun t => (t.serTx.mem, t.sys.ml)) = some ([(0, 0x0D)], .busy (.sendString 0x0A [] true) .check) := by decide
-- R126: an escape marker is followed by a second read
theorem test_mutate_escape : (nextOf (mainlineStep (inside (.readScancode none) .mutate (withRing .linkRx (ringAt 0 2 [(0, 0xF0), (1, 0x1C)]))))).map
    (fun t => t.sys.ml) = some (.busy (.readScancode (some 0xF0)) .check) := by decide
theorem test_mutate_translate : (nextOf (mainlineStep (inside (.readScancode (some 0xF0)) .mutate (withRing .linkRx (ringAt 1 2 [(1, 0x1C)]))))).map
    (fun t => (t.sys.ml, t.obs.results)) = some (.idle, [.byte 0x61]) := by decide

/-! ### Witnesses: states and operands that meet the hypotheses of each statement, every clause, ends of the ranges -/

/-- `base` with a stimulus in the stream. -/
def withStream (bs : List Byte) (s : State) : State := { s with stream := bs }

theorem wit_EncodeThenDecodeGivesTheStimulus :
    (Instr.stSendString [0x01, 0xFF]).wf = true ∧ (Instr.stConfigure 4294967295 255).wf = true := by decide

theorem wit_DecodedBytesAreTheEncoding :
    decode [0x44, 0xFF, 0xC4] = .ok (.stRecvLine 255, [0xC4]) ∧ decode [0x42, 0x00] = .ok (.stSendString [], []) :=
  ⟨rfl, rfl⟩

theorem wit_ReservedOpcodesAreRefused :
    (let s := withStream [0x05] base
     s.cfg.capacityOk = true ∧ s.mainlineMoves = false ∧ s.stream ≠ [] ∧ decodeErr s.stream = some .reservedCode) ∧
    (∀ b ∈ ([0x01, 0xFF] : List Byte), b ≠ 0) := by decide

theorem wit_TruncatedStimulusIsRefused :
    (Instr.stConfigure 9600 2).wf = true ∧ 0 < 1 ∧ 5 < (encode (.stConfigure 9600 2)).length ∧
    (Instr.stSendString [0x61]).wf = true ∧ 2 < (encode (.stSendString [0x61])).length ∧
    (Instr.rbPush .serRx 0).wf = true ∧ 1 < (encode (.rbPush .serRx 0)).length := by decide

theorem wit_CapacityIsFixedAndBounded :
    nextOf (step base) = some base ∧
    (let p : Params := { params with capSerRx := 1, capSerTx := 0, capLinkRx := 256 }
     let s : State := { base with cfg := p }
     s.cap .serRx < 2 ∧ s.cap .serTx < 2 ∧ 255 < s.cap .linkRx) ∧
    (let p : Params := { params with capSerRx := 2, capSerTx := 255 }
     let s : State := { base with cfg := p }
     (2 ≤ s.cap .serRx ∧ s.cap .serRx ≤ 255) ∧ (2 ≤ s.cap .serTx ∧ s.cap .serTx ≤ 255) ∧
     (2 ≤ s.cap .linkRx ∧ s.cap .linkRx ≤ 255)) := by decide

/-- Legal indices of a buffer, at `N` = 2 and `N` = 255: empty, full, and the last slot. -/
theorem wit_EmptyAndFullExcludeEachOther :
    (2 ≤ 2 ∧ 2 ≤ 255 ∧ (ringAt 1 0 []).startIx = some 1 ∧ (ringAt 1 0 []).endIx = some 0 ∧
      (1 : Byte).toNat < 2 ∧ (0 : Byte).toNat < 2) ∧
    (2 ≤ 255 ∧ 255 ≤ 255 ∧ (ringAt 254 254 []).startIx = some 254 ∧ (ringAt 254 254 []).endIx = some 254 ∧
      (254 : Byte).toNat < 255) := by decide

theorem wit_ClearEmptiesTheInstance : base.ready = true ∧ 2 ≤ base.cap .serRx ∧ asleep.ready = false := by decide

/-- An initialised instance, one without indices, a busy mainline. -/
theorem wit_IsEmptyLogsWhetherPushesAreMatched :
    base.ready = true ∧ indicesAre base .serRx 0 0 ∧ indicesAre (withRing .serRx (ringAt 0 3 [])) .serRx 0 3 ∧
    (withRing .linkRx Ring.reset).ready = true ∧ ((withRing .linkRx Ring.reset).ring .linkRx).startIx = none ∧
    asleep.ready = false := by decide

/-- A push, a failed push and two pops on two slots, from an empty buffer. -/
theorem wit_IsEmptyLogsWhetherPushesAreMatched_calls :
    runCalls 2 [.push 7, .push 8, .pop, .push 9] Ring.reset.clear =
      .ok { ring := ringAt 1 0 [(0, 7), (1, 9)], accepted := [7, 9], popped := [7] } := rfl

theorem wit_IsFullLogsWhetherOneSlotIsLeft :
    base.ready = true ∧ base.cfg.capOk .serTx = true ∧
    indicesAre (withRing .serTx (ringAt 0 3 [])) .serTx 0 3 ∧ (3 : Byte).toNat < base.cap .serTx ∧
    indicesAre (withRing .serTx (ringAt 3 1 [])) .serTx 3 1 ∧
    ((withRing .serTx Ring.reset).ring .serTx).endIx = none ∧ asleep.ready = false := by decide

/-- Room with `end` at the last slot, and no room. -/
theorem wit_PushStoresAtEndOrReportsFull :
    (let s := withRing .serRx (ringAt 1 3 [(1, 5), (2, 6)])
     s.ready = true ∧ indicesAre s .serRx 1 3 ∧ s.cfg.capOk .serRx = true ∧ (1 : Byte).toNat < s.cap .serRx ∧
     (3 : Byte).toNat < s.cap .serRx ∧ ((3 : Byte).toNat + 1) % s.cap .serRx ≠ (1 : Byte).toNat) ∧
    (let s := withRing .linkRx (ringAt 0 3 [(0, 4), (1, 5), (2, 6)])
     s.ready = true ∧ indicesAre s .linkRx 0 3 ∧ s.cfg.capOk .linkRx = true ∧ (3 : Byte).toNat < s.cap .linkRx ∧
     ((3 : Byte).toNat + 1) % s.cap .linkRx = (0 : Byte).toNat) ∧
    ((withRing .serTx Ring.reset).ready = true ∧ ((withRing .serTx Ring.reset).ring .serTx).startIx = none) ∧
    asleep.ready = false := by decide

/-- An element in the last slot, an empty instance, a slot without a value, an instance without indices. -/
theorem wit_PopTakesFromStartOrFaultsWhenEmpty :
    (let s := withRing .serRx (ringAt 3 1 [(0, 4), (3, 5)])
     s.ready = true ∧ indicesAre s .serRx 3 1 ∧ s.cfg.capOk .serRx = true ∧ (3 : Byte).toNat < s.cap .serRx ∧
     (1 : Byte).toNat < s.cap .serRx ∧ (3 : Byte) ≠ 1 ∧ (s.ring .serRx).mem.read (3 : Byte).toNat = some 5) ∧
    indicesAre base .serTx 0 0 ∧
    (let s := withRing .linkRx (ringAt 0 1 [])
     s.ready = true ∧ indicesAre s .linkRx 0 1 ∧ (0 : Byte).toNat < s.cap .linkRx ∧
     (s.ring .linkRx).mem.read (0 : Byte).toNat = none) ∧
    ((withRing .serTx Ring.reset).ready = true ∧ ((withRing .serTx Ring.reset).ring .serTx).startIx = none) ∧
    asleep.ready = false := by decide

theorem wit_ContentFollowsTheQueueLaw :
    (let r := ringAt 3 1 [(0, 8), (3, 7)]
     r.startIx = some 3 ∧ r.endIx = some 1 ∧ (3 : Byte).toNat < 4 ∧ (1 : Byte).toNat < 4 ∧ 0 < countIx 4 3 1 ∧
     r.content 4 = some 7 :: [some 8]) ∧
    ([1, 2, 3] : List Byte).length ≤ 4 - 1 := by decide

theorem wit_CapacityIsOneLessThanTheSlots :
    (let r := ringAt 0 254 []
     r.startIx = some 0 ∧ r.endIx = some 254 ∧ (0 : Byte).toNat < 255 ∧ (254 : Byte).toNat < 255) ∧
    (let r := ringAt 15 15 []
     r.startIx = some 15 ∧ r.endIx = some 15 ∧ (15 : Byte).toNat < 16 ∧ (List.replicate 15 (1 : Byte)).length = 15) := by
  decide

/-- A push that wraps, one that fails and two pops, on a buffer that holds elements. -/
theorem wit_InterleavedCallsKeepOrderAndElements :
    2 ≤ 3 ∧ 3 ≤ 255 ∧ (ringAt 2 0 [(2, 5)]).startIx = some 2 ∧ (ringAt 2 0 [(2, 5)]).endIx = some 0 ∧
    (2 : Byte).toNat < 3 ∧ (0 : Byte).toNat < 3 ∧
    runCalls 3 [.push 6, .push 7, .pop, .pop] (ringAt 2 0 [(2, 5)]) =
      .ok { ring := ringAt 1 1 [(0, 6), (2, 5)], accepted := [6], popped := [5, 6] } :=
  ⟨by decide, by decide, rfl, rfl, by decide, by decide, rfl⟩

/-- The numbers of `ST.CONFIGURE` at 16 MHz for 9600, 57600, 300 and 2000001 hertz, and the four cases. -/
theorem wit_ConfigureWritesDivisorAndMode :
    base.ready = true ∧ (9600 : Rate).toNat ≠ 0 ∧
    (104 = (2 * base.cfg.fClk + 16 * (9600 : Rate).toNat) / (32 * (9600 : Rate).toNat) ∧
      ¬ ((2 : Byte).toNat : Int) * (16 * (104 : Nat) * (9600 : Rate).toNat) <
        100 * |(base.cfg.fClk : Int) - 16 * (104 : Nat) * (9600 : Rate).toNat| ∧ 104 - 1 < 2 ^ base.cfg.divBits) ∧
    (17 = (2 * base.cfg.fClk + 16 * (57600 : Rate).toNat) / (32 * (57600 : Rate).toNat) ∧
      ((2 : Byte).toNat : Int) * (16 * (17 : Nat) * (57600 : Rate).toNat) <
        100 * |(base.cfg.fClk : Int) - 16 * (17 : Nat) * (57600 : Rate).toNat| ∧
      (2 * base.cfg.fClk + 8 * (57600 : Rate).toNat) / (16 * (57600 : Rate).toNat) - 1 < 2 ^ base.cfg.divBits) ∧
    asleep.ready = false ∧
    (2 * base.cfg.fClk + 16 * (2000001 : Rate).toNat) / (32 * (2000001 : Rate).toNat) = 0 ∧
    (10000 = (2 * base.cfg.fClk + 16 * (100 : Rate).toNat) / (32 * (100 : Rate).toNat) ∧
      ¬ ((2 : Byte).toNat : Int) * (16 * (10000 : Nat) * (100 : Rate).toNat) <
        100 * |(base.cfg.fClk : Int) - 16 * (10000 : Nat) * (100 : Rate).toNat| ∧
      2 ^ base.cfg.divBits ≤ 10000 - 1) := by decide

theorem wit_ConfigureRefusesWhatHasNoMeaning :
    base.ready = true ∧ (0 : Rate).toNat = 0 ∧ (2000000 : Rate).toNat ≠ 0 ∧ ¬ base.cfg.fClk < 8 * (2000000 : Rate).toNat ∧
    base.cfg.fClk < 8 * (2000001 : Rate).toNat ∧
    (10000 = (2 * base.cfg.fClk + 16 * (100 : Rate).toNat) / (32 * (100 : Rate).toNat) ∧
      ¬ ((2 : Byte).toNat : Int) * (16 * (10000 : Nat) * (100 : Rate).toNat) <
        100 * |(base.cfg.fClk : Int) - 16 * (10000 : Nat) * (100 : Rate).toNat| ∧
      2 ^ base.cfg.divBits ≤ 10000 - 1) := by decide

theorem wit_DivisorIsRoundedToNearest :
    0 < 16 ∧ 0 < 2000000 ∧ 1 = roundDiv 16000000 16 2000000 ∧ 1 ≤ roundDiv 16000000 16 2000000 := by decide

theorem wit_BlockingOperationsAreAccepted :
    base.ready = true ∧ base.sys.ie = true ∧ base.st.configured = true ∧ 2 ≤ (2 : Byte).toNat ∧ 2 ≤ (255 : Byte).toNat ∧
    unconfigured.ready = true ∧ unconfigured.sys.ie = true := by decide

theorem wit_BlockingOperationsAreRefusedInOrder :
    asleep.ready = false ∧ (unconfigured.ready = true ∧ unconfigured.st.configured = false) ∧
    (masked.ready = true ∧ masked.st.configured = true ∧ masked.sys.ie = false) := by decide

theorem wit_SendByteAppendsWhereThereIsRoom :
    let s := withStream [0x41, 0x0A, 0xC4] (withRing .serTx (ringAt 1 3 [(1, 5), (2, 6)]))
    s.cfg.capacityOk = true ∧ s.ready = true ∧ s.st.configured = true ∧ s.sys.ie = true ∧ s.turns = [] ∧
    s.stream = 0x41 :: 0x0A :: [0xC4] ∧ s.cfg.crlfInSendByte = false ∧ indicesAre s .serTx 1 3 ∧
    (1 : Byte).toNat < s.cap .serTx ∧ (3 : Byte).toNat < s.cap .serTx ∧
    ((3 : Byte).toNat + 1) % s.cap .serTx ≠ (1 : Byte).toNat := by decide

/-- A byte and a newline into the last three free slots, wrapping. -/
theorem wit_SendStringAppendsItsExpansion :
    let s := withStream (0x42 :: ([0x6F, 0x0A] ++ 0 :: [0xC4])) (withRing .serTx (ringAt 3 3 []))
    s.cfg.capacityOk = true ∧ s.ready = true ∧ s.st.configured = true ∧ s.sys.ie = true ∧ s.turns = [] ∧
    (∀ x ∈ ([0x6F, 0x0A] : List Byte), x ≠ 0) ∧ indicesAre s .serTx 3 3 ∧ (3 : Byte).toNat < s.cap .serTx ∧
    (s.serTx.content (s.cap .serTx)).length + (expandString [0x6F, 0x0A]).length ≤ s.cap .serTx - 1 := by decide

theorem wit_RecvByteReturnsTheOldest :
    let s := withStream [0x43] (withRing .serRx (ringAt 3 1 [(0, 0x69), (3, 0x68)]))
    s.cfg.capacityOk = true ∧ s.ready = true ∧ s.st.configured = true ∧ s.sys.ie = true ∧ s.turns = [] ∧
    s.stream = [0x43] ∧ indicesAre s .serRx 3 1 ∧ (3 : Byte).toNat < s.cap .serRx ∧ (1 : Byte).toNat < s.cap .serRx ∧
    s.serRx.content (s.cap .serRx) = some 0x68 :: [some 0x69] := by decide

/-- A line ended by its newline, one ended by `max_len`, the empty line, and `max_len` 1. -/
theorem wit_RecvLineReturnsTheLine :
    (let s := withStream [0x44, 0x10] (withRing .serRx (ringAt 2 1 [(0, 0x0A), (2, 0x68), (3, 0x69)]))
     s.cfg.capacityOk = true ∧ s.ready = true ∧ s.st.configured = true ∧ s.sys.ie = true ∧ s.turns = [] ∧
     s.stream = 0x44 :: 0x10 :: [] ∧ (0x10 : Byte) ≠ 0 ∧ indicesAre s .serRx 2 1 ∧ (2 : Byte).toNat < s.cap .serRx ∧
     (1 : Byte).toNat < s.cap .serRx ∧ s.serRx.content (s.cap .serRx) = [0x68, 0x69, 0x0A].map some) ∧
    takeLine ((0x10 : Byte).toNat - 1) [0x68, 0x69, 0x0A] = some ([0x68, 0x69], 3) ∧
    takeLine ((0x03 : Byte).toNat - 1) [0x68, 0x69, 0x0A] = some ([0x68, 0x69], 2) ∧
    takeLine ((0x02 : Byte).toNat - 1) [0x0A, 0x68] = some ([], 1) ∧
    takeLine ((0x01 : Byte).toNat - 1) [0x68] = some ([], 0) := by decide

theorem wit_TransmitReadyHandlerMovesOneByte :
    (base.st.configured = true ∧ base.sys.ie = true ∧ base.st.txdEmpty = true ∧ indicesAre base .serTx 0 0) ∧
    (let s := withRing .serTx (ringAt 3 0 [(3, 0x6F)])
     s.st.configured = true ∧ s.sys.ie = true ∧ s.st.txdEmpty = true ∧ indicesAre s .serTx 3 0 ∧ (3 : Byte) ≠ 0 ∧
     s.cfg.capOk .serTx = true ∧ (3 : Byte).toNat < s.cap .serTx ∧ (0 : Byte).toNat < s.cap .serTx ∧
     s.serTx.mem.read (3 : Byte).toNat = some 0x6F) ∧
    unconfigured.st.configured = false ∧ (masked.st.configured = true ∧ masked.sys.ie = false) ∧
    (let s : State := { base with st := { base.st with txd := some 0, txdEmpty := false } }
     s.st.configured = true ∧ s.sys.ie = true ∧ s.st.txdEmpty = false) := by decide

theorem wit_ReceiveReadyHandlerStoresOrDrops :
    (let s : State := { withRing .serRx (ringAt 1 3 [(1, 5), (2, 6)]) with
        st := { base.st with rxd := some 0x68, rxdFull := true } }
     s.st.configured = true ∧ s.sys.ie = true ∧ s.st.rxdFull = true ∧ s.st.rxd = some 0x68 ∧ indicesAre s .serRx 1 3 ∧
     s.cfg.capOk .serRx = true ∧ (1 : Byte).toNat < s.cap .serRx ∧ (3 : Byte).toNat < s.cap .serRx ∧
     ((3 : Byte).toNat + 1) % s.cap .serRx ≠ (1 : Byte).toNat) ∧
    (let s : State := { withRing .serRx (ringAt 0 3 [(0, 4), (1, 5), (2, 6)]) with
        st := { base.st with rxd := some 0x68, rxdFull := true } }
     s.st.configured = true ∧ s.sys.ie = true ∧ s.st.rxdFull = true ∧ s.st.rxd = some 0x68 ∧ indicesAre s .serRx 0 3 ∧
     (3 : Byte).toNat < s.cap .serRx ∧ ((3 : Byte).toNat + 1) % s.cap .serRx = (0 : Byte).toNat) ∧
    unconfigured.st.configured = false ∧ (masked.st.configured = true ∧ masked.sys.ie = false) ∧
    (base.st.configured = true ∧ base.sys.ie = true ∧ base.st.rxdFull = false) := by decide

theorem wit_StartBitStateStartsOrIgnores :
    let s := atBit 0 0 false true
    s.sys.ie = true ∧ s.cl.clkPend = true ∧ s.cl.clkSamp = some true ∧ s.cl.bitCount = some 0 := by decide

/-- The first and the last data bit. -/
theorem wit_DataBitStatesAssembleTheByte :
    (let s := atBit 1 0 false true
     s.sys.ie = true ∧ s.cl.clkPend = true ∧ s.cl.clkSamp = some true ∧ s.cl.bitCount = some 1 ∧ 1 ≤ (1 : BitVec 4).toNat ∧
     (1 : BitVec 4).toNat ≤ 8 ∧ s.cl.bitBuffer = some 0 ∧ s.cl.parityAcc = some false) ∧
    (let s := atBit 8 0x1C true false
     s.sys.ie = true ∧ s.cl.clkPend = true ∧ s.cl.clkSamp = some false ∧ s.cl.bitCount = some 8 ∧ 1 ≤ (8 : BitVec 4).toNat ∧
     (8 : BitVec 4).toNat ≤ 8 ∧ s.cl.bitBuffer = some 0x1C ∧ s.cl.parityAcc = some true) := by decide

theorem wit_ParityStateKeepsOrAborts :
    (let s := atBit 9 0x1C true false
     s.sys.ie = true ∧ s.cl.clkPend = true ∧ s.cl.clkSamp = some false ∧ s.cl.bitCount = some 9 ∧
     s.cl.parityAcc = some true ∧ (!false) = true) ∧
    (let s := atBit 9 0x1C true true
     s.sys.ie = true ∧ s.cl.clkPend = true ∧ s.cl.clkSamp = some true ∧ s.cl.bitCount = some 9 ∧
     s.cl.parityAcc = some true ∧ (!true) ≠ true) := by decide

theorem wit_StopStateAcceptsTheFrame :
    (let s := (atBit 10 0x1C true false).setRing .linkRx (ringAt 1 3 [(1, 5), (2, 6)])
     s.sys.ie = true ∧ s.cl.clkPend = true ∧ s.cl.clkSamp = some false ∧ s.cl.bitCount = some 10 ∧
     s.cl.bitBuffer = some 0x1C ∧ indicesAre s .linkRx 1 3 ∧ s.cfg.capOk .linkRx = true ∧
     (1 : Byte).toNat < s.cap .linkRx ∧ (3 : Byte).toNat < s.cap .linkRx ∧
     ((3 : Byte).toNat + 1) % s.cap .linkRx ≠ (1 : Byte).toNat) ∧
    (let s := (atBit 10 0x1C true true).setRing .linkRx (ringAt 0 3 [(0, 4), (1, 5), (2, 6)])
     s.cl.clkSamp = some true ∧ s.cl.bitCount = some 10 ∧ indicesAre s .linkRx 0 3 ∧ (3 : Byte).toNat < s.cap .linkRx ∧
     ((3 : Byte).toNat + 1) % s.cap .linkRx = (0 : Byte).toNat) := by decide

theorem wit_EdgeHandlerStops :
    masked.sys.ie = false ∧ (base.sys.ie = true ∧ base.cl.clkPend = false) ∧
    (let s : State := { atBit 0 0 false false with
        cl := { bitCount := none, bitBuffer := none, parityAcc := none, clkPend := true, clkSamp := some false } }
     s.sys.ie = true ∧ s.cl.clkPend = true ∧ s.cl.clkSamp.isSome = true ∧ s.cl.bitCount = none) ∧
    ((atBit 11 0 false false).cl.bitCount = some 11 ∧ 10 < (11 : BitVec 4).toNat ∧ 10 < (15 : BitVec 4).toNat) := by decide

theorem wit_ValidFrameDeliversItsByte :
    (base.sys.ie = true ∧ frameIdle base ∧ indicesAre base .linkRx 0 0 ∧ base.cfg.capOk .linkRx = true ∧
      (0 : Byte).toNat < base.cap .linkRx ∧ ((0 : Byte).toNat + 1) % base.cap .linkRx ≠ (0 : Byte).toNat) ∧
    (let s := withRing .linkRx (ringAt 0 3 [(0, 4), (1, 5), (2, 6)])
     s.sys.ie = true ∧ frameIdle s ∧ indicesAre s .linkRx 0 3 ∧ (3 : Byte).toNat < s.cap .linkRx ∧
     ((3 : Byte).toNat + 1) % s.cap .linkRx = (0 : Byte).toNat) := by decide

theorem wit_BadParityFrameIsDiscarded : base.sys.ie = true ∧ frameIdle base := by decide

/-- `CL.READ_BYTE`; `CL.READ_SCANCODE` of a plain byte, of an unmapped byte (the vector of 95_test_vectors.md logs 0), and
of an escape marker and its second byte. -/
theorem wit_LinkReadersReturnTheOldest :
    (let s := withStream [0x83] (withRing .linkRx (ringAt 3 1 [(0, 0x1C), (3, 0xE0)]))
     s.cfg.capacityOk = true ∧ s.ready = true ∧ s.sys.ie = true ∧ s.turns = [] ∧ s.stream = 0x83 :: [] ∧
     indicesAre s .linkRx 3 1 ∧ (3 : Byte).toNat < s.cap .linkRx ∧ (1 : Byte).toNat < s.cap .linkRx ∧
     s.linkRx.content (s.cap .linkRx) = some 0xE0 :: [some 0x1C] ∧ (0xE0 : Byte) ∈ s.cfg.escapeSet ∧
     (s.cfg.translation.lookup 0x1C).getD 0 = 0x61) ∧
    (let s := withStream [0x83] (withRing .linkRx (ringAt 0 1 [(0, 0x1C)]))
     s.linkRx.content (s.cap .linkRx) = [some 0x1C] ∧ (0x1C : Byte) ∉ s.cfg.escapeSet) ∧
    (let s := withStream [0x83] (withRing .linkRx (ringAt 0 1 [(0, 0x77)]))
     s.linkRx.content (s.cap .linkRx) = [some 0x77] ∧ (0x77 : Byte) ∉ s.cfg.escapeSet ∧
     (s.cfg.translation.lookup 0x77).getD 0 = 0) ∧
    (let s := withStream [0x82] (withRing .linkRx (ringAt 0 1 [(0, 0x1C)]))
     s.cfg.capacityOk = true ∧ s.ready = true ∧ s.sys.ie = true ∧ s.turns = [] ∧ s.stream = 0x82 :: [] ∧
     indicesAre s .linkRx 0 1 ∧ s.linkRx.content (s.cap .linkRx) = some 0x1C :: []) := by decide

theorem wit_InitClearsIndicesAndFrame :
    (masked.ready = true ∧ masked.sys.ie = false) ∧ (base.ready = true ∧ base.sys.ie = true) ∧ asleep.ready = false := by
  decide

theorem wit_IrqOnAndOffWriteTheFlag : masked.ready = true ∧ asleep.ready = false := by decide

theorem wit_WaitSleepsWithInterruptsOn :
    (base.ready = true ∧ base.sys.ie = true) ∧ (masked.ready = true ∧ masked.sys.ie = false) ∧
    (asleep.ready = false ∧ asleep.sys.sleeping = true) ∧
    (isHandler .stIsrTx = true ∧ (nextOf (exec .stIsrTx asleep)).isSome = true) := by decide

theorem wit_ArrivingByteLoadsOrIsLost :
    unconfigured.st.configured = false ∧ (base.st.configured = true ∧ base.st.rxdFull = false) ∧
    (let s : State := { base with st := { base.st with rxd := some 0x68, rxdFull := true } }
     s.st.configured = true ∧ s.st.rxdFull = true) := by decide

theorem wit_TransmittedByteGoesToTheWire :
    unconfigured.st.configured = false ∧ (base.st.configured = true ∧ base.st.txdEmpty = true) ∧
    (let s : State := { base with st := { base.st with txd := some 0x6F, txdEmpty := false } }
     s.st.configured = true ∧ s.st.txdEmpty = false ∧ s.st.txd = some 0x6F) := by decide

/-- A sender with no room and with room, a receiver with nothing and with an element, in CHECK; a SLEEP; a sleeper. -/
theorem wit_CheckAndSleepPhasesDecideTheWait :
    (let s := inside (.sendByte 1 false) .check (withRing .serTx (ringAt 0 3 [(0, 4), (1, 5), (2, 6)]))
     s.sys.ml = .busy (.sendByte 1 false) .check ∧ s.cfg.capOk .serTx = true ∧ indicesAre s .serTx 0 3 ∧
     ((3 : Byte).toNat + 1) % s.cap .serTx = (0 : Byte).toNat) ∧
    (let s := inside (.sendByte 1 false) .check base
     indicesAre s .serTx 0 0 ∧ ((0 : Byte).toNat + 1) % s.cap .serTx ≠ (0 : Byte).toNat) ∧
    (let s := inside .recvByte .check base
     s.sys.ml = .busy .recvByte .check ∧ s.cfg.capOk .serRx = true ∧ indicesAre s .serRx 0 0) ∧
    (let s := inside .readByte .check (withRing .linkRx (ringAt 0 1 [(0, 7)]))
     s.sys.ml = .busy .readByte .check ∧ indicesAre s .linkRx 0 1 ∧ (0 : Byte) ≠ 1) ∧
    (inside .recvByte .sleep base).sys.ml = .busy .recvByte .sleep ∧
    (asleep.cfg.capacityOk = true ∧ asleep.sys.sleeping = true) := by decide

/-- A newline whose carriage return is due, one whose carriage return has gone, the last byte of a string, a plain byte, and
a newline under `CRLF_IN_SEND_BYTE`. -/
theorem wit_SenderMutateAppends :
    (let s := inside (.sendString 0x0A [0x61] false) .mutate (withRing .serTx (ringAt 1 3 [(1, 5), (2, 6)]))
     s.sys.ml = .busy (.sendString 0x0A [0x61] false) .mutate ∧ indicesAre s .serTx 1 3 ∧ s.cfg.capOk .serTx = true ∧
     (1 : Byte).toNat < s.cap .serTx ∧ (3 : Byte).toNat < s.cap .serTx ∧
     ((3 : Byte).toNat + 1) % s.cap .serTx ≠ (1 : Byte).toNat ∧ (0x0A : Byte) = Config.newline) ∧
    (let s := inside (.sendString 0x0A [0x61] true) .mutate base
     s.sys.ml = .busy (.sendString 0x0A [0x61] true) .mutate ∧ indicesAre s .serTx 0 0) ∧
    (inside (.sendString 0x61 [] false) .mutate base).sys.ml = .busy (.sendString 0x61 [] false) .mutate ∧
    (let s := inside (.sendByte 0x0A false) .mutate base
     s.sys.ml = .busy (.sendByte 0x0A false) .mutate ∧ s.cfg.crlfInSendByte = false) ∧
    (let p : Params := { params with crlfInSendByte := true }
     let s : State := { inside (.sendByte 0x0A false) .mutate base with cfg := p }
     s.cfg.crlfInSendByte = true ∧ indicesAre s .serTx 0 0) := by decide

/-- The four kinds of receiver; a line's newline, its last byte and an inner byte; an escape marker and a plain byte. -/
theorem wit_ReceiverMutateTakes :
    (let s := inside .recvByte .mutate (withRing .serRx (ringAt 3 0 [(3, 0x0A)]))
     s.sys.ml = .busy .recvByte .mutate ∧ MlOp.recvByte.channel ≠ .serTx ∧ indicesAre s .serRx 3 0 ∧
     s.cfg.capOk .serRx = true ∧ (3 : Byte).toNat < s.cap .serRx ∧ (3 : Byte) ≠ 0 ∧
     (s.ring .serRx).mem.read (3 : Byte).toNat = some 0x0A) ∧
    (let s := inside (.recvLine 3 [0x61]) .mutate (withRing .serRx (ringAt 3 0 [(3, 0x62)]))
     s.sys.ml = .busy (.recvLine 3 [0x61]) .mutate ∧ (0x62 : Byte) ≠ Config.newline ∧
     ([0x61] : List Byte).length + 1 = (3 : Byte).toNat - 1 ∧ ([0x61] : List Byte).length + 1 < (4 : Byte).toNat - 1) ∧
    (let s := inside (.readScancode none) .mutate (withRing .linkRx (ringAt 0 1 [(0, 0xF0)]))
     s.sys.ml = .busy (.readScancode none) .mutate ∧ indicesAre s .linkRx 0 1 ∧
     (s.ring .linkRx).mem.read (0 : Byte).toNat = some 0xF0 ∧ (0xF0 : Byte) ∈ s.cfg.escapeSet ∧
     (0x1C : Byte) ∉ s.cfg.escapeSet) ∧
    (inside .readByte .mutate base).sys.ml = .busy .readByte .mutate := by decide

theorem wit_StepRunsTheDecodedStimulus :
    let s := withStream [0x03, 0x5A, 0xC4] base
    s.cfg.capacityOk = true ∧ s.mainlineMoves = false ∧ decoded s.stream = some (.rbPush .serRx 0x5A, [0xC4]) := by decide

/-- The same, where mainline could move and the schedule puts the stream first. -/
theorem wit_StepRunsTheDecodedStimulus_turn :
    let s : State := { withStream [0xCB] (inside .recvByte .check base) with turns := [.other] }
    s.cfg.capacityOk = true ∧ s.canMove = true ∧ s.mainlineMoves = false ∧
    decoded s.stream = some (.envClkFall true, []) := by decide

theorem wit_TurnsChooseTheAgent :
    let s := inside .recvByte .check base
    s.cfg.capacityOk = true ∧ s.canMove = true ∧ s.turns = [] ∧ s.stream = [] ∧
    ({ s with turns := [.mainline, .other] } : State).canMove = true ∧
    ({ s with turns := [.other, .mainline] } : State).canMove = true := by decide

theorem wit_PlacedWordRunsNext :
    base.cfg.capacityOk = true ∧ decodeTableWord 16 0xFF44 = some (.stRecvLine 255) ∧
    (inside .recvByte .check base).canMove = true := by decide

theorem wit_BusyMainlineRefusesItsStimuli :
    isMainline .sysWait = true ∧ asleep.ready = false ∧ (inside .recvByte .check base).ready = false ∧
    isMainline .envTxDone = false := by decide

/-- A handler that ends the wait in a step. -/
theorem wit_OnlyHandlersAndResetEndTheWait :
    (nextOf (step (withStream [0x48] asleep))).map (fun t => t.sys.sleeping) = some false ∧
    asleep.sys.sleeping = true ∧ isHandler .stIsrTx = true ∧ (nextOf (exec .stIsrTx asleep)).isSome = true := by decide

theorem wit_FrameTripleIsPrivate :
    (nextOf (step (withStream [0x80] (atBit 0 0 false false)))).map (fun t => t.cl.bitCount) = some (some 1) := by decide

theorem wit_InterruptFlagHasThreeWriters :
    let s := withStream [0xC3] base
    inv s = true ∧ s.sys.ie = true ∧ (nextOf (step s)).map (fun t => t.sys.ie) = some false := by decide

/-- A step of a producer and one of a consumer, neither a raw stimulus. -/
theorem wit_EachIndexHasItsOneContext :
    (let s := inside (.sendByte 7 false) .mutate base
     s.mainlineMoves = true ∧ s.serTx.endIx = some 0 ∧ (nextOf (step s)).map (fun t => t.serTx.endIx) = some (some 1)) ∧
    (let s := withStream [0x48] (withRing .serTx (ringAt 0 1 [(0, 7)]))
     decoded s.stream = some (.stIsrTx, []) ∧ rewrites .serTx .stIsrTx = false ∧ s.serTx.startIx = some 0 ∧
     (nextOf (step s)).map (fun t => t.serTx.startIx) = some (some 1)) := by decide

theorem wit_LogsOnlyGrow :
    let s := withStream [0xC9] { base with st := { base.st with txd := some 0x6F, txdEmpty := false } }
    decoded s.stream = some (.envTxDone, []) ∧ (nextOf (step s)).map (fun t => t.obs.wireOut) = some [0x6F] := by decide

/-- States that meet the invariant: after reset, initialised, inside a critical section's MUTATE, asleep in a wait. -/
theorem wit_EveryStepKeepsTheInvariant :
    inv (State.resetWith params [0xC1] []) = true ∧ (nextOf (step (State.resetWith params [0xC1] []))).isSome = true ∧
    inv (inside .recvByte .mutate (withRing .serRx (ringAt 3 0 [(3, 7)]))) = true ∧
    (nextOf (step (inside .recvByte .mutate (withRing .serRx (ringAt 3 0 [(3, 7)]))))).isSome = true := by decide

theorem wit_InitialisedBlockFaultsOnlyOnRawPop :
    (inv base = true ∧ booted base = true ∧ (nextOf (step base)).isSome = true) ∧
    (let s := withStream [0x04] base
     inv s = true ∧ booted s = true ∧ faultOf (step s) = some .popEmpty) := by decide

/-- A critical section of a sender, with bytes on the wire, in the register and in the buffer. -/
theorem wit_TransmitKeepsEveryByteInOrder :
    let s : State := { inside (.sendByte 3 false) .mutate (withRing .serTx (ringAt 0 1 [(0, 2)])) with
      st := { base.st with txd := some 1, txdEmpty := false }, obs := { wireOut := [0], results := [] } }
    inv s = true ∧ s.mainlineMoves = true ∧ sentNow s = [some 3] ∧ txTrace s = [some 0, some 1, some 2] ∧
    (nextOf (step s)).map txTrace = some [some 0, some 1, some 2, some 3] := by decide

/-- A handler that stores, one that drops, a frame's last bit, and a consumer that takes. -/
theorem wit_ReceiveKeepsArrivalOrder :
    (let s : State := withStream [0x49] { base with st := { base.st with rxd := some 0x68, rxdFull := true } }
     inv s = true ∧ s.mainlineMoves = false ∧ decoded s.stream = some (.stIsrRx, []) ∧
     rewrites .serRx .stIsrRx = false ∧ (nextOf (step s)).isSome = true) ∧
    (let s := withStream [0x80] (atBit 10 0x1C true false)
     inv s = true ∧ decoded s.stream = some (.clIsrEdge, []) ∧ s.cl.bitCount = some 10 ∧ (nextOf (step s)).isSome = true) ∧
    (let s := inside .readByte .mutate (withRing .linkRx (ringAt 3 0 [(3, 0x1C)]))
     inv s = true ∧ s.mainlineMoves = true ∧ takenNow s .linkRx = [some 0x1C] ∧ (nextOf (step s)).isSome = true) := by decide

/-- A blocked receiver, the two handlers and the taken byte, each on state that holds no value. -/
theorem wit_ReadingWhatHoldsNoValueFaults :
    (let s := inside .recvByte .check (withRing .serRx Ring.reset)
     s.sys.ml = .busy .recvByte .check ∧ (s.ring MlOp.recvByte.channel).startIx = none) ∧
    (let s := withRing .serTx Ring.reset
     s.st.configured = true ∧ s.sys.ie = true ∧ s.st.txdEmpty = true ∧ s.serTx.startIx = none) ∧
    (let s : State := { base with st := { base.st with rxdFull := true } }
     s.st.configured = true ∧ s.sys.ie = true ∧ s.st.rxdFull = true ∧ s.st.rxd = none) ∧
    (let s : State := { withRing .serRx Ring.reset with st := { base.st with rxdFull := true, rxd := some 1 } }
     s.st.configured = true ∧ s.sys.ie = true ∧ s.st.rxdFull = true ∧ s.serRx.endIx = none) ∧
    (let s : State := { base with st := { base.st with txdEmpty := false } }
     s.st.configured = true ∧ s.st.txdEmpty = false ∧ s.st.txd = none) := by decide

end Sys2Proof.Tests
end

section
/-! What the count, empty and full conditions of a ring buffer answer on legal indices (10_state.md R14). -/

namespace Sys2Proof.Machine

variable {n : Nat} {r : Ring} {a b : Byte}

/-- The model's count is the mathematical remainder: taking it as a natural number loses nothing (R14, R99). -/
theorem countIx_cast (h0 : 0 < n) : (countIx n a b : Int) = ((b.toNat : Int) - (a.toNat : Int)) % (n : Int) :=
  Int.toNat_of_nonneg (Int.emod_nonneg _ (by omega))

theorem isEmpty_eq (ha : r.startIx = some a) (hb : r.endIx = some b) : r.isEmpty = .ok (decide (a = b)) := by
  simp [Ring.isEmpty, indices_eq ha hb, isEmptyIx]

theorem isFull_eq (h0 : 0 < n) (hn : n ≤ 256) (ha : r.startIx = some a) (hb : r.endIx = some b) :
    r.isFull n = .ok (decide ((b.toNat + 1) % n = a.toNat)) := by
  simp [Ring.isFull, indices_eq ha hb, isFullIx, nextIx_eq_iff h0 hn]

theorem isEmpty_iff_countIx_eq_zero (ha : r.startIx = some a) (hb : r.endIx = some b) (hla : a.toNat < n)
    (hlb : b.toNat < n) : r.isEmpty = .ok true ↔ countIx n a b = 0 := by
  rw [isEmpty_eq ha hb, countIx_eq_zero hla hlb, Except.ok.injEq, decide_eq_true_iff]

theorem isFull_iff_countIx_eq_pred (hn : n ≤ 256) (ha : r.startIx = some a) (hb : r.endIx = some b) (hla : a.toNat < n)
    (hlb : b.toNat < n) : r.isFull n = .ok true ↔ countIx n a b = n - 1 := by
  rw [isFull_eq (by omega) hn ha hb, ← succ_mod_eq_iff hla hlb, Except.ok.injEq, decide_eq_true_iff]

/-- Settles O7: on legal indices empty is count 0 and full is count `N - 1`, two numbers that differ because `N` is at
least 2. -/
theorem emptyAndFullExcludeEachOther : Obligations.EmptyAndFullExcludeEachOther := by
  intro n r a b h2 hn ha hb hla hlb
  have hlt : countIx n a b < n := countIx_lt hla hlb
  have hempty := isEmpty_iff_countIx_eq_zero ha hb hla hlb
  have hfull := isFull_iff_countIx_eq_pred (by omega) ha hb hla hlb
  refine ⟨countIx_cast (by omega), by omega, isEmpty_eq ha hb, isFull_eq (by omega) (by omega) ha hb, hempty, hfull, ?_⟩
  rintro ⟨he, hf⟩
  have h0 : countIx n a b = 0 := hempty.1 he
  have hpred : countIx n a b = n - 1 := hfull.1 hf
  omega

end Sys2Proof.Machine
end

section
/-! Which refusal the decoder answers, function by function (30_encoding.md R65 to R74). -/

namespace Sys2Proof

variable {bs rest : List Byte} {unit fsel fn : Nat} {e : DecodeError}

/-! ### The operand bytes: a format can only be cut short -/

@[simp] theorem takeByte_error_iff {k : Byte → Instr} :
    takeByte k bs = .error e ↔ bs = [] ∧ .truncatedStimulus = e := by
  cases bs <;> simp [takeByte]

@[simp] theorem takeConfigure_error_iff : takeConfigure bs = .error e ↔ bs.length < 5 ∧ .truncatedStimulus = e := by
  unfold takeConfigure
  split
  case h_1 => simp
  case h_2 hshort =>
    have hlen : bs.length < 5 := by
      match bs with
      | [] | [_] | [_, _] | [_, _, _] | [_, _, _, _] => simp
      | b1 :: b2 :: b3 :: b4 :: tol :: tl => exact (hshort b1 b2 b3 b4 tol tl rfl).elim
    simp [hlen]

@[simp] theorem takeString_error_iff :
    takeString bs = .error e ↔ splitString bs = none ∧ .truncatedStimulus = e := by
  unfold takeString
  split <;> simp [*]

/-- The first terminator ends a string (R66, R72). -/
theorem splitString_append_strTerm {c : List Byte} (hc : ∀ b ∈ c, b ≠ Config.strTerm) :
    splitString (c ++ Config.strTerm :: rest) = some (c, rest) := by
  induction c with
  | nil => simp [splitString]
  | cons b c ih =>
    obtain ⟨hb, hc⟩ := List.forall_mem_cons.1 hc
    simp [splitString, hb, ih hc]

theorem takeString_append_strTerm {c : List Byte} (hc : ∀ b ∈ c, b ≠ Config.strTerm) :
    takeString (c ++ Config.strTerm :: rest) = .ok (.stSendString c, rest) := by
  simp [takeString, splitString_append_strTerm hc]

/-! ### The units: the functions each one assigns (R68 to R71) -/

theorem decodeRb_reservedCode_iff {f : Inst} : decodeRb f fn rest = .error .reservedCode ↔ 5 ≤ fn := by
  match fn with
  | 0 | 1 | 2 | 3 | 4 => simp [decodeRb]
  | n + 5 => simp [decodeRb]

theorem decodeSt_reservedCode_iff :
    decodeSt fn rest = .error .reservedCode ↔ (5 ≤ fn ∧ fn ≤ 7) ∨ 10 ≤ fn := by
  match fn with
  | 0 | 1 | 2 | 3 | 4 | 5 | 6 | 7 | 8 | 9 => simp [decodeSt]
  | n + 10 => simp [decodeSt]

theorem decodeCl_reservedCode_iff : decodeCl fn rest = .error .reservedCode ↔ fn = 1 ∨ 4 ≤ fn := by
  match fn with
  | 0 | 1 | 2 | 3 => simp [decodeCl]
  | n + 4 => simp [decodeCl]

theorem decodeSys_reservedCode_iff :
    decodeSys fn rest = .error .reservedCode ↔ (5 ≤ fn ∧ fn ≤ 7) ∨ 12 ≤ fn := by
  match fn with
  | 0 | 1 | 2 | 3 | 4 | 5 | 6 | 7 | 8 | 9 | 10 | 11 => simp [decodeSys]
  | n + 12 => simp [decodeSys]

theorem decodeRb_ne_badFsel {f : Inst} : decodeRb f fn rest ≠ .error .badFsel := by
  unfold decodeRb
  split <;> simp

theorem decodeSt_ne_badFsel : decodeSt fn rest ≠ .error .badFsel := by
  unfold decodeSt
  split <;> simp

theorem decodeCl_ne_badFsel : decodeCl fn rest ≠ .error .badFsel := by
  unfold decodeCl
  split <;> simp

theorem decodeSys_ne_badFsel : decodeSys fn rest ≠ .error .badFsel := by
  unfold decodeSys
  split <;> simp

/-! ### The fields of the opcode byte (R65, R72) -/

theorem ofFsel_eq_none_iff : Inst.ofFsel fsel = none ↔ 3 ≤ fsel := by
  match fsel with
  | 0 | 1 | 2 => simp [Inst.ofFsel]
  | n + 3 => simp [Inst.ofFsel]

theorem decodeUnit0_reservedCode_iff : decodeUnit0 fsel fn rest = .error .reservedCode ↔ 5 ≤ fn := by
  unfold decodeUnit0
  split
  · exact decodeRb_reservedCode_iff
  · by_cases h : fn ≤ 4 <;> simp [h] <;> omega

theorem decodeUnit0_badFsel_iff : decodeUnit0 fsel fn rest = .error .badFsel ↔ 3 ≤ fsel ∧ fn ≤ 4 := by
  rw [← ofFsel_eq_none_iff]
  unfold decodeUnit0
  split
  case h_1 hf => simp [hf, decodeRb_ne_badFsel]
  case h_2 hf => by_cases h : fn ≤ 4 <;> simp [hf, h]

theorem decodeFields_reservedCode_iff :
    decodeFields unit fsel fn rest = .error .reservedCode ↔
      (unit = 0 ∧ 5 ≤ fn) ∨ (unit ≠ 0 ∧ fsel ≠ 0) ∨ (unit = 1 ∧ ((5 ≤ fn ∧ fn ≤ 7) ∨ 10 ≤ fn)) ∨
        (unit = 2 ∧ (fn = 1 ∨ 4 ≤ fn)) ∨ (3 ≤ unit ∧ ((5 ≤ fn ∧ fn ≤ 7) ∨ 12 ≤ fn)) := by
  unfold decodeFields
  split
  · rw [decodeUnit0_reservedCode_iff]; omega
  split
  · simp only [true_iff]; omega
  split
  · rw [decodeSt_reservedCode_iff]; omega
  split
  · rw [decodeCl_reservedCode_iff]; omega
  · rw [decodeSys_reservedCode_iff]; omega

theorem decodeFields_badFsel_iff :
    decodeFields unit fsel fn rest = .error .badFsel ↔ unit = 0 ∧ 3 ≤ fsel ∧ fn ≤ 4 := by
  unfold decodeFields
  split
  case isTrue h0 => simp [h0, decodeUnit0_badFsel_iff]
  case isFalse h0 =>
    simp only [h0, false_and, iff_false]
    split
    · simp
    split
    · exact decodeSt_ne_badFsel
    split
    · exact decodeCl_ne_badFsel
    · exact decodeSys_ne_badFsel

end Sys2Proof

namespace Sys2Proof.Machine

/-- Bytes the decoder refuses are refused by the fetch (R64). -/
theorem fetch_of_decode_error {s : State} {e : DecodeError} (hs : s.stream ≠ []) (hd : decode s.stream = .error e) :
    fetch s = .refuse (Refusal.ofDecode e) := by
  unfold fetch
  split
  case h_1 hnil => exact absurd hnil hs
  case h_2 op bytes hcons => rw [← hcons, hd]

/-- A step whose turn is the stream's refuses what the decoder refuses. -/
theorem step_of_decode_error {s : State} {e : DecodeError} (hcap : s.cfg.capacityOk = true)
    (hm : s.mainlineMoves = false) (hs : s.stream ≠ []) (hd : decode s.stream = .error e) :
    step s = .refused (Refusal.ofDecode e) := by
  have hf : fetch s.takeTurn = .refuse (Refusal.ofDecode e) :=
    fetch_of_decode_error (by simpa using hs) (by simpa using hd)
  simp [step, stimulusStep, hcap, hm, hf]

/-- Settles O3: the ranges of R72 are the conditions on `unit`, `fsel` and `fn` written out for the whole byte. -/
theorem reservedOpcodesAreRefused : Obligations.ReservedOpcodesAreRefused := by
  refine ⟨fun op rest => ⟨?_, ?_⟩, by decide, fun s e => step_of_decode_error, ?_⟩
  · have hlt := op.isLt
    simp only [decode, decodeFields_reservedCode_iff, opUnit, opFsel, opFn]
    omega
  · have hlt := op.isLt
    simp only [decode, decodeFields_badFsel_iff, opUnit, opFsel, opFn]
    omega
  · intro c rest hc
    show takeString (c ++ Config.strTerm :: rest) = .ok (.stSendString c, rest)
    exact takeString_append_strTerm hc

end Sys2Proof.Machine
end

section
/-! What a push and a pop make of the two indices, the count and the content (20_memory.md R41, 40_ringbuffer_ops.md R93,
R94, R96). -/

namespace Sys2Proof.Machine

variable {n : Nat} {r r' : Ring} {a b v : Byte} {ok : Bool}

/-! ### The count -/

theorem countIx_nextIx_end (hn : n ≤ 256) (ha : a.toNat < n) (hb : b.toNat < n) (hroom : nextIx n b ≠ a) :
    countIx n a (nextIx n b) = countIx n a b + 1 := by
  have h0 : 0 < n := by omega
  have hnext : (nextIx n b).toNat = if b.toNat + 1 = n then 0 else b.toNat + 1 := by
    rw [nextIx_toNat h0 hn, succ_mod_eq hb]
  have hne : (nextIx n b).toNat ≠ a.toNat := fun h => hroom (BitVec.eq_of_toNat_eq h)
  have hlt := nextIx_lt h0 hn b
  rcases Nat.lt_or_ge b.toNat a.toNat with h | h
  · have hwrap : b.toNat + 1 ≠ n := by omega
    rw [if_neg hwrap] at hnext
    rw [countIx_of_gt ha h, countIx_of_gt ha (by omega)]
    omega
  · rw [countIx_of_le hb h]
    split at hnext
    · rw [countIx_of_gt ha (by omega)]; omega
    · rw [countIx_of_le hlt (by omega)]; omega

theorem countIx_nextIx_start (hn : n ≤ 256) (ha : a.toNat < n) (hb : b.toNat < n) (hne : a ≠ b) :
    countIx n a b = countIx n (nextIx n a) b + 1 := by
  have h0 : 0 < n := by omega
  have hnext : (nextIx n a).toNat = if a.toNat + 1 = n then 0 else a.toNat + 1 := by
    rw [nextIx_toNat h0 hn, succ_mod_eq ha]
  have hne' : a.toNat ≠ b.toNat := fun h => hne (BitVec.eq_of_toNat_eq h)
  have hlt := nextIx_lt h0 hn a
  rcases Nat.lt_or_ge b.toNat a.toNat with h | h
  · rw [countIx_of_gt ha h]
    split at hnext
    · rw [countIx_of_le hb (by omega)]; omega
    · rw [countIx_of_gt hlt (by omega)]; omega
  · have hwrap : a.toNat + 1 ≠ n := by omega
    rw [if_neg hwrap] at hnext
    rw [countIx_of_le hb h, countIx_of_le hb (by omega)]
    omega

theorem isEmpty_eq_countIx (ha : r.startIx = some a) (hb : r.endIx = some b) (hla : a.toNat < n) (hlb : b.toNat < n) :
    r.isEmpty = .ok (decide (countIx n a b = 0)) := by
  simp only [isEmpty_eq ha hb, countIx_eq_zero hla hlb]

theorem isFull_eq_countIx (hn : n ≤ 256) (ha : r.startIx = some a) (hb : r.endIx = some b) (hla : a.toNat < n)
    (hlb : b.toNat < n) : r.isFull n = .ok (decide (countIx n a b = n - 1)) := by
  simp only [isFull_eq (by omega) hn ha hb, succ_mod_eq_iff hla hlb]

/-! ### What the functions that read the indices answer -/

/-- The buffer after a push of `v` that found room at `end` = `b`. -/
def Ring.stored (n : Nat) (b v : Byte) (r : Ring) : Ring :=
  { r with mem := r.mem.write b.toNat v, endIx := some (nextIx n b) }

/-- The buffer after a pop that found an element at `start` = `a`. -/
def Ring.taken (n : Nat) (a : Byte) (r : Ring) : Ring := { r with startIx := some (nextIx n a) }

@[simp] theorem stored_startIx : (r.stored n b v).startIx = r.startIx := rfl
@[simp] theorem stored_endIx : (r.stored n b v).endIx = some (nextIx n b) := rfl
@[simp] theorem stored_mem : (r.stored n b v).mem = r.mem.write b.toNat v := rfl
@[simp] theorem taken_startIx : (r.taken n a).startIx = some (nextIx n a) := rfl
@[simp] theorem taken_endIx : (r.taken n a).endIx = r.endIx := rfl
@[simp] theorem taken_mem : (r.taken n a).mem = r.mem := rfl

theorem indices_none (h : r.startIx = none ∨ r.endIx = none) : r.indices = .error .uninitialised := by
  unfold Ring.indices
  split
  case h_1 ha hb => simp [ha, hb] at h
  case h_2 => rfl

theorem isEmpty_none (h : r.startIx = none ∨ r.endIx = none) : r.isEmpty = .error .uninitialised := by
  simp [Ring.isEmpty, indices_none h]

theorem isFull_none (h : r.startIx = none ∨ r.endIx = none) : r.isFull n = .error .uninitialised := by
  simp [Ring.isFull, indices_none h]

theorem push_none (h : r.startIx = none ∨ r.endIx = none) : r.push n v = .error .uninitialised := by
  simp [Ring.push, indices_none h]

theorem pop_none (h : r.startIx = none ∨ r.endIx = none) : r.pop n = .error .uninitialised := by
  simp [Ring.pop, indices_none h]

theorem push_room (ha : r.startIx = some a) (hb : r.endIx = some b) (hlb : b.toNat < n) (hroom : nextIx n b ≠ a) :
    r.push n v = .ok (r.stored n b v, true) := by
  simp [Ring.push, Ring.stored, indices_eq ha hb, hroom, memWrite, hlb]

theorem push_full (ha : r.startIx = some a) (hb : r.endIx = some b) (hfull : nextIx n b = a) :
    r.push n v = .ok (r, false) := by
  simp [Ring.push, indices_eq ha hb, hfull]

theorem pop_written (ha : r.startIx = some a) (hb : r.endIx = some b) (hla : a.toNat < n) (hne : a ≠ b)
    (hread : r.mem.read a.toNat = some v) : r.pop n = .ok (r.taken n a, v) := by
  simp [Ring.pop, Ring.taken, indices_eq ha hb, hne, memRead, hla, hread]

theorem pop_unwritten (ha : r.startIx = some a) (hb : r.endIx = some b) (hla : a.toNat < n) (hne : a ≠ b)
    (hread : r.mem.read a.toNat = none) : r.pop n = .error .unwrittenSlot := by
  simp [Ring.pop, indices_eq ha hb, hne, memRead, hla, hread]

theorem pop_empty (ha : r.startIx = some a) (hb : r.endIx = some a) : r.pop n = .error .popEmpty := by
  simp [Ring.pop, indices_eq ha hb]

/-! ### The content -/

/-- Slot `end` lies behind the content, so writing it and moving `end` past it appends. -/
theorem content_append (hn : n ≤ 256) (ha : r.startIx = some a) (hb : r.endIx = some b) (hla : a.toNat < n)
    (hlb : b.toNat < n) (hroom : nextIx n b ≠ a) :
    (r.stored n b v).content n = r.content n ++ [some v] := by
  have hkept : ∀ k ∈ List.range (countIx n a b),
      (r.stored n b v).mem.read ((a.toNat + k) % n) = r.mem.read ((a.toNat + k) % n) := fun k hk =>
    memory_read_write_other r.mem v (slot_ne_end hla hlb (List.mem_range.1 hk))
  rw [content_eq ha hb, content_eq (r := r.stored n b v) ha stored_endIx, countIx_nextIx_end hn hla hlb hroom,
    List.range_succ, List.map_append, List.map_congr_left hkept]
  simp [slot_at_count hla hlb, memory_read_write_same]

/-- Slot `start` is the head of a content that is not empty, and moving `start` past it leaves the tail. -/
theorem content_eq_cons (hn : n ≤ 256) (ha : r.startIx = some a) (hb : r.endIx = some b) (hla : a.toNat < n)
    (hlb : b.toNat < n) (hne : a ≠ b) :
    r.content n = r.mem.read a.toNat :: (r.taken n a).content n := by
  have hslot : ∀ k, ((nextIx n a).toNat + k) % n = (a.toNat + (k + 1)) % n := fun k => by
    rw [nextIx_toNat (by omega) hn, Nat.mod_add_mod, Nat.add_right_comm, Nat.add_assoc]
  rw [content_eq ha hb, content_eq (r := r.taken n a) taken_startIx hb, countIx_nextIx_start hn hla hlb hne,
    List.range_succ_eq_map]
  simp [hslot, Nat.mod_eq_of_lt hla]

theorem content_eq_nil (ha : r.startIx = some a) (hb : r.endIx = some a) : r.content n = [] := by
  simp [content_eq ha hb, countIx]

theorem content_clear (n : Nat) (r : Ring) : r.clear.content n = [] :=
  content_eq_nil (clear_startIx r) (clear_endIx r)

end Sys2Proof.Machine
end

section
/-! A ring buffer with legal indices is a bounded queue: its functions told by its content alone (40_ringbuffer_ops.md R96,
R97). -/

namespace Sys2Proof.Machine

/-- Both indices hold a value below `N` = `n` (10_state.md R13). -/
def Ring.Legal (n : Nat) (r : Ring) : Prop :=
  ∃ a b, r.startIx = some a ∧ r.endIx = some b ∧ a.toNat < n ∧ b.toNat < n

variable {n : Nat} {r r' : Ring} {v : Byte} {ok : Bool}

theorem legal_clear (h0 : 0 < n) : r.clear.Legal n :=
  ⟨0, 0, clear_startIx r, clear_endIx r, by simpa using h0, by simpa using h0⟩

theorem content_length_le (hl : r.Legal n) : (r.content n).length ≤ n - 1 := by
  obtain ⟨a, b, ha, hb, hla, hlb⟩ := hl
  have hlt := countIx_lt hla hlb
  rw [content_length ha hb]
  omega

/-- A buffer is empty as `rb_is_empty` says iff it has no content (R91). -/
theorem isEmpty_eq_content (hl : r.Legal n) : r.isEmpty = .ok (decide ((r.content n).length = 0)) := by
  obtain ⟨a, b, ha, hb, hla, hlb⟩ := hl
  rw [content_length ha hb, isEmpty_eq_countIx ha hb hla hlb]

/-- A push into a content below `N - 1` elements appends to it. -/
theorem push_appends (hn : n ≤ 256) (hl : r.Legal n) (hroom : (r.content n).length < n - 1) (v : Byte) :
    ∃ r', r.push n v = .ok (r', true) ∧ r'.Legal n ∧ r'.content n = r.content n ++ [some v] := by
  obtain ⟨a, b, ha, hb, hla, hlb⟩ := hl
  have h0 : 0 < n := by omega
  have hne : nextIx n b ≠ a := by
    rw [content_length ha hb] at hroom
    rw [Ne, nextIx_eq_iff h0 hn, succ_mod_eq_iff hla hlb]
    omega
  exact ⟨_, push_room ha hb hlb hne, ⟨a, _, ha, stored_endIx, hla, nextIx_lt h0 hn b⟩, content_append hn ha hb hla hlb hne⟩

/-- A push into a content of `N - 1` elements changes nothing. -/
theorem push_fails (hn : n ≤ 256) (hl : r.Legal n) (hfull : n - 1 ≤ (r.content n).length) (v : Byte) :
    r.push n v = .ok (r, false) := by
  have hle := content_length_le hl
  obtain ⟨a, b, ha, hb, hla, hlb⟩ := hl
  rw [content_length ha hb] at hfull hle
  refine push_full ha hb ?_
  rw [nextIx_eq_iff (by omega) hn, succ_mod_eq_iff hla hlb]
  omega

/-- What a push does to the content, whether it succeeds, and that it always answers. -/
theorem push_content (hn : n ≤ 256) (hl : r.Legal n) (v : Byte) :
    ∃ r' ok, r.push n v = .ok (r', ok) ∧ r'.Legal n ∧ (ok = true ↔ (r.content n).length < n - 1) ∧
      r'.content n = if ok = true then r.content n ++ [some v] else r.content n := by
  rcases Nat.lt_or_ge (r.content n).length (n - 1) with hroom | hfull
  · obtain ⟨r', hpush, hl', hcontent⟩ := push_appends hn hl hroom v
    exact ⟨r', true, hpush, hl', by simp [hroom], by simpa using hcontent⟩
  · exact ⟨r, false, push_fails hn hl hfull v, hl, by simpa using hfull, by simp⟩

/-- A pop that answers took the head of the content. -/
theorem pop_content (hn : n ≤ 256) (hl : r.Legal n) (h : r.pop n = .ok (r', v)) :
    r'.Legal n ∧ r.content n = some v :: r'.content n := by
  obtain ⟨a, b, ha, hb, hla, hlb⟩ := hl
  obtain ⟨a', b', ha', hb', hne, -, hread, rfl⟩ := pop_ok h
  obtain rfl : a = a' := by simpa [ha] using ha'
  obtain rfl : b = b' := by simpa [hb] using hb'
  exact ⟨⟨_, b, taken_startIx, hb, nextIx_lt (by omega) hn a, hlb⟩, hread ▸ content_eq_cons hn ha hb hla hlb hne⟩

/-- A pop answers the head of the content and leaves the tail. -/
theorem pop_head {rest : List (Option Byte)} (hn : n ≤ 256) (hl : r.Legal n) (h : r.content n = some v :: rest) :
    ∃ r', r.pop n = .ok (r', v) ∧ r'.Legal n ∧ r'.content n = rest := by
  obtain ⟨a, b, ha, hb, hla, hlb⟩ := hl
  have hne : a ≠ b := by
    rintro rfl
    simp [content_eq_nil ha hb] at h
  have hcons := content_eq_cons hn ha hb hla hlb hne
  obtain ⟨hread, hrest⟩ := List.cons.inj (hcons.symm.trans h)
  exact ⟨_, pop_written ha hb hla hne hread, ⟨_, b, taken_startIx, hb, nextIx_lt (by omega) hn a, hlb⟩, hrest⟩

end Sys2Proof.Machine
end

section
/-! Sequences of calls on a ring buffer (40_ringbuffer_ops.md R91, R96 to R98). -/

namespace Sys2Proof.Machine

open Sys2Proof.Safety

variable {n : Nat} {r : Ring} {v : Byte} {cs ds : List Call} {c d : Calls}

/-! ### One call and then the others -/

theorem runCalls_push_iff : runCalls n (.push v :: cs) r = .ok c ↔
    ∃ r' ok c', r.push n v = .ok (r', ok) ∧ runCalls n cs r' = .ok c' ∧
      c = { c' with accepted := if ok = true then v :: c'.accepted else c'.accepted } := by
  constructor
  · intro h
    rw [runCalls] at h
    split at h
    case h_1 => cases h
    case h_2 r' ok hpush =>
      split at h
      case h_1 => cases h
      case h_2 c' hrun => cases h; exact ⟨r', ok, c', hpush, hrun, rfl⟩
  · rintro ⟨r', ok, c', hpush, hrun, rfl⟩
    simp [runCalls, hpush, hrun]

theorem runCalls_pop_iff : runCalls n (.pop :: cs) r = .ok c ↔
    ∃ r' v c', r.pop n = .ok (r', v) ∧ runCalls n cs r' = .ok c' ∧ c = { c' with popped := v :: c'.popped } := by
  constructor
  · intro h
    rw [runCalls] at h
    split at h
    case h_1 => cases h
    case h_2 r' v hpop =>
      split at h
      case h_1 => cases h
      case h_2 c' hrun => cases h; exact ⟨r', v, c', hpop, hrun, rfl⟩
  · rintro ⟨r', v, c', hpop, hrun, rfl⟩
    simp [runCalls, hpop, hrun]

theorem runCalls_append (hc : runCalls n cs r = .ok c) (hd : runCalls n ds c.ring = .ok d) :
    runCalls n (cs ++ ds) r =
      .ok { ring := d.ring, accepted := c.accepted ++ d.accepted, popped := c.popped ++ d.popped } := by
  induction cs generalizing r c with
  | nil => cases hc; simpa using hd
  | cons call cs ih =>
    cases call with
    | push v =>
      obtain ⟨r', ok, c', hpush, hrun, rfl⟩ := runCalls_push_iff.1 hc
      exact runCalls_push_iff.2 ⟨r', ok, _, hpush, ih hrun hd, by cases ok <;> simp⟩
    | pop =>
      obtain ⟨r', v, c', hpop, hrun, rfl⟩ := runCalls_pop_iff.1 hc
      exact runCalls_pop_iff.2 ⟨r', v, _, hpop, ih hrun hd, by simp⟩

/-! ### The content after a sequence -/

/-- Nothing is lost, duplicated or reordered: what was popped, and then what is left, is what was there, and then what was
accepted (R98). -/
theorem runCalls_content (hn : n ≤ 256) (hl : r.Legal n) (h : runCalls n cs r = .ok c) :
    c.ring.Legal n ∧ c.popped.map some ++ c.ring.content n = r.content n ++ c.accepted.map some := by
  induction cs generalizing r c with
  | nil => cases h; exact ⟨hl, by simp⟩
  | cons call cs ih =>
    cases call with
    | push v =>
      obtain ⟨r', ok, c', hpush, hrun, rfl⟩ := runCalls_push_iff.1 h
      obtain ⟨r'', ok', hpush', hl', -, hcontent⟩ := push_content hn hl v
      obtain ⟨rfl, rfl⟩ : r' = r'' ∧ ok = ok' := by simpa [hpush] using hpush'
      obtain ⟨hlc, heq⟩ := ih hl' hrun
      exact ⟨hlc, by cases ok <;> simp [heq, hcontent]⟩
    | pop =>
      obtain ⟨r', v, c', hpop, hrun, rfl⟩ := runCalls_pop_iff.1 h
      obtain ⟨hl', hcontent⟩ := pop_content hn hl hpop
      obtain ⟨hlc, heq⟩ := ih hl' hrun
      exact ⟨hlc, by simp [heq, hcontent]⟩

/-- Pushes that fit all succeed, in order. -/
theorem runCalls_pushes (hn : n ≤ 256) (hl : r.Legal n) (vs : List Byte)
    (hfit : (r.content n).length + vs.length ≤ n - 1) :
    ∃ c, runCalls n (vs.map Call.push) r = .ok c ∧ c.accepted = vs ∧ c.popped = [] ∧ c.ring.Legal n ∧
      c.ring.content n = r.content n ++ vs.map some := by
  induction vs generalizing r with
  | nil => exact ⟨_, rfl, rfl, rfl, hl, by simp⟩
  | cons v vs ih =>
    rw [List.length_cons] at hfit
    obtain ⟨r', hpush, hl', hcontent⟩ := push_appends hn hl (by omega) v
    have hfit' : (r'.content n).length + vs.length ≤ n - 1 := by
      rw [hcontent, List.length_append, List.length_singleton]; omega
    obtain ⟨c, hrun, hacc, hpop, hlc, hc⟩ := ih hl' hfit'
    exact ⟨_, runCalls_push_iff.2 ⟨r', true, c, hpush, hrun, rfl⟩, by simp [hacc], hpop, hlc, by simp [hc, hcontent]⟩

/-- Pops give back the elements at the front of the content, in order. -/
theorem runCalls_pops (hn : n ≤ 256) (hl : r.Legal n) (vs : List Byte) {rest : List (Option Byte)}
    (hcontent : r.content n = vs.map some ++ rest) :
    ∃ c, runCalls n (vs.map fun _ => Call.pop) r = .ok c ∧ c.accepted = [] ∧ c.popped = vs := by
  induction vs generalizing r with
  | nil => exact ⟨_, rfl, rfl, rfl⟩
  | cons v vs ih =>
    obtain ⟨r', hpop, hl', hcontent'⟩ := pop_head hn hl hcontent
    obtain ⟨c, hrun, hacc, hpopped⟩ := ih hl' hcontent'
    exact ⟨_, runCalls_pop_iff.2 ⟨r', v, c, hpop, hrun, rfl⟩, hacc, by simp [hpopped]⟩

theorem runCalls_pushes_then_pops (hn : n ≤ 256) (h0 : 0 < n) (r : Ring) (vs : List Byte) (hfit : vs.length ≤ n - 1) :
    ∃ c, runCalls n (vs.map Call.push ++ vs.map fun _ => Call.pop) r.clear = .ok c ∧
      c.accepted = vs ∧ c.popped = vs := by
  obtain ⟨c, hc, hacc, hpop, hl, hcontent⟩ :=
    runCalls_pushes hn (legal_clear (r := r) h0) vs (by simpa [content_clear] using hfit)
  obtain ⟨d, hd, hacc', hpop'⟩ := runCalls_pops hn hl vs (rest := []) (by simpa [content_clear] using hcontent)
  exact ⟨_, runCalls_append hc hd, by simp [hacc, hacc'], by simp [hpop, hpop']⟩

/-- From a cleared buffer, empty means that every accepted push was matched by a pop (R91). -/
theorem isEmpty_runCalls_clear (hn : n ≤ 256) (h0 : 0 < n) (h : runCalls n cs r.clear = .ok c) :
    c.ring.isEmpty = .ok (decide (c.accepted.length = c.popped.length)) := by
  obtain ⟨hl, heq⟩ := runCalls_content hn (legal_clear h0) h
  have hlen : c.popped.length + (c.ring.content n).length = c.accepted.length := by
    simpa [content_clear] using congrArg List.length heq
  rw [isEmpty_eq_content hl, Except.ok.injEq, decide_eq_decide]
  omega

/-- Settles O13, part by part from the laws of the bounded queue. -/
theorem contentFollowsTheQueueLaw : Obligations.ContentFollowsTheQueueLaw := by
  intro n r a b h2 hn ha hb hla hlb
  have hn' : n ≤ 256 := by omega
  have hl : r.Legal n := ⟨a, b, ha, hb, hla, hlb⟩
  refine ⟨content_length ha hb, fun k hk => ?slot, fun v => ?push, fun v rest hcontent => ?pop, content_clear n r,
    runCalls_pushes_then_pops hn' (by omega) r⟩
  case slot => simp [content_eq ha hb, hk]
  case push =>
    obtain ⟨r', ok, hpush, -, -, hcontent⟩ := push_content hn' hl v
    exact ⟨r', ok, hpush, hcontent⟩
  case pop =>
    obtain ⟨r', hpop, -, hrest⟩ := pop_head hn' hl hcontent
    exact ⟨r', hpop, hrest⟩

/-- Settles O14: fifteen pushes bring an empty buffer of sixteen slots to the bound of its content. -/
theorem capacityIsOneLessThanTheSlots : Obligations.CapacityIsOneLessThanTheSlots := by
  refine ⟨fun n r a b h2 hn ha hb hla hlb => ?bound, fun r a vs ha hb hla hvs => ?fifteen⟩
  case bound =>
    have hl : r.Legal n := ⟨a, b, ha, hb, hla, hlb⟩
    refine ⟨content_length_le hl, fun v => ?_⟩
    obtain ⟨r', ok, hpush, -, hok, -⟩ := push_content (by omega) hl v
    exact ⟨r', ok, hpush, hok⟩
  case fifteen =>
    have hempty : r.content 16 = [] := content_eq_nil ha hb
    obtain ⟨c, hrun, hacc, -, hl, hcontent⟩ :=
      runCalls_pushes (by omega) ⟨a, a, ha, hb, hla, hla⟩ vs (by simp [hempty, hvs])
    exact ⟨c, hrun, hacc, push_fails (by omega) hl (by simp [hcontent, hempty, hvs])⟩

end Sys2Proof.Machine
end

section
/-! The raw ring buffer stimuli: what each answers, and its frame (40_ringbuffer_ops.md R90 to R94). -/

namespace Sys2Proof.Machine

open Sys2Proof.Safety

variable {s : State} {f : Inst} {r : Ring} {v : Byte} {ok : Bool} {e : Fault}

/-! ### The gate and the answers -/

theorem asMainline_ready (h : s.ready = true) (k : Out) : asMainline s k = k := by simp [asMainline, h]

theorem asMainline_busy (h : s.ready = false) (k : Out) : asMainline s k = .refused .mainlineBusy := by
  simp [asMainline, h]

theorem exec_rbClear (hr : s.ready = true) : exec (.rbClear f) s = .next (s.setRing f (s.ring f).clear) :=
  asMainline_ready hr _

theorem exec_rbIsEmpty_ok (hr : s.ready = true) (h : (s.ring f).isEmpty = .ok ok) :
    exec (.rbIsEmpty f) s = .next (s.log (.bool ok)) := by
  simp [exec, execRbIsEmpty, asMainline_ready hr, h]

theorem exec_rbIsEmpty_error (hr : s.ready = true) (h : (s.ring f).isEmpty = .error e) :
    exec (.rbIsEmpty f) s = .fault e := by
  simp [exec, execRbIsEmpty, asMainline_ready hr, h]

theorem exec_rbIsFull_ok (hr : s.ready = true) (h : (s.ring f).isFull (s.cap f) = .ok ok) :
    exec (.rbIsFull f) s = .next (s.log (.bool ok)) := by
  simp [exec, execRbIsFull, asMainline_ready hr, h]

theorem exec_rbIsFull_error (hr : s.ready = true) (h : (s.ring f).isFull (s.cap f) = .error e) :
    exec (.rbIsFull f) s = .fault e := by
  simp [exec, execRbIsFull, asMainline_ready hr, h]

theorem exec_rbPush_ok (hr : s.ready = true) (h : (s.ring f).push (s.cap f) v = .ok (r, ok)) :
    exec (.rbPush f v) s = .next ((s.setRing f r).log (.bool ok)) := by
  simp [exec, execRbPush, asMainline_ready hr, h]

theorem exec_rbPush_error (hr : s.ready = true) (h : (s.ring f).push (s.cap f) v = .error e) :
    exec (.rbPush f v) s = .fault e := by
  simp [exec, execRbPush, asMainline_ready hr, h]

theorem exec_rbPop_ok (hr : s.ready = true) (h : (s.ring f).pop (s.cap f) = .ok (r, v)) :
    exec (.rbPop f) s = .next ((s.setRing f r).log (.byte v)) := by
  simp [exec, execRbPop, asMainline_ready hr, h]

theorem exec_rbPop_error (hr : s.ready = true) (h : (s.ring f).pop (s.cap f) = .error e) :
    exec (.rbPop f) s = .fault e := by
  simp [exec, execRbPop, asMainline_ready hr, h]

/-! ### The frame -/

theorem otherRingsSame_setRing (s : State) (f : Inst) (r : Ring) : otherRingsSame f s (s.setRing f r) :=
  fun _ hg => ring_setRing_other s hg r

theorem otherRingsSame_setRing_log (s : State) (f : Inst) (r : Ring) (l : Logged) :
    otherRingsSame f s ((s.setRing f r).log l) :=
  fun g hg => (log_ring _ l g).trans (ring_setRing_other s hg r)

theorem sameButRings_setRing (s : State) (f : Inst) (r : Ring) : SameButRings s (s.setRing f r) := by
  constructor <;> simp

theorem sameButRings_setRing_log (s : State) (f : Inst) (r : Ring) (l : Logged) :
    SameButRings s ((s.setRing f r).log l) := by
  constructor <;> simp

theorem capOk_iff : s.cfg.capOk f = true ↔ 2 ≤ s.cap f ∧ s.cap f ≤ 255 := by
  simp [Params.capOk, State.cap]

/-! ### The obligations -/

/-- Settles O8: two equal indices are an empty content, and the successor of 0 is 1 because `N` is at least 2. -/
theorem clearEmptiesTheInstance : Obligations.ClearEmptiesTheInstance := by
  refine ⟨fun f s => ⟨fun hr => ⟨_, exec_rbClear hr, ?_⟩, fun hb => asMainline_busy hb _⟩, rfl, rfl, rfl⟩
  rw [ring_setRing_same]
  refine ⟨rfl, rfl, fun _ => rfl, rfl, fun h2 => ?notFull, content_clear _ _, otherRingsSame_setRing s f _,
    sameButRings_setRing s f _, by simp⟩
  case notFull =>
    have hne : nextIx (s.cap f) 0 ≠ 0 := by simp [nextIx, Nat.mod_eq_of_lt h2]
    simp only [Ring.isFull, indices_eq (clear_startIx _) (clear_endIx _), isFullIx, decide_eq_false hne]

/-- Settles O9: the sequence law is that of `isEmpty_runCalls_clear`, which counts both sides of `runCalls_content`. -/
theorem isEmptyLogsWhetherPushesAreMatched : Obligations.IsEmptyLogsWhetherPushesAreMatched := by
  refine ⟨fun f s a b hr ⟨ha, hb⟩ => exec_rbIsEmpty_ok hr (isEmpty_eq ha hb),
    fun f s hr hnone => exec_rbIsEmpty_error hr (isEmpty_none hnone), fun f s hb => asMainline_busy hb _,
    fun n r cs c h2 hn hrun => isEmpty_runCalls_clear (by omega) (by omega) hrun, rfl, rfl, rfl⟩

/-- Settles O10: a legal `end` is at most 254. -/
theorem isFullLogsWhetherOneSlotIsLeft : Obligations.IsFullLogsWhetherOneSlotIsLeft := by
  refine ⟨fun f s a b hr ⟨ha, hb⟩ hcap => ?_, fun f s hr hnone => exec_rbIsFull_error hr (isFull_none hnone),
    fun f s hb => asMainline_busy hb _, rfl, rfl, rfl⟩
  obtain ⟨h2, hn⟩ := capOk_iff.1 hcap
  exact ⟨exec_rbIsFull_ok hr (isFull_eq (by omega) (by omega) ha hb),
    fun hla hlb => ⟨succ_mod_eq_iff hla hlb, by omega⟩⟩

/-- Settles O11: room is `nextIx end ≠ start`, and a stored element raises the count by one. -/
theorem pushStoresAtEndOrReportsFull : Obligations.PushStoresAtEndOrReportsFull := by
  refine ⟨fun f v s a b hr ⟨ha, hb⟩ hcap hla hlb => ?_,
    fun f v s hr hnone => exec_rbPush_error hr (push_none hnone), fun f v s hb => asMainline_busy hb _,
    fun v => ⟨rfl, rfl, rfl⟩⟩
  obtain ⟨h2, hn⟩ := capOk_iff.1 hcap
  have h0 : 0 < s.cap f := by omega
  have hn' : s.cap f ≤ 256 := by omega
  simp only [ne_eq, ← nextIx_eq_iff h0 hn']
  split
  case isTrue hroom =>
    have hlnext := nextIx_lt h0 hn' b
    have hcount := countIx_nextIx_end hn' hla hlb hroom
    refine ⟨_, exec_rbPush_ok hr (push_room ha hb hlb hroom), ?_⟩
    rw [log_ring, ring_setRing_same]
    refine ⟨ha, rfl, memory_read_write_same _ _ _, fun i hi => memory_read_write_other _ _ hi, ?empty, ?full,
      otherRingsSame_setRing_log s f _ _, sameButRings_setRing_log s f _ _, by simp⟩
    case empty => simp [isEmpty_eq_countIx (stored_startIx.trans ha) stored_endIx hla hlnext, hcount]
    case full => rw [isFull_eq_countIx hn' (stored_startIx.trans ha) stored_endIx hla hlnext, hcount]
  case isFalse hfull =>
    have hexec := exec_rbPush_ok hr (push_full (v := v) ha hb (not_not.1 hfull))
    rwa [setRing_ring_self] at hexec

/-- Settles O12: an element taken lowers the count by one, below the `N - 1` of a full buffer. -/
theorem popTakesFromStartOrFaultsWhenEmpty : Obligations.PopTakesFromStartOrFaultsWhenEmpty := by
  refine ⟨fun f s a b v hr ⟨ha, hb⟩ hcap hla hlb hne hread => ?_,
    fun f s a hr ⟨ha, hb⟩ => exec_rbPop_error hr (pop_empty ha hb),
    fun f s a b hr ⟨ha, hb⟩ hne hla hread => exec_rbPop_error hr (pop_unwritten ha hb hla hne hread),
    fun f s hr hnone => exec_rbPop_error hr (pop_none hnone), fun f s hb => asMainline_busy hb _, rfl, rfl, rfl⟩
  obtain ⟨h2, hn⟩ := capOk_iff.1 hcap
  have hn' : s.cap f ≤ 256 := by omega
  have hlnext := nextIx_lt (by omega) hn' a
  have hcount := countIx_nextIx_start hn' hla hlb hne
  have hlt := countIx_lt hla hlb
  refine ⟨_, exec_rbPop_ok hr (pop_written ha hb hla hne hread), ?_⟩
  rw [log_ring, ring_setRing_same]
  refine ⟨rfl, hb, fun _ => rfl, ?full, ?empty, otherRingsSame_setRing_log s f _ _, sameButRings_setRing_log s f _ _,
    by simp⟩
  case full =>
    rw [isFull_eq_countIx hn' taken_startIx (taken_endIx.trans hb) hlnext hlb, Except.ok.injEq, decide_eq_false_iff_not]
    omega
  case empty => simp [isEmpty_eq_countIx taken_startIx (taken_endIx.trans hb) hlnext hlb, hcount]

end Sys2Proof.Machine
end

section
/-! `ST.CONFIGURE`: its bytes, its numbers and what it answers (41_serial_transport_ops.md R100 to R102). -/

namespace Sys2Proof.Machine

variable {s : State} {rate : Rate} {tol : Byte} {q16 d : Nat} {exceeds : Bool}

/-- The little-endian bytes of the encoder are the four byte slices of the rate (30_encoding.md R66). -/
theorem rateBytes_eq_extractLsb' (rate : Rate) : rateBytes rate =
    [rate.extractLsb' 0 8, rate.extractLsb' 8 8, rate.extractLsb' 16 8, rate.extractLsb' 24 8] := by
  simp only [rateBytes, BitVec.extractLsb', Nat.shiftRight_eq_div_pow, Nat.reducePow, Nat.div_one]

/-- The 16x quotient rounds to 0 exactly above an eighth of the clock (R102). -/
theorem roundDiv_sixteen_eq_zero_iff {fClk rate : Nat} (h0 : rate ≠ 0) :
    (2 * fClk + 16 * rate) / (32 * rate) = 0 ↔ fClk < 8 * rate := by
  rw [Nat.div_eq_zero_iff]
  omega

/-- The model's test on naturals is the threshold test on exact integers (R100, R101(b)). -/
theorem exceedsTol_iff (fClk rate tol q16 : Nat) : exceedsTol fClk rate tol q16 = true ↔
    (tol : Int) * (16 * q16 * rate) < 100 * |(fClk : Int) - 16 * q16 * rate| := by
  rw [exceedsTol, decide_eq_true_iff, gt_iff_lt, ← Int.ofNat_lt]
  push_cast
  rfl

/-- The gates of `ST.CONFIGURE`, over the numbers of the pseudocode (R100): `exceeds` is the outcome of the threshold
test, `d` the divisor. -/
theorem exec_stConfigure_ready (hr : s.ready = true)
    (hq : q16 = (2 * s.cfg.fClk + 16 * rate.toNat) / (32 * rate.toNat))
    (hx : exceeds = true ↔
      (tol.toNat : Int) * (16 * q16 * rate.toNat) < 100 * |(s.cfg.fClk : Int) - 16 * q16 * rate.toNat|)
    (hd : d = (if exceeds = true then (2 * s.cfg.fClk + 8 * rate.toNat) / (16 * rate.toNat) - 1 else q16 - 1)) :
    exec (.stConfigure rate tol) s =
      require (decide (rate.toNat ≠ 0)) .badRate
        (require (decide (q16 ≠ 0)) .badRate
          (require (decide (d < 2 ^ s.cfg.divBits)) .divisorOverflow
            (.next { s with st := { s.st with ubrr := some d, u2x := some exceeds, configured := true } }))) := by
  have hq16 : roundDiv s.cfg.fClk 16 rate.toNat = q16 := hq.symm
  have htest : exceedsTol s.cfg.fClk rate.toNat tol.toNat q16 = exceeds :=
    Bool.eq_iff_iff.2 ((exceedsTol_iff _ _ _ _).trans hx.symm)
  have hchoice : chooseRate s.cfg.fClk rate.toNat tol.toNat q16 = (d, exceeds) := by
    rw [chooseRate, htest, hd]
    cases exceeds <;> rfl
  simp only [exec, execStConfigure, asMainline_ready hr, hq16, hchoice]

/-- Rate 0 and the 16x quotient 0 are refused alike, whatever the tolerance (R102). -/
theorem exec_stConfigure_badRate (hr : s.ready = true)
    (hbad : rate.toNat = 0 ∨ (2 * s.cfg.fClk + 16 * rate.toNat) / (32 * rate.toNat) = 0) :
    exec (.stConfigure rate tol) s = .refused .badRate := by
  have hq16 : roundDiv s.cfg.fClk 16 rate.toNat = (2 * s.cfg.fClk + 16 * rate.toNat) / (32 * rate.toNat) := rfl
  simp only [exec, execStConfigure, asMainline_ready hr]
  by_cases h0 : rate.toNat = 0
  · simp [h0]
  · simp [h0, hq16, hbad.resolve_left h0]

/-- Settles O16: each case is read off the gates. -/
theorem configureWritesDivisorAndMode : Obligations.ConfigureWritesDivisorAndMode := by
  intro rate tol s q16 d exceeds hq hx hd
  have hgates := fun hr => exec_stConfigure_ready (s := s) hr hq hx hd
  refine ⟨fun hr h0 hq0 hfit => ?writes, fun hb => asMainline_busy hb _, fun hr hbad => ?badRate,
    fun hr h0 hq0 hover => ?overflow, ?bytes⟩
  case writes => simp only [hgates hr, h0, hq0, hfit, ne_eq, not_false_eq_true, decide_true, require_true]
  case badRate => exact exec_stConfigure_badRate hr (hq ▸ hbad)
  case overflow => simp [hgates hr, h0, hq0, Nat.not_lt.2 hover]
  case bytes => rw [encode, operandBytes, rateBytes_eq_extractLsb']; rfl

/-- Settles O17: a rate above `F_CLK / 8` is not 0 and makes the 16x quotient 0; the overflow is a case of O16. -/
theorem configureRefusesWhatHasNoMeaning : Obligations.ConfigureRefusesWhatHasNoMeaning := by
  intro rate tol s hr
  refine ⟨fun h0 => exec_stConfigure_badRate hr (.inl h0), roundDiv_sixteen_eq_zero_iff, fun habove => ?above,
    fun q16 d exceeds h0 hq hq0 hx hd hover => ?overflow⟩
  case above =>
    have h0 : rate.toNat ≠ 0 := by omega
    exact exec_stConfigure_badRate hr (.inr ((roundDiv_sixteen_eq_zero_iff h0).2 habove))
  case overflow =>
    obtain ⟨-, -, -, hoverflow, -⟩ := configureWritesDivisorAndMode rate tol s q16 d exceeds hq hx hd
    exact hoverflow hr h0 hq0 hover

end Sys2Proof.Machine
end

section
/-! What a dispatch answers (60_exceptions.md R156, R158, R161), and the two handlers of the serial transport
(41_serial_transport_ops.md R112, R113). -/

namespace Sys2Proof.Machine

variable {s u : State} {x : Source} {body : State → Except Fault State} {r : Ring} {v : Byte} {ok : Bool}

/-! ### The dispatch -/

theorem dispatch_notConfigured (hx : x.serial = true) (hc : s.st.configured = false) :
    dispatch x body s = .refused .notConfigured := by
  simp [dispatch, hx, hc]

/-- The first gate of a dispatch stands open: only the serial handlers ask for a configured transport. -/
theorem configuredGate_open (hc : x.serial = true → s.st.configured = true) :
    (!x.serial || s.st.configured) = true := by
  cases hx : x.serial
  · rfl
  · simpa using hc hx

theorem dispatch_interruptsOff (hc : x.serial = true → s.st.configured = true) (hie : s.sys.ie = false) :
    dispatch x body s = .refused .interruptsOff := by
  simp [dispatch, configuredGate_open hc, hie]

theorem dispatch_noEvent (hc : x.serial = true → s.st.configured = true) (hie : s.sys.ie = true)
    (hp : pending s x = false) : dispatch x body s = .refused .noEvent := by
  simp [dispatch, configuredGate_open hc, hie, hp]

/-- Entry and return leave the platform as it was but for the wait, when the body does not touch it: a dispatch found
interrupts on, so setting the flag again changes nothing. -/
theorem returnFromHandler_eq (hie : s.sys.ie = true) (hu : u.sys = (enterHandler s).sys) :
    returnFromHandler u = { u with sys := { s.sys with sleeping := false } } := by
  simp [returnFromHandler, hu, enterHandler, hie]

theorem dispatch_ok (hc : x.serial = true → s.st.configured = true) (hie : s.sys.ie = true) (hp : pending s x = true)
    (hbody : body (enterHandler s) = .ok u) (hu : u.sys = (enterHandler s).sys) :
    dispatch x body s = .next { u with sys := { s.sys with sleeping := false } } := by
  simp [dispatch, configuredGate_open hc, hie, hp, hbody, returnFromHandler_eq hie hu]

/-! ### The handlers -/

theorem exec_stIsrTx_empty (hc : s.st.configured = true) (hie : s.sys.ie = true) (hev : s.st.txdEmpty = true)
    (he : s.serTx.isEmpty = .ok true) :
    exec .stIsrTx s = .next { s with sys := { s.sys with sleeping := false } } := by
  have hbody : isrTxBody (enterHandler s) = .ok (enterHandler s) := by simp [isrTxBody, he]
  exact dispatch_ok (u := enterHandler s) (fun _ => hc) hie (by simp [pending, hc, hev]) hbody rfl

theorem exec_stIsrTx_pop (hc : s.st.configured = true) (hie : s.sys.ie = true) (hev : s.st.txdEmpty = true)
    (he : s.serTx.isEmpty = .ok false) (hpop : s.serTx.pop (s.cap .serTx) = .ok (r, v)) :
    exec .stIsrTx s = .next { s with
      serTx := r, st := { s.st with txd := some v, txdEmpty := false }, sys := { s.sys with sleeping := false } } := by
  have hbody : isrTxBody (enterHandler s) =
      .ok { enterHandler s with serTx := r, st := { s.st with txd := some v, txdEmpty := false } } := by
    simp [isrTxBody, he, hpop]
  exact dispatch_ok (fun _ => hc) hie (by simp [pending, hc, hev]) hbody rfl

/-- The register is retired whether or not the push stored the byte (R113). -/
theorem exec_stIsrRx_push (hc : s.st.configured = true) (hie : s.sys.ie = true) (hev : s.st.rxdFull = true)
    (hv : s.st.rxd = some v) (hpush : s.serRx.push (s.cap .serRx) v = .ok (r, ok)) :
    exec .stIsrRx s = .next { s with
      serRx := r, st := { s.st with rxdFull := false }, sys := { s.sys with sleeping := false } } := by
  have hbody : isrRxBody (enterHandler s) =
      .ok { enterHandler s with serRx := r, st := { s.st with rxdFull := false } } := by
    simp [isrRxBody, hv, hpush]
  exact dispatch_ok (fun _ => hc) hie (by simp [pending, hc, hev]) hbody rfl

/-! ### The obligations -/

/-- Settles O25: the two branches are those of the emptiness test, on indices that hold values `start = end`. -/
theorem transmitReadyHandlerMovesOneByte : Obligations.TransmitReadyHandlerMovesOneByte := by
  intro s a b
  refine ⟨fun hc hie hev ⟨ha, hb⟩ => ⟨fun hab => ?empty, fun v hne hcap hla hlb hread => ?moves⟩,
    dispatch_notConfigured rfl, fun hc hie => dispatch_interruptsOff (fun _ => hc) hie,
    fun hc hie hev => dispatch_noEvent (fun _ => hc) hie (by simp [pending, hev]), rfl⟩
  case empty => exact exec_stIsrTx_empty hc hie hev (by simpa [hab] using isEmpty_eq ha hb)
  case moves =>
    exact exec_stIsrTx_pop hc hie hev (by simpa [hne] using isEmpty_eq ha hb) (pop_written ha hb hla hne hread)

/-- Settles O26: one equation for both branches, with the buffer that the push leaves, stored or full. -/
theorem receiveReadyHandlerStoresOrDrops : Obligations.ReceiveReadyHandlerStoresOrDrops := by
  intro s a b v
  refine ⟨fun hc hie hev hv ⟨ha, hb⟩ hcap hla hlb => ?answers, dispatch_notConfigured rfl,
    fun hc hie => dispatch_interruptsOff (fun _ => hc) hie,
    fun hc hie hev => dispatch_noEvent (fun _ => hc) hie (by simp [pending, hev]), rfl⟩
  case answers =>
    obtain ⟨h2, hn⟩ := capOk_iff.1 hcap
    simp only [ne_eq, ← nextIx_eq_iff (n := s.cap .serRx) (by omega) (by omega)]
    by_cases hfull : nextIx (s.cap .serRx) b = a
    · refine ⟨_, exec_stIsrRx_push hc hie hev hv (push_full ha hb hfull), ?_⟩
      simp [hfull]
    · refine ⟨_, exec_stIsrRx_push hc hie hev hv (push_room ha hb hlb hfull), ?_⟩
      rw [if_pos hfull]
      exact ⟨rfl, rfl, ⟨ha, rfl, memory_read_write_same _ _ _, fun i hi => memory_read_write_other _ _ hi⟩,
        rfl, rfl, rfl, rfl, rfl, rfl, rfl⟩

end Sys2Proof.Machine
end

section
/-! The clock-edge handler of the link decoder (42_clocked_link_decoder_ops.md R120, R124). -/

namespace Sys2Proof.Machine

variable {s u : State} {b ok : Bool} {buf : Byte} {r : Ring}

/-! ### The frame machine -/

/-- In state 10 the sample is not used, and the reset is the same whether or not the push stored the byte (R124). -/
theorem frameStep_stop (hc : s.cl.bitCount = some 10) (hbuf : s.cl.bitBuffer = some buf)
    (hpush : s.linkRx.push (s.cap .linkRx) buf = .ok (r, ok)) :
    frameStep b s = .ok (frameReset { s with linkRx := r }) := by
  simp [frameStep, stateStop, hc, hbuf, hpush]

/-! ### The handler -/

/-- A dispatched edge answers with what the frame machine makes of the sample, once the latch is retired (R120). -/
theorem exec_clIsrEdge_ok (hie : s.sys.ie = true) (hp : s.cl.clkPend = true) (hb : s.cl.clkSamp = some b)
    (hframe : frameStep b { enterHandler s with cl := { s.cl with clkPend := false } } = .ok u)
    (hu : u.sys = (enterHandler s).sys) :
    exec .clIsrEdge s = .next { u with sys := { s.sys with sleeping := false } } := by
  have hbody : isrEdgeBody (enterHandler s) = .ok u := by simpa [isrEdgeBody, hb] using hframe
  exact dispatch_ok (x := .clki) (by simp [Source.serial]) hie hp hbody hu

theorem exec_clIsrEdge_stop (hie : s.sys.ie = true) (hp : s.cl.clkPend = true) (hb : s.cl.clkSamp = some b)
    (hc : s.cl.bitCount = some 10) (hbuf : s.cl.bitBuffer = some buf)
    (hpush : s.linkRx.push (s.cap .linkRx) buf = .ok (r, ok)) :
    exec .clIsrEdge s = .next { s with
      linkRx := r
      cl := { s.cl with clkPend := false, bitCount := some 0, bitBuffer := some 0, parityAcc := some false }
      sys := { s.sys with sleeping := false } } := by
  have hframe : frameStep b { enterHandler s with cl := { s.cl with clkPend := false } } =
      .ok (frameReset { enterHandler s with linkRx := r, cl := { s.cl with clkPend := false } }) :=
    frameStep_stop hc hbuf hpush
  exact exec_clIsrEdge_ok hie hp hb hframe rfl

/-! ### The obligation -/

/-- Settles O30: one equation for every stop bit, with the buffer that the push leaves, stored or full. -/
theorem stopStateAcceptsTheFrame : Obligations.StopStateAcceptsTheFrame := by
  intro s stop i j buf hie hp hb hc hbuf ⟨hi, hj⟩ hcap hli hlj
  obtain ⟨h2, hn⟩ := capOk_iff.1 hcap
  simp only [ne_eq, ← nextIx_eq_iff (n := s.cap .linkRx) (by omega) (by omega)]
  by_cases hfull : nextIx (s.cap .linkRx) j = i
  · refine ⟨_, exec_clIsrEdge_stop hie hp hb hc hbuf (push_full hi hj hfull), ?_⟩
    simp [hfull]
  · refine ⟨_, exec_clIsrEdge_stop hie hp hb hc hbuf (push_room hi hj hlj hfull), ?_⟩
    rw [if_pos hfull]
    exact ⟨rfl, rfl, ⟨hi, rfl, memory_read_write_same _ _ _, fun k hk => memory_read_write_other _ _ hk⟩,
      rfl, rfl, rfl, rfl, rfl, rfl, rfl⟩

end Sys2Proof.Machine
end

section
/-! The platform stimuli and the environment events: what each answers, and the wake-up by a handler
(43_system_env_ops.md R135 to R143). -/

namespace Sys2Proof.Machine

open Sys2Proof.Safety

variable {s t : State} {v : Byte}

/-! ### Reset -/

@[simp] theorem resetWith_ring (p : Params) (bs : List Byte) (ts : List Turn) (f : Inst) :
    (State.resetWith p bs ts).ring f = Ring.reset := by
  cases f <;> rfl

theorem exec_sysReset (s : State) : exec .sysReset s = .next (State.resetWith s.cfg s.stream s.turns) := rfl

/-- Settles O35: the three ring buffers are reset alike; every other piece of state is named by the reset state itself. -/
theorem resetLeavesTheResetState : Obligations.ResetLeavesTheResetState := by
  refine ⟨fun s => ⟨_, exec_sysReset s, fun f => ?ring, rfl, rfl, rfl, rfl, rfl, rfl, rfl⟩, rfl⟩
  case ring =>
    rw [resetWith_ring]
    exact ⟨rfl, rfl, fun _ => rfl⟩

/-! ### The mainline stimuli of the platform -/

theorem exec_sysInit (hr : s.ready = true) (hie : s.sys.ie = false) : exec .sysInit s =
    .next (frameReset { s with serRx := s.serRx.clear, serTx := s.serTx.clear, linkRx := s.linkRx.clear }) := by
  simp [exec, execSysInit, asMainline_ready hr, hie]

theorem exec_sysInit_interruptsOn (hr : s.ready = true) (hie : s.sys.ie = true) :
    exec .sysInit s = .refused .interruptsOn := by
  simp [exec, execSysInit, asMainline_ready hr, hie]

/-- Settles O36: clearing the buffers and resetting the frame, written out, is the state the statement names. -/
theorem initClearsIndicesAndFrame : Obligations.InitClearsIndicesAndFrame :=
  ⟨fun _ => ⟨exec_sysInit, exec_sysInit_interruptsOn, fun hb => asMainline_busy hb _⟩, rfl⟩

theorem exec_sysIrqOn (hr : s.ready = true) :
    exec .sysIrqOn s = .next { s with sys := { s.sys with ie := true } } :=
  asMainline_ready hr _

theorem exec_sysIrqOff (hr : s.ready = true) :
    exec .sysIrqOff s = .next { s with sys := { s.sys with ie := false } } :=
  asMainline_ready hr _

/-- Settles O37: behind the mainline gate each is one write. -/
theorem irqOnAndOffWriteTheFlag : Obligations.IrqOnAndOffWriteTheFlag :=
  ⟨fun _ => ⟨fun hr => ⟨exec_sysIrqOn hr, exec_sysIrqOff hr⟩,
    fun hb => ⟨asMainline_busy hb _, asMainline_busy hb _⟩⟩, rfl, rfl⟩

theorem exec_sysWait (hr : s.ready = true) (hie : s.sys.ie = true) :
    exec .sysWait s = .next { s with sys := { s.sys with sleeping := true } } := by
  simp [exec, execSysWait, asMainline_ready hr, hie]

theorem exec_sysWait_interruptsOff (hr : s.ready = true) (hie : s.sys.ie = false) :
    exec .sysWait s = .refused .interruptsOff := by
  simp [exec, execSysWait, asMainline_ready hr, hie]

/-! ### The wait and its end -/

theorem ready_asleep (h : s.sys.sleeping = true) : s.ready = false := by simp [State.ready, h]

theorem canMove_asleep (h : s.sys.sleeping = true) : s.canMove = false := by simp [State.canMove, h]

theorem mainlineMoves_asleep (h : s.sys.sleeping = true) : s.mainlineMoves = false := by
  simp [State.mainlineMoves, canMove_asleep h]

/-- Every handler stimulus is a dispatch (60_exceptions.md R156). -/
theorem exec_handler_eq_dispatch {i : Instr} (hi : isHandler i = true) : ∃ x body, exec i = dispatch x body := by
  cases i with
  | stIsrTx => exact ⟨.txi, isrTxBody, rfl⟩
  | stIsrRx => exact ⟨.rxi, isrRxBody, rfl⟩
  | clIsrEdge => exact ⟨.clki, isrEdgeBody, rfl⟩
  | _ => cases hi

/-- A handler that ran has returned, and the return ends the wait with interrupts on (60_exceptions.md R156, R161). -/
theorem exec_handler_wakes {i : Instr} (hi : isHandler i = true) (h : exec i s = .next t) :
    t.sys.sleeping = false ∧ t.sys.ie = true := by
  obtain ⟨x, body, hexec⟩ := exec_handler_eq_dispatch hi
  obtain ⟨-, -, u, -, rfl⟩ := dispatch_next (hexec ▸ h)
  exact ⟨returnFromHandler_sleeping u, returnFromHandler_ie u⟩

/-- Settles O38: the handlers wake because each of them is a dispatch. -/
theorem waitSleepsWithInterruptsOn : Obligations.WaitSleepsWithInterruptsOn :=
  ⟨fun _ => ⟨exec_sysWait, exec_sysWait_interruptsOff, fun hb => asMainline_busy hb _,
    fun hsleep => ⟨ready_asleep hsleep, mainlineMoves_asleep hsleep⟩,
    fun _ _ hi h => (exec_handler_wakes hi h).1⟩, rfl⟩

/-! ### The environment events -/

theorem exec_envRxArrive_notConfigured (hc : s.st.configured = false) :
    exec (.envRxArrive v) s = .refused .notConfigured := by
  simp [exec, execEnvRxArrive, hc]

theorem exec_envRxArrive_free (hc : s.st.configured = true) (hfree : s.st.rxdFull = false) :
    exec (.envRxArrive v) s = .next { s with st := { s.st with rxd := some v, rxdFull := true } } := by
  simp [exec, execEnvRxArrive, hc, hfree]

theorem exec_envRxArrive_lost (hc : s.st.configured = true) (hfull : s.st.rxdFull = true) :
    exec (.envRxArrive v) s = .next s := by
  simp [exec, execEnvRxArrive, hc, hfull]

/-- Settles O39: one case per outcome of the gate and of the test on `st.rxd_full`. -/
theorem arrivingByteLoadsOrIsLost : Obligations.ArrivingByteLoadsOrIsLost :=
  fun _ _ => ⟨exec_envRxArrive_notConfigured, exec_envRxArrive_free, exec_envRxArrive_lost, rfl⟩

theorem exec_envTxDone_notConfigured (hc : s.st.configured = false) : exec .envTxDone s = .refused .notConfigured := by
  simp [exec, execEnvTxDone, hc]

theorem exec_envTxDone_noEvent (hc : s.st.configured = true) (hempty : s.st.txdEmpty = true) :
    exec .envTxDone s = .refused .noEvent := by
  simp [exec, execEnvTxDone, hc, hempty]

theorem exec_envTxDone_sent (hc : s.st.configured = true) (hloaded : s.st.txdEmpty = false) (hv : s.st.txd = some v) :
    exec .envTxDone s = .next { s with
      st := { s.st with txdEmpty := true }, obs := { s.obs with wireOut := s.obs.wireOut ++ [v] } } := by
  simp [exec, execEnvTxDone, hc, hloaded, hv]

/-- Settles O40: the two gates, and behind them a register that holds the byte `v`. -/
theorem transmittedByteGoesToTheWire : Obligations.TransmittedByteGoesToTheWire :=
  ⟨fun _ => ⟨exec_envTxDone_notConfigured, exec_envTxDone_noEvent, fun _ => exec_envTxDone_sent⟩, rfl⟩

theorem exec_envClkFall (b : Bool) (s : State) :
    exec (.envClkFall b) s = .next { s with cl := { s.cl with clkSamp := some b, clkPend := true } } := rfl

/-- Settles O41: the event has no gate. -/
theorem fallingEdgeIsLatched : Obligations.FallingEdgeIsLatched := ⟨exec_envClkFall, rfl, rfl⟩

end Sys2Proof.Machine
end

section
/-! The decoder reads what the encoder writes, and nothing else (30_encoding.md R64 to R74). -/

namespace Sys2Proof

variable {bs rest : List Byte} {unit fsel fn : Nat} {i : Instr} {f : Inst}

/-! ### The opcode byte and its fields (R65) -/

/-- An opcode byte is put together from its own three fields. -/
theorem opByte_fields (op : Byte) : opByte (opUnit op) (opFsel op) (opFn op) = op := by
  apply BitVec.eq_of_toNat_eq
  have hlt := op.isLt
  simp only [opByte, opUnit, opFsel, opFn, BitVec.toNat_ofNat]
  omega

/-- The fields of an opcode byte are those it was put together from. -/
theorem decode_opByte (hu : unit < 4) (hs : fsel < 4) (hn : fn < 16) :
    decode (opByte unit fsel fn :: bs) = decodeFields unit fsel fn bs := by
  have hbyte : (opByte unit fsel fn).toNat = unit * 64 + fsel * 16 + fn := by
    simp only [opByte, BitVec.toNat_ofNat]
    omega
  have hunit : opUnit (opByte unit fsel fn) = unit := by rw [opUnit, hbyte]; omega
  have hfsel : opFsel (opByte unit fsel fn) = fsel := by rw [opFsel, hbyte]; omega
  have hfn : opFn (opByte unit fsel fn) = fn := by rw [opFn, hbyte]; omega
  rw [decode, hunit, hfsel, hfn]

@[simp] theorem ofFsel_fsel (f : Inst) : Inst.ofFsel f.fsel = some f := by cases f <;> rfl

theorem fsel_of_ofFsel (h : Inst.ofFsel fsel = some f) : f.fsel = fsel := by
  match fsel with
  | 0 | 1 | 2 => cases h; rfl
  | k + 3 => cases h

theorem decode_rb (f : Inst) (hn : fn < 16) : decode (opByte 0 f.fsel fn :: bs) = decodeRb f fn bs := by
  rw [decode_opByte (by omega) (by cases f <;> decide) hn, decodeFields, if_pos rfl, decodeUnit0, ofFsel_fsel]

theorem decode_st (hn : fn < 16) : decode (opByte 1 0 fn :: bs) = decodeSt fn bs :=
  decode_opByte (by omega) (by omega) hn

theorem decode_cl (hn : fn < 16) : decode (opByte 2 0 fn :: bs) = decodeCl fn bs :=
  decode_opByte (by omega) (by omega) hn

theorem decode_sys (hn : fn < 16) : decode (opByte 3 0 fn :: bs) = decodeSys fn bs :=
  decode_opByte (by omega) (by omega) hn

/-! ### The rate (R66, R67) -/

theorem assembleRate_toNat (b1 b2 b3 b4 : Byte) : (assembleRate b1 b2 b3 b4).toNat =
    b1.toNat + 256 * b2.toNat + 65536 * b3.toNat + 16777216 * b4.toNat := by
  have h1 := b1.isLt
  have h2 := b2.isLt
  have h3 := b3.isLt
  have h4 := b4.isLt
  simp only [assembleRate, BitVec.toNat_ofNat]
  omega

theorem takeConfigure_rateBytes (rate : Rate) (tol : Byte) :
    takeConfigure (rateBytes rate ++ tol :: rest) = .ok (.stConfigure rate tol, rest) := by
  have hrate : assembleRate (BitVec.ofNat 8 rate.toNat) (BitVec.ofNat 8 (rate.toNat / 256))
      (BitVec.ofNat 8 (rate.toNat / 65536)) (BitVec.ofNat 8 (rate.toNat / 16777216)) = rate := by
    apply BitVec.eq_of_toNat_eq
    have hlt := rate.isLt
    simp only [assembleRate_toNat, BitVec.toNat_ofNat]
    omega
  simp only [rateBytes, List.cons_append, List.nil_append, takeConfigure, hrate]

theorem rateBytes_assembleRate (b1 b2 b3 b4 : Byte) : rateBytes (assembleRate b1 b2 b3 b4) = [b1, b2, b3, b4] := by
  have h1 := b1.isLt
  have h2 := b2.isLt
  have h3 := b3.isLt
  have h4 := b4.isLt
  simp only [rateBytes, assembleRate_toNat, List.cons.injEq, ← BitVec.toNat_inj, BitVec.toNat_ofNat, and_true]
  omega

/-! ### From the stimulus to its bytes and back -/

/-- Settles O1: the opcode byte selects the unit and the function, and each operand format reads back what the encoder
wrote; a string ends at its terminator because it holds none. -/
theorem encodeThenDecodeGivesTheStimulus : Obligations.EncodeThenDecodeGivesTheStimulus := by
  intro i rest hwf
  cases i with
  | rbClear f | rbIsEmpty f | rbIsFull f | rbPush f _ | rbPop f => exact decode_rb f (by omega)
  | stConfigure rate tol =>
    have hbytes : encode (.stConfigure rate tol) ++ rest = opByte 1 0 0 :: (rateBytes rate ++ tol :: rest) := by
      simp [encode, opcode, operandBytes]
    rw [hbytes, decode_st (by omega)]
    exact takeConfigure_rateBytes rate tol
  | stSendString c =>
    have hbytes : encode (.stSendString c) ++ rest = opByte 1 0 2 :: (c ++ Config.strTerm :: rest) := by
      simp [encode, opcode, operandBytes]
    rw [hbytes, decode_st (by omega)]
    exact takeString_append_strTerm (by simpa [Instr.wf] using hwf)
  | stSendByte _ | stRecvByte | stRecvLine _ | stIsrTx | stIsrRx => exact decode_st (by omega)
  | clIsrEdge | clReadByte | clReadScancode => exact decode_cl (by omega)
  | sysReset | sysInit | sysIrqOn | sysIrqOff | sysWait | envRxArrive _ | envTxDone => exact decode_sys (by omega)
  | envClkFall b =>
    cases b with
    | false => exact decode_sys (fn := 10) (by omega)
    | true => exact decode_sys (fn := 11) (by omega)

/-! ### From the bytes to the stimulus and back -/

/-- What a unit's decoder is to have read at function `fn`: a well-formed stimulus with that opcode, whose operand bytes
stood in front of the rest. -/
def ReadBack (unit fsel fn : Nat) (bs : List Byte) (i : Instr) (rest : List Byte) : Prop :=
  i.wf = true ∧ opcode i = opByte unit fsel fn ∧ bs = operandBytes i ++ rest

theorem takeByte_ok {k : Byte → Instr} (h : takeByte k bs = .ok (i, rest)) : ∃ v, i = k v ∧ bs = v :: rest := by
  unfold takeByte at h
  split at h
  case h_1 => cases h
  case h_2 v tl => cases h; exact ⟨v, rfl, rfl⟩

theorem takeConfigure_ok (h : takeConfigure bs = .ok (i, rest)) :
    ∃ rate tol, i = .stConfigure rate tol ∧ bs = rateBytes rate ++ tol :: rest := by
  unfold takeConfigure at h
  split at h
  case h_1 b1 b2 b3 b4 tol tl =>
    cases h
    exact ⟨assembleRate b1 b2 b3 b4, tol, rfl, by rw [rateBytes_assembleRate]; rfl⟩
  case h_2 => cases h

/-- What is split off in front of the first terminator holds none. -/
theorem splitString_some {c : List Byte} (h : splitString bs = some (c, rest)) :
    (∀ b ∈ c, b ≠ Config.strTerm) ∧ bs = c ++ Config.strTerm :: rest := by
  induction bs generalizing c with
  | nil => cases h
  | cons b bs ih =>
    rw [splitString] at h
    split at h
    case isTrue hb => cases h; simp [hb]
    case isFalse hb =>
      split at h
      case h_1 => cases h
      case h_2 str tl hs =>
        cases h
        obtain ⟨hstr, rfl⟩ := ih hs
        exact ⟨List.forall_mem_cons.2 ⟨hb, hstr⟩, rfl⟩

theorem takeString_ok (h : takeString bs = .ok (i, rest)) :
    ∃ c, i = .stSendString c ∧ (∀ b ∈ c, b ≠ Config.strTerm) ∧ bs = c ++ Config.strTerm :: rest := by
  unfold takeString at h
  split at h
  case h_1 => cases h
  case h_2 c tl hs =>
    cases h
    exact ⟨c, rfl, splitString_some hs⟩

theorem decodeRb_ok (h : decodeRb f fn bs = .ok (i, rest)) : ReadBack 0 f.fsel fn bs i rest := by
  unfold decodeRb at h
  split at h
  case h_4 => obtain ⟨v, rfl, rfl⟩ := takeByte_ok h; exact ⟨rfl, rfl, rfl⟩
  case h_6 => cases h
  all_goals cases h; exact ⟨rfl, rfl, rfl⟩

theorem decodeSt_ok (h : decodeSt fn bs = .ok (i, rest)) : ReadBack 1 0 fn bs i rest := by
  unfold decodeSt at h
  split at h
  case h_1 =>
    obtain ⟨rate, tol, rfl, rfl⟩ := takeConfigure_ok h
    exact ⟨rfl, rfl, by simp [operandBytes]⟩
  case h_2 | h_5 => obtain ⟨v, rfl, rfl⟩ := takeByte_ok h; exact ⟨rfl, rfl, rfl⟩
  case h_3 =>
    obtain ⟨c, rfl, hc, rfl⟩ := takeString_ok h
    exact ⟨by simpa [Instr.wf] using hc, rfl, by simp [operandBytes]⟩
  case h_8 => cases h
  all_goals cases h; exact ⟨rfl, rfl, rfl⟩

theorem decodeCl_ok (h : decodeCl fn bs = .ok (i, rest)) : ReadBack 2 0 fn bs i rest := by
  unfold decodeCl at h
  split at h
  case h_4 => cases h
  all_goals cases h; exact ⟨rfl, rfl, rfl⟩

theorem decodeSys_ok (h : decodeSys fn bs = .ok (i, rest)) : ReadBack 3 0 fn bs i rest := by
  unfold decodeSys at h
  split at h
  case h_6 => obtain ⟨v, rfl, rfl⟩ := takeByte_ok h; exact ⟨rfl, rfl, rfl⟩
  case h_10 => cases h
  all_goals cases h; exact ⟨rfl, rfl, rfl⟩

theorem decodeFields_ok (hu : unit < 4) (h : decodeFields unit fsel fn bs = .ok (i, rest)) :
    ReadBack unit fsel fn bs i rest := by
  unfold decodeFields at h
  split at h
  case isTrue h0 =>
    subst h0
    unfold decodeUnit0 at h
    split at h
    case h_1 f hf => exact fsel_of_ofFsel hf ▸ decodeRb_ok h
    case h_2 => cases h
  case isFalse h0 =>
    split at h
    · cases h
    case isFalse hs =>
      obtain rfl : fsel = 0 := not_not.1 hs
      split at h
      case isTrue h1 => exact h1 ▸ decodeSt_ok h
      case isFalse h1 =>
        split at h
        case isTrue h2 => exact h2 ▸ decodeCl_ok h
        case isFalse h2 =>
          obtain rfl : unit = 3 := by omega
          exact decodeSys_ok h

/-- Settles O2: each unit's decoder reads back what the encoder writes, and the opcode byte is that of its fields. -/
theorem decodedBytesAreTheEncoding : Obligations.DecodedBytesAreTheEncoding := by
  intro bs i rest h
  cases bs with
  | nil => cases h
  | cons op bs =>
    have hu : opUnit op < 4 := by have := op.isLt; unfold opUnit; omega
    obtain ⟨hwf, hop, rfl⟩ := decodeFields_ok hu h
    exact ⟨hwf, by rw [encode, hop, opByte_fields]; rfl⟩

/-! ### Streams that end inside a stimulus (R64) -/

/-- Whether an opcode byte is refused does not depend on the bytes behind it (R72). -/
theorem decode_error_of_opcode {op : Byte} {bs' : List Byte} {e : DecodeError} (he : e ≠ .truncatedStimulus)
    (h : decode (op :: bs) = .error e) : decode (op :: bs') = .error e := by
  cases e with
  | truncatedStimulus => exact absurd rfl he
  | reservedCode => exact decodeFields_reservedCode_iff.2 (decodeFields_reservedCode_iff.1 h)
  | badFsel => exact decodeFields_badFsel_iff.2 (decodeFields_badFsel_iff.1 h)

/-- No encoding begins another and longer one: what a shorter front decodes to, the longer stream decodes to as well. -/
theorem encode_append_eq {j : Instr} {tail : List Byte} (hi : i.wf = true) (hj : j.wf = true)
    (h : encode i = encode j ++ tail) : tail = [] := by
  have hdi : decode (encode i) = .ok (i, []) := by simpa using encodeThenDecodeGivesTheStimulus i [] hi
  have hdj : decode (encode i) = .ok (j, tail) := h ▸ encodeThenDecodeGivesTheStimulus j tail hj
  cases hdi.symm.trans hdj
  rfl

/-- Settles O4: a front has the opcode byte of the whole, so it is not refused for it, and if it held a stimulus the
rest of the encoding would be empty. -/
theorem truncatedStimulusIsRefused : Obligations.TruncatedStimulusIsRefused := by
  intro i n hwf h0 hn
  obtain ⟨m, rfl⟩ := Nat.exists_eq_succ_of_ne_zero (Nat.ne_of_gt h0)
  have hcons : (encode i).take (m + 1) = opcode i :: (operandBytes i).take m := rfl
  cases hd : decode ((encode i).take (m + 1)) with
  | ok p =>
    obtain ⟨j, tail⟩ := p
    obtain ⟨hj, hbytes⟩ := decodedBytesAreTheEncoding _ j tail hd
    have hsplit : encode i = encode j ++ (tail ++ (encode i).drop (m + 1)) := by
      rw [← List.append_assoc, ← hbytes, List.take_append_drop]
    have hnil := encode_append_eq hwf hj hsplit
    have hdrop : (encode i).drop (m + 1) = [] := (List.append_eq_nil_iff.1 hnil).2
    rw [List.drop_eq_nil_iff] at hdrop
    omega
  | error e =>
    by_cases he : e = .truncatedStimulus
    · rw [he]
    · have hwhole : decode (encode i) = .error e := decode_error_of_opcode he (hcons ▸ hd)
      have hok := encodeThenDecodeGivesTheStimulus i [] hwf
      rw [List.append_nil, hwhole] at hok
      cases hok

/-- Settles O5: eight words evaluated by the decoder. -/
theorem tableWordsDecode : Obligations.TableWordsDecode := by
  unfold Obligations.TableWordsDecode
  decide

end Sys2Proof
end

section
/-! Interleaved calls on a ring buffer (40_ringbuffer_ops.md R98), and the rounding of the divisor
(41_serial_transport_ops.md R101). -/

namespace Sys2Proof.Machine

/-- Settles O15: the balance of `runCalls_content`; the buffer ends with legal indices, on which O7 excludes full and
empty at once. -/
theorem interleavedCallsKeepOrderAndElements : Obligations.InterleavedCallsKeepOrderAndElements := by
  intro n cs r a b c h2 hn ha hb hla hlb hrun
  obtain ⟨⟨a', b', ha', hb', hla', hlb'⟩, hcontent⟩ := runCalls_content (by omega) ⟨a, b, ha, hb, hla, hlb⟩ hrun
  obtain ⟨-, -, -, -, -, -, hexcl⟩ := emptyAndFullExcludeEachOther n c.ring a' b' h2 hn ha' hb' hla' hlb'
  exact ⟨hcontent, hexcl⟩

/-- A quotient is at least 1 from half of the divisor on (R101(a)). -/
theorem one_le_roundDiv_iff {fClk k rate : Nat} (hk : 0 < k) (hr : 0 < rate) :
    1 ≤ roundDiv fClk k rate ↔ k * rate ≤ 2 * fClk := by
  have hpos : 0 < 2 * k * rate := by positivity
  have hsplit : 2 * k * rate = k * rate + k * rate := by ring
  rw [roundDiv, Nat.one_le_div_iff hpos]
  omega

/-- Settles O18: the model's quotient is the floor of `F_CLK / (k * rate) + 1/2`, and half of 8 times the rate is below
half of 16 times the rate. -/
theorem divisorIsRoundedToNearest : Obligations.DivisorIsRoundedToNearest := by
  refine ⟨fun fClk k rate q hk hr hq => ?nearest, fun fClk rate hr h16 => ?positive⟩
  case nearest =>
    subst hq
    exact ⟨Nat.mul_div_le _ _, Nat.lt_mul_div_succ _ (by positivity)⟩
  case positive =>
    rw [one_le_roundDiv_iff (by omega) hr] at h16 ⊢
    omega

end Sys2Proof.Machine
end

section
/-! What a step did, said once: one constructor per outcome of a stimulus and of a phase of mainline, and the step put
together from them (20_memory.md R54). -/

namespace Sys2Proof.Machine

open Sys2Proof.Safety

variable {s t : State}

/-! ### The inputs of a step -/

/-- The state with other inputs, the stream and the schedule, which are no state of the block (10_state.md R35; logs 2,
3). -/
def State.withInput (s : State) (bs : List Byte) (ts : List Turn) : State := { s with stream := bs, turns := ts }

section
variable (s : State) (bs : List Byte) (ts : List Turn)

@[simp] theorem withInput_serRx : (s.withInput bs ts).serRx = s.serRx := rfl
@[simp] theorem withInput_serTx : (s.withInput bs ts).serTx = s.serTx := rfl
@[simp] theorem withInput_linkRx : (s.withInput bs ts).linkRx = s.linkRx := rfl
@[simp] theorem withInput_st : (s.withInput bs ts).st = s.st := rfl
@[simp] theorem withInput_cl : (s.withInput bs ts).cl = s.cl := rfl
@[simp] theorem withInput_sys : (s.withInput bs ts).sys = s.sys := rfl
@[simp] theorem withInput_obs : (s.withInput bs ts).obs = s.obs := rfl
@[simp] theorem withInput_cfg : (s.withInput bs ts).cfg = s.cfg := rfl
@[simp] theorem withInput_stream : (s.withInput bs ts).stream = bs := rfl
@[simp] theorem withInput_turns : (s.withInput bs ts).turns = ts := rfl
@[simp] theorem withInput_cap (f : Inst) : (s.withInput bs ts).cap f = s.cap f := rfl
@[simp] theorem withInput_ring (f : Inst) : (s.withInput bs ts).ring f = s.ring f := by cases f <;> rfl
@[simp] theorem withInput_ready : (s.withInput bs ts).ready = s.ready := rfl

theorem takeTurn_eq_withInput : ∃ ts, s.takeTurn = s.withInput s.stream ts := by
  unfold State.takeTurn
  split
  · exact ⟨_, rfl⟩
  · exact ⟨s.turns, rfl⟩

end

/-! ### What a stimulus did -/

/-- What a stimulus did where it answered a next state. -/
inductive Effect (s : State) : Instr → State → Prop
  /-- The empty string, or an arrival that was lost (R105, R141). -/
  | unchanged (i : Instr) (hi : isHandler i = false) : Effect s i s
  /-- A query, or the line of `max_len` 1 (R91, R92, R109). -/
  | logged (i : Instr) (l : Logged) (hi : isHandler i = false) (hr : s.ready = true) : Effect s i (s.log l)
  /-- A blocking operation was accepted (R160). -/
  | began (i : Instr) (op : MlOp) (hi : isHandler i = false) (hr : s.ready = true) (hie : s.sys.ie = true)
      (hserial : onSerial op = true → s.st.configured = true)
      (hlocals : i.wf = true → localsInv s.cfg op = true) : Effect s i (s.begin op)
  | cleared (f : Inst) (hr : s.ready = true) : Effect s (.rbClear f) (s.setRing f (s.ring f).clear)
  | pushed (f : Inst) (v : Byte) (r : Ring) (ok : Bool) (hr : s.ready = true)
      (hpush : (s.ring f).push (s.cap f) v = .ok (r, ok)) :
      Effect s (.rbPush f v) ((s.setRing f r).log (.bool ok))
  | popped (f : Inst) (v : Byte) (r : Ring) (hr : s.ready = true)
      (hpop : (s.ring f).pop (s.cap f) = .ok (r, v)) : Effect s (.rbPop f) ((s.setRing f r).log (.byte v))
  | configured (rate : Rate) (tol : Byte) (d : Nat) (x : Bool) (hr : s.ready = true) (hd : d < 2 ^ s.cfg.divBits) :
      Effect s (.stConfigure rate tol) { s with st := { s.st with ubrr := some d, u2x := some x, configured := true } }
  /-- The transmit-ready handler found `SER_TX` empty. -/
  | txIdle (hie : s.sys.ie = true) : Effect s .stIsrTx { s with sys := { s.sys with sleeping := false } }
  | txLoaded (v : Byte) (r : Ring) (hie : s.sys.ie = true) (hc : s.st.configured = true) (he : s.st.txdEmpty = true)
      (hpop : s.serTx.pop (s.cap .serTx) = .ok (r, v)) :
      Effect s .stIsrTx { s with
        serTx := r, st := { s.st with txd := some v, txdEmpty := false }, sys := { s.sys with sleeping := false } }
  | rxStored (v : Byte) (r : Ring) (ok : Bool) (hie : s.sys.ie = true) (hc : s.st.configured = true)
      (hv : s.st.rxd = some v) (hpush : s.serRx.push (s.cap .serRx) v = .ok (r, ok)) :
      Effect s .stIsrRx { s with
        serRx := r, st := { s.st with rxdFull := false }, sys := { s.sys with sleeping := false } }
  /-- The clock-edge handler advanced the frame by the bit `b`, to `u`. -/
  | edge (b : Bool) (u : State) (hie : s.sys.ie = true)
      (hframe : frameStep b { enterHandler s with cl := { s.cl with clkPend := false } } = .ok u) :
      Effect s .clIsrEdge { s with linkRx := u.linkRx, cl := u.cl, sys := { s.sys with sleeping := false } }
  | reset : Effect s .sysReset (State.resetWith s.cfg s.stream s.turns)
  | init (hr : s.ready = true) : Effect s .sysInit
      (frameReset { s with serRx := s.serRx.clear, serTx := s.serTx.clear, linkRx := s.linkRx.clear })
  | irqOn (hr : s.ready = true) : Effect s .sysIrqOn { s with sys := { s.sys with ie := true } }
  | irqOff (hr : s.ready = true) : Effect s .sysIrqOff { s with sys := { s.sys with ie := false } }
  | slept (hr : s.ready = true) (hie : s.sys.ie = true) :
      Effect s .sysWait { s with sys := { s.sys with sleeping := true } }
  | arrived (v : Byte) (hc : s.st.configured = true) :
      Effect s (.envRxArrive v) { s with st := { s.st with rxd := some v, rxdFull := true } }
  | transmitted (v : Byte) (hc : s.st.configured = true) (he : s.st.txdEmpty = false) (hv : s.st.txd = some v) :
      Effect s .envTxDone { s with
        st := { s.st with txdEmpty := true }, obs := { s.obs with wireOut := s.obs.wireOut ++ [v] } }
  | fell (b : Bool) : Effect s (.envClkFall b) { s with cl := { s.cl with clkSamp := some b, clkPend := true } }

/-- What the frame machine leaves alone (42_clocked_link_decoder_ops.md R120). -/
theorem frameStep_frame {b : Bool} (h : frameStep b s = .ok t) : t = { s with linkRx := t.linkRx, cl := t.cl } := by
  rcases frameStep_ok h with ⟨-, rfl⟩ | ⟨_, _, _, -, -, -, -, -, rfl⟩ | ⟨-, _, -, rfl⟩ | ⟨-, _, _, _, -, -, rfl⟩
  · cases b <;> rfl
  · rfl
  · split <;> rfl
  · rfl

/-- `LINK_RX` takes a push of the assembled byte in state 10 and is left alone in the others (R124). -/
theorem frameStep_linkRx {b : Bool} (h : frameStep b s = .ok t) :
    (s.cl.bitCount ≠ some 10 ∧ t.linkRx = s.linkRx) ∨
      (s.cl.bitCount = some 10 ∧ ∃ buf ok, s.cl.bitBuffer = some buf ∧
        s.linkRx.push (s.cap .linkRx) buf = .ok (t.linkRx, ok)) := by
  rcases frameStep_ok h with ⟨hc, rfl⟩ | ⟨c, _, _, hc, -, hle, -, -, rfl⟩ | ⟨hc, _, -, rfl⟩ |
      ⟨hc, buf, r, ok, hb, hp, rfl⟩
  · exact .inl ⟨by simp [hc], by cases b <;> rfl⟩
  · refine .inl ⟨?_, rfl⟩
    rintro h10
    obtain rfl : c = 10 := by simpa [hc] using h10
    exact absurd hle (by decide)
  · exact .inl ⟨by simp [hc], by split <;> rfl⟩
  · exact .inr ⟨hc, buf, ok, hb, hp⟩

theorem frameStep_bitCount_isSome {b : Bool} (h : frameStep b s = .ok t) : t.cl.bitCount.isSome = true := by
  rcases frameStep_ok h with ⟨hc, rfl⟩ | ⟨_, _, _, -, -, -, -, -, rfl⟩ | ⟨-, _, -, rfl⟩ | ⟨-, _, _, _, -, -, rfl⟩
  · cases b <;> simp [hc]
  · rfl
  · split <;> rfl
  · rfl

/-- Every outcome of every stimulus is one of `Effect`. -/
theorem exec_effect {i : Instr} (h : exec i s = .next t) : Effect s i t := by
  cases i with
  | rbClear f =>
    obtain ⟨hr, rfl⟩ := execRbClear_next h
    exact .cleared f hr
  | rbIsEmpty f =>
    obtain ⟨hr, b, -, rfl⟩ := execRbIsEmpty_next h
    exact .logged _ _ rfl hr
  | rbIsFull f =>
    obtain ⟨hr, b, -, rfl⟩ := execRbIsFull_next h
    exact .logged _ _ rfl hr
  | rbPush f v =>
    obtain ⟨hr, r, ok, hpush, rfl⟩ := execRbPush_next h
    exact .pushed f v r ok hr hpush
  | rbPop f =>
    obtain ⟨hr, r, v, hpop, rfl⟩ := execRbPop_next h
    exact .popped f v r hr hpop
  | stConfigure rate tol =>
    obtain ⟨hr, d, x, hd, rfl⟩ := execStConfigure_next h
    exact .configured rate tol d x hr hd
  | stSendByte v =>
    obtain ⟨hr, hc, hie, rfl⟩ := execStSendByte_next h
    exact .began _ _ rfl hr hie (fun _ => hc) (fun _ => rfl)
  | stSendString c =>
    obtain ⟨hr, hc, hie, ⟨-, rfl⟩ | ⟨x, xs, rfl, rfl⟩⟩ := execStSendString_next h
    · exact .unchanged _ rfl
    · exact .began _ _ rfl hr hie (fun _ => hc) (fun hwf => by simpa [localsInv, Instr.wf] using hwf)
  | stRecvByte =>
    obtain ⟨hr, hc, hie, rfl⟩ := execStRecvByte_next h
    exact .began _ _ rfl hr hie (fun _ => hc) (fun _ => rfl)
  | stRecvLine m =>
    obtain ⟨hr, hc, hie, ⟨-, rfl⟩ | ⟨hm, rfl⟩⟩ := execStRecvLine_next h
    · exact .logged _ _ rfl hr
    · exact .began _ _ rfl hr hie (fun _ => hc) (fun _ => by simpa [localsInv, Nat.lt_iff_add_one_le] using hm)
  | stIsrTx =>
    obtain ⟨hie, hp, ⟨-, rfl⟩ | ⟨-, r, v, hpop, rfl⟩⟩ := execStIsrTx_next h
    · rw [returnFromHandler_eq hie (by rfl)]
      exact .txIdle hie
    · rw [returnFromHandler_eq hie (by rfl)]
      obtain ⟨hc, he⟩ : s.st.configured = true ∧ s.st.txdEmpty = true := by simpa [pending] using hp
      exact .txLoaded v r hie hc he hpop
  | stIsrRx =>
    obtain ⟨hie, hp, v, r, ok, hv, hpush, rfl⟩ := execStIsrRx_next h
    rw [returnFromHandler_eq hie (by rfl)]
    obtain ⟨hc, -⟩ : s.st.configured = true ∧ s.st.rxdFull = true := by simpa [pending] using hp
    exact .rxStored v r ok hie hc hv hpush
  | clIsrEdge =>
    obtain ⟨hie, -, b, u, -, hframe, rfl⟩ := execClIsrEdge_next h
    have hu := frameStep_frame hframe
    rw [returnFromHandler_eq hie (by rw [hu]), hu]
    exact .edge b u hie hframe
  | clReadByte =>
    obtain ⟨hr, hie, rfl⟩ := execClReadByte_next h
    exact .began _ _ rfl hr hie nofun (fun _ => rfl)
  | clReadScancode =>
    obtain ⟨hr, hie, rfl⟩ := execClReadScancode_next h
    exact .began _ _ rfl hr hie nofun (fun _ => rfl)
  | sysReset =>
    obtain rfl := execSysReset_next h
    exact .reset
  | sysInit =>
    obtain ⟨hr, -, rfl⟩ := execSysInit_next h
    exact .init hr
  | sysIrqOn =>
    obtain ⟨hr, rfl⟩ := execSysIrqOn_next h
    exact .irqOn hr
  | sysIrqOff =>
    obtain ⟨hr, rfl⟩ := execSysIrqOff_next h
    exact .irqOff hr
  | sysWait =>
    obtain ⟨hr, hie, rfl⟩ := execSysWait_next h
    exact .slept hr hie
  | envRxArrive v =>
    obtain ⟨hc, ⟨-, rfl⟩ | ⟨-, rfl⟩⟩ := execEnvRxArrive_next h
    · exact .unchanged _ rfl
    · exact .arrived v hc
  | envTxDone =>
    obtain ⟨hc, he, v, hv, rfl⟩ := execEnvTxDone_next h
    exact .transmitted v hc he hv
  | envClkFall b =>
    obtain rfl := execEnvClkFall_next h
    exact .fell b

/-! ### What a phase of mainline did -/

/-- What a phase of mainline did where it answered a next state (60_exceptions.md R160). -/
inductive PhaseEffect (s : State) : State → Prop
  /-- CHECK found the condition true. -/
  | found (op : MlOp) (hm : s.sys.ml = .busy op .check) (hc : op.cond s = .ok true) :
      PhaseEffect s (s.setMl (.busy op .mutate))
  /-- CHECK found the condition false. -/
  | missed (op : MlOp) (hm : s.sys.ml = .busy op .check) : PhaseEffect s (s.setMl (.busy op .sleep))
  /-- SLEEP, or a CHECK that is one step with it. -/
  | slept (op : MlOp) (ph : Phase) (hm : s.sys.ml = .busy op ph) (hph : ph ≠ .mutate) :
      PhaseEffect s { s with sys := { s.sys with sleeping := true, ml := .busy op .check } }
  /-- MUTATE of a sender. -/
  | sent (op : MlOp) (v : Byte) (r : Ring) (ok : Bool) (hm : s.sys.ml = .busy op .mutate)
      (hv : op.sends s.cfg = some v) (hpush : (s.ring op.channel).push (s.cap op.channel) v = .ok (r, ok)) :
      PhaseEffect s (afterSend op (leaveCritical (s.setRing op.channel r)))
  /-- MUTATE of a receiver. -/
  | received (op : MlOp) (c : Byte) (r : Ring) (hm : s.sys.ml = .busy op .mutate)
      (hv : op.sends s.cfg = none) (hpop : (s.ring op.channel).pop (s.cap op.channel) = .ok (r, c)) :
      PhaseEffect s (afterReceive op c (leaveCritical (s.setRing op.channel r)))

/-- Every outcome of every phase is one of `PhaseEffect`. -/
theorem mainlineStep_effect (hbusy : s.sys.ml ≠ .idle) (h : mainlineStep s = .next t) : PhaseEffect s t := by
  rcases mainlineStep_next h with ⟨hm, -⟩ | ⟨op, hm, hcheck⟩ | ⟨op, hm, rfl⟩ | ⟨op, hm, hmutate⟩
  · exact absurd hm hbusy
  · obtain ⟨b, hc, rfl⟩ := checkStep_next hcheck
    cases b with
    | true => exact .found op hm hc
    | false =>
      cases s.cfg.atomicCheckSleep
      · exact .missed op hm
      · exact .slept op .check hm nofun
  · exact .slept op .sleep hm nofun
  · rcases mutateStep_next hmutate with ⟨v, r, ok, hv, hpush, rfl⟩ | ⟨hv, c, r, hpop, rfl⟩
    · exact .sent op v r ok hm hv hpush
    · exact .received op c r hm hv hpop

/-! ### What a step did -/

/-- What a step did where it answered a next state. -/
inductive StepEffect (s : State) : State → Prop
  /-- The stream is at its end (log 7). -/
  | waits (ts : List Turn) (hm : s.mainlineMoves = false) (hend : s.stream = []) :
      StepEffect s (s.withInput s.stream ts)
  | phase {t : State} (ts : List Turn) (hm : s.mainlineMoves = true)
      (h : PhaseEffect (s.withInput s.stream ts) t) : StepEffect s t
  | stimulus {t : State} (i : Instr) (rest : List Byte) (ts : List Turn) (ha : applies s i) (hwf : i.wf = true)
      (h : Effect (s.withInput rest ts) i t) : StepEffect s t

theorem mainlineMoves_canMove (h : s.mainlineMoves = true) : s.canMove = true :=
  (Bool.and_eq_true_iff.1 h).1

theorem step_effect (h : step s = .next t) : s.cfg.capacityOk = true ∧ StepEffect s t := by
  obtain ⟨hcap, hcases⟩ := step_next h
  obtain ⟨ts, hts⟩ := takeTurn_eq_withInput s
  rw [hts] at hcases
  refine ⟨hcap, ?_⟩
  rcases hcases with ⟨hm, hphase⟩ | ⟨hm, hend, rfl⟩ | ⟨hm, i, rest, hd, hexec⟩
  · obtain ⟨hbusy, -⟩ := (canMove_iff s).1 (mainlineMoves_canMove hm)
    exact .phase ts hm (mainlineStep_effect hbusy hphase)
  · exact .waits ts hm hend
  · obtain ⟨hwf, -⟩ := decodedBytesAreTheEncoding _ i rest hd
    exact .stimulus i rest ts ⟨hm, rest, hd⟩ hwf (exec_effect hexec)

/-- A step applies one stimulus at most. -/
theorem applies_unique {i j : Instr} (hi : applies s i) (hj : applies s j) : i = j := by
  obtain ⟨-, rest, hd⟩ := hi
  obtain ⟨-, rest', hd'⟩ := hj
  cases hd.symm.trans hd'
  rfl

theorem not_applies_of_mainlineMoves {i : Instr} (hm : s.mainlineMoves = true) : ¬ applies s i := fun ⟨hm', _⟩ => by
  simp [hm] at hm'

theorem not_applies_of_end {i : Instr} (hend : s.stream = []) : ¬ applies s i := fun ⟨_, _, hd⟩ => by
  rw [hend] at hd
  cases hd

end Sys2Proof.Machine
end

section
/-! What every step leaves alone, and which steps may change what (10_state.md, 60_exceptions.md R161). -/

namespace Sys2Proof.Machine

open Sys2Proof.Safety

variable {s t : State} {i : Instr} {f : Inst}

/-! ### The parameters -/

theorem effect_cfg (h : Effect s i t) : t.cfg = s.cfg := by cases h <;> simp

/-- A phase touches neither the parameters nor the transport, the decoder or the wire log. -/
theorem phase_frame (h : PhaseEffect s t) :
    t.cfg = s.cfg ∧ t.st = s.st ∧ t.cl = s.cl ∧ t.obs.wireOut = s.obs.wireOut := by
  cases h with
  | found | missed | slept => exact ⟨rfl, rfl, rfl, rfl⟩
  | sent op v r ok hm hv hpush =>
    obtain ⟨m, hm⟩ := afterSend_eq op (leaveCritical (s.setRing op.channel r))
    simp [hm]
  | received op c r hm hv hpop =>
    obtain ⟨m, hm | ⟨l, hm⟩⟩ := afterReceive_eq op c (leaveCritical (s.setRing op.channel r)) <;> simp [hm]

theorem stepEffect_cfg (h : StepEffect s t) : t.cfg = s.cfg := by
  cases h with
  | waits => rfl
  | phase ts hm h => exact (phase_frame h).1
  | stimulus i rest ts ha hwf h => simpa using effect_cfg h

theorem step_badCapacity (h : s.cfg.capacityOk = false) : step s = .refused .badCapacity := by simp [step, h]

theorem capacityOk_iff : s.cfg.capacityOk = true ↔ ∀ f, 2 ≤ s.cap f ∧ s.cap f ≤ 255 := by
  simp only [← capOk_iff, Params.capacityOk, Bool.and_eq_true]
  constructor
  · rintro ⟨⟨h1, h2⟩, h3⟩ (_ | _ | _) <;> assumption
  · exact fun h => ⟨⟨h _, h _⟩, h _⟩

/-! ### The wait -/

/-- A stimulus that ends the wait is a handler or the reset: every stimulus of mainline was refused for the wait (R161).
-/
theorem effect_wakes (h : Effect s i t) (hs : s.sys.sleeping = true) (ht : t.sys.sleeping = false) :
    isHandler i = true ∨ i = .sysReset := by
  have hbusy := ready_asleep hs
  cases h with
  | txIdle | txLoaded | rxStored | edge => exact .inl rfl
  | reset => exact .inr rfl
  | unchanged | arrived | transmitted | fell => exact absurd hs (by simpa using ht)
  | _ => simp_all

/-- Settles O49: a sleeping mainline has no step of its own, so the step applied a stimulus. -/
theorem onlyHandlersAndResetEndTheWait : Obligations.OnlyHandlersAndResetEndTheWait := by
  refine ⟨fun s t h hs ht => ?_, fun i s t => exec_handler_wakes⟩
  cases (step_effect h).2 with
  | waits => exact absurd hs (by simpa using ht)
  | phase ts hm => simp [mainlineMoves_asleep hs] at hm
  | stimulus i rest ts ha hwf h => exact ⟨i, ha, effect_wakes h (by simpa using hs) ht⟩

/-! ### The frame triple -/

theorem effect_frameTriple (h : Effect s i t) :
    (t.cl.bitCount = s.cl.bitCount ∧ t.cl.bitBuffer = s.cl.bitBuffer ∧ t.cl.parityAcc = s.cl.parityAcc) ∨
      i = .clIsrEdge ∨ i = .sysInit ∨ i = .sysReset := by
  cases h with
  | edge | init | reset => simp
  | _ => exact .inl (by simp)

/-- Settles O50: no phase touches the decoder, and of the stimuli only the three do. -/
theorem frameTripleIsPrivate : Obligations.FrameTripleIsPrivate := by
  intro s t h
  cases (step_effect h).2 with
  | waits => exact .inl ⟨rfl, rfl, rfl⟩
  | phase ts hm h =>
    obtain ⟨-, -, hcl, -⟩ := phase_frame h
    exact .inl (by simp [hcl])
  | stimulus i rest ts ha hwf h =>
    rcases effect_frameTriple h with hsame | rfl | rfl | rfl
    · exact .inl (by simpa using hsame)
    · exact .inr (.inl ha)
    · exact .inr (.inr (.inl ha))
    · exact .inr (.inr (.inr ha))

/-! ### The logs -/

theorem effect_results (h : Effect s i t) (hi : i ≠ .sysReset) :
    ∃ new, t.obs.results = s.obs.results ++ new ∧ new.length ≤ 1 := by
  cases h with
  | logged | pushed | popped => exact ⟨[_], by simp; rfl, le_rfl⟩
  | reset => exact absurd rfl hi
  | _ => exact ⟨[], by simp, Nat.zero_le _⟩

theorem effect_wireOut (h : Effect s i t) (hi : i ≠ .sysReset) :
    t.obs.wireOut = s.obs.wireOut ∨
      (i = .envTxDone ∧ ∃ v, s.st.txd = some v ∧ t.obs.wireOut = s.obs.wireOut ++ [v]) := by
  cases h with
  | transmitted v hc he hv => exact .inr ⟨rfl, v, hv, rfl⟩
  | reset => exact absurd rfl hi
  | _ => exact .inl (by simp)

theorem phase_results (h : PhaseEffect s t) : ∃ new, t.obs.results = s.obs.results ++ new ∧ new.length ≤ 1 := by
  cases h with
  | found | missed | slept => exact ⟨[], by simp, Nat.zero_le _⟩
  | sent op v r ok hm hv hpush =>
    obtain ⟨m, hm⟩ := afterSend_eq op (leaveCritical (s.setRing op.channel r))
    exact ⟨[], by simp [hm], Nat.zero_le _⟩
  | received op c r hm hv hpop =>
    obtain ⟨m, hm | ⟨l, hm⟩⟩ := afterReceive_eq op c (leaveCritical (s.setRing op.channel r))
    · exact ⟨[], by simp [hm], Nat.zero_le _⟩
    · exact ⟨[l], by simp [hm], le_rfl⟩

/-- Settles O53: a phase logs one result at most and nothing on the wire; of the stimuli only `ENV.TX_DONE` does that.
-/
theorem logsOnlyGrow : Obligations.LogsOnlyGrow := by
  intro s t h hreset
  cases (step_effect h).2 with
  | waits => exact ⟨⟨[], by simp, Nat.zero_le _⟩, .inl rfl⟩
  | phase ts hm h =>
    obtain ⟨-, -, -, hwire⟩ := phase_frame h
    exact ⟨by simpa using phase_results h, .inl hwire⟩
  | stimulus i rest ts ha hwf h =>
    have hi : i ≠ .sysReset := fun hi => hreset (hi ▸ ha)
    refine ⟨by simpa using effect_results h hi, ?_⟩
    rcases effect_wireOut h hi with hsame | ⟨rfl, hnew⟩
    · exact .inl hsame
    · exact .inr ⟨ha, hnew⟩

/-! ### The capacities -/

theorem require_ne {c : Bool} {r r' : Refusal} {k : Out} (hr : r ≠ r') (hk : k ≠ .refused r') :
    require c r k ≠ .refused r' := by
  cases c
  · simpa using hr
  · exact hk

/-- A handler has the three refusals of its dispatch and no others (60_exceptions.md R156). -/
theorem exec_handler_ne {r : Refusal} (hi : isHandler i = true) (hc : .notConfigured ≠ r) (hie : .interruptsOff ≠ r)
    (hev : .noEvent ≠ r) : exec i s ≠ .refused r := by
  obtain ⟨x, body, hexec⟩ := exec_handler_eq_dispatch hi
  rw [hexec]
  refine require_ne hc (require_ne hie (require_ne hev ?_))
  split <;> simp

/-- No stimulus answers `BadCapacity`: that is the refusal of the step alone (60_exceptions.md R151). -/
theorem exec_ne_badCapacity (i : Instr) (s : State) : exec i s ≠ .refused .badCapacity := by
  cases i with
  | rbClear | sysIrqOn | sysIrqOff => exact require_ne nofun nofun
  | rbIsEmpty | rbIsFull | rbPush | rbPop => exact require_ne nofun (by split <;> simp)
  | stConfigure => exact require_ne nofun (require_ne nofun (require_ne nofun (require_ne nofun nofun)))
  | stSendByte | stRecvByte => exact require_ne nofun (require_ne nofun (require_ne nofun nofun))
  | stSendString => exact require_ne nofun (require_ne nofun (require_ne nofun (by split <;> simp)))
  | stRecvLine =>
    exact require_ne nofun (require_ne nofun (require_ne nofun (require_ne nofun (by split <;> simp))))
  | stIsrTx | stIsrRx | clIsrEdge => exact exec_handler_ne rfl nofun nofun nofun
  | clReadByte | clReadScancode | sysInit | sysWait => exact require_ne nofun (require_ne nofun nofun)
  | sysReset | envClkFall => nofun
  | envRxArrive => exact require_ne nofun (by split <;> simp)
  | envTxDone => exact require_ne nofun (require_ne nofun (by split <;> simp))

theorem mainlineStep_ne_refused (s : State) (r : Refusal) : mainlineStep s ≠ .refused r := by
  unfold mainlineStep
  split
  · nofun
  · unfold checkStep
    split
    · nofun
    · nofun
    · split <;> nofun
  · nofun
  · unfold mutateStep
    split
    · split <;> nofun
    · split <;> nofun

/-- What the stream's half of a step can refuse is a stimulus's refusal or the decoder's. -/
theorem stimulusStep_ne_badCapacity (s : State) : stimulusStep s ≠ .refused .badCapacity := by
  unfold stimulusStep
  split
  case h_1 => nofun
  case h_2 r hf =>
    unfold fetch at hf
    split at hf
    · cases hf
    · split at hf
      case h_1 e _ =>
        cases hf
        cases e <;> nofun
      case h_2 => cases hf
  case h_3 i u hf => exact exec_ne_badCapacity i u

/-- Settles O6: no step changes the parameters, and the capacity test is the only place that answers `BadCapacity`. -/
theorem capacityIsFixedAndBounded : Obligations.CapacityIsFixedAndBounded := by
  refine ⟨fun s t h f => ?fixed, fun s f hbad => ?refused, fun s hok => ?legal, fun f => by cases f <;> rfl⟩
  case fixed => rw [State.cap, stepEffect_cfg (step_effect h).2, State.cap]
  case refused =>
    refine step_badCapacity (Bool.eq_false_iff.2 fun hcap => ?_)
    have := capacityOk_iff.1 hcap f
    omega
  case legal =>
    rw [step, if_pos (capacityOk_iff.2 hok)]
    split
    · exact mainlineStep_ne_refused _ _
    · exact stimulusStep_ne_badCapacity _

end Sys2Proof.Machine
end

section
/-! The frame machine state by state, and the byte that its data states assemble (42_clocked_link_decoder_ops.md R120 to
R123). -/

namespace Sys2Proof.Machine

open Sys2Proof.Safety

variable {s u : State} {b p : Bool} {c : BitVec 4} {buf : Byte} {k : Nat}

/-! ### Putting a bit into a byte (30_encoding.md R62, R63) -/

/-- The buffer after the data bit `b` went to place `k` (R122). -/
def withBit (k : Nat) (b : Bool) (buf : Byte) : Byte := buf ||| (bitByte b <<< k)

theorem getLsbD_bitByte (b : Bool) (i : Nat) : (bitByte b).getLsbD i = (decide (i = 0) && b) := by
  cases b
  · simp [bitByte]
  · simp [bitByte, BitVec.getLsbD_one]

theorem getLsbD_withBit {i : Nat} (hi : i < 8) :
    (withBit k b buf).getLsbD i = (buf.getLsbD i || (decide (i = k) && b)) := by
  simp only [withBit, BitVec.getLsbD_or, BitVec.getLsbD_shiftLeft, getLsbD_bitByte, hi, decide_true, Bool.true_and]
  rcases Nat.lt_trichotomy i k with h | rfl | h
  · simp [h, Nat.ne_of_lt h]
  · simp
  · simp [Nat.not_lt_of_gt h, Nat.ne_of_gt h, Nat.sub_eq_zero_iff_le, Nat.not_le_of_gt h]

theorem withBit_false (k : Nat) (buf : Byte) : withBit k false buf = buf := by simp [withBit, bitByte]

/-- A bit put into a free place changes the parity of the byte by that bit (R63, R122). -/
theorem xorBits_withBit (hk : k < 8) (hfree : buf.getLsbD k = false) :
    xorBits (withBit k b buf) = (xorBits buf ^^ b) := by
  cases b with
  | false => simp [withBit_false]
  | true =>
    have hplace : k = 0 ∨ k = 1 ∨ k = 2 ∨ k = 3 ∨ k = 4 ∨ k = 5 ∨ k = 6 ∨ k = 7 := by omega
    rcases hplace with rfl | rfl | rfl | rfl | rfl | rfl | rfl | rfl <;>
      simp (disch := decide) only [xorBits, getLsbD_withBit, hfree] <;> simp

/-! ### The states of the frame -/

theorem frameStep_start (hc : s.cl.bitCount = some 0) :
    frameStep b s = .ok (if b then s else { s with cl := { s.cl with bitCount := some 1 } }) := by
  simp [frameStep, state0, hc]

theorem frameStep_data (hc : s.cl.bitCount = some c) (h1 : 1 ≤ c.toNat) (h8 : c.toNat ≤ 8)
    (hbuf : s.cl.bitBuffer = some buf) (hp : s.cl.parityAcc = some p) :
    frameStep b s = .ok { s with cl := { s.cl with
      bitBuffer := some (withBit (c.toNat - 1) b buf), parityAcc := some (p ^^ b), bitCount := some (c + 1) } } := by
  simp [frameStep, stateData, withBit, hc, hbuf, hp, h8, Nat.ne_of_gt h1]

theorem frameStep_parity (hc : s.cl.bitCount = some 9) (hp : s.cl.parityAcc = some p) :
    frameStep b s = .ok (if (!b) ≠ p then frameReset s else { s with cl := { s.cl with bitCount := some 10 } }) := by
  simp [frameStep, stateParity, hc, hp]

theorem frameStep_none (hc : s.cl.bitCount = none) : frameStep b s = .error .uninitialised := by
  simp [frameStep, hc]

theorem frameStep_above (hc : s.cl.bitCount = some c) (h : 10 < c.toNat) : frameStep b s = .error .badFrameState := by
  simp only [frameStep, hc]
  rw [if_neg (by omega), if_neg (by omega), if_neg (by omega), if_neg (by omega)]

/-! ### The handler -/

theorem exec_clIsrEdge_start (hie : s.sys.ie = true) (hp : s.cl.clkPend = true) (hb : s.cl.clkSamp = some b)
    (hc : s.cl.bitCount = some 0) : exec .clIsrEdge s = .next { s with
      cl := { s.cl with clkPend := false, bitCount := some (if b = true then 0 else 1) }
      sys := { s.sys with sleeping := false } } := by
  rw [exec_clIsrEdge_ok hie hp hb (frameStep_start hc) (by cases b <;> rfl)]
  cases b
  · rfl
  · simp [enterHandler, hc]

theorem exec_clIsrEdge_data (hie : s.sys.ie = true) (hp : s.cl.clkPend = true) (hb : s.cl.clkSamp = some b)
    (hc : s.cl.bitCount = some c) (h1 : 1 ≤ c.toNat) (h8 : c.toNat ≤ 8) (hbuf : s.cl.bitBuffer = some buf)
    (hpar : s.cl.parityAcc = some p) : exec .clIsrEdge s = .next { s with
      cl := { s.cl with
        clkPend := false, bitCount := some (BitVec.ofNat 4 (c.toNat + 1)),
        bitBuffer := some (withBit (c.toNat - 1) b buf), parityAcc := some (p ^^ b) }
      sys := { s.sys with sleeping := false } } := by
  have hnext : c + 1 = BitVec.ofNat 4 (c.toNat + 1) := by
    apply BitVec.eq_of_toNat_eq
    simp [BitVec.toNat_add]
  rw [exec_clIsrEdge_ok hie hp hb (frameStep_data hc h1 h8 hbuf hpar) rfl, hnext]
  rfl

theorem exec_clIsrEdge_parity_kept (hie : s.sys.ie = true) (hp : s.cl.clkPend = true) (hb : s.cl.clkSamp = some b)
    (hc : s.cl.bitCount = some 9) (hpar : s.cl.parityAcc = some p) (hodd : (!b) = p) :
    exec .clIsrEdge s = .next { s with
      cl := { s.cl with clkPend := false, bitCount := some 10 }, sys := { s.sys with sleeping := false } } := by
  have hframe := frameStep_parity (b := b) (s := { enterHandler s with cl := { s.cl with clkPend := false } }) hc hpar
  rw [if_neg (not_not.2 hodd)] at hframe
  exact exec_clIsrEdge_ok hie hp hb hframe rfl

theorem exec_clIsrEdge_parity_aborted (hie : s.sys.ie = true) (hp : s.cl.clkPend = true) (hb : s.cl.clkSamp = some b)
    (hc : s.cl.bitCount = some 9) (hpar : s.cl.parityAcc = some p) (heven : (!b) ≠ p) :
    exec .clIsrEdge s = .next { s with
      cl := { s.cl with clkPend := false, bitCount := some 0, bitBuffer := some 0, parityAcc := some false }
      sys := { s.sys with sleeping := false } } := by
  have hframe := frameStep_parity (b := b) (s := { enterHandler s with cl := { s.cl with clkPend := false } }) hc hpar
  rw [if_pos heven] at hframe
  exact exec_clIsrEdge_ok hie hp hb hframe rfl

/-- A fault of the body is the dispatch's (60_exceptions.md R158). -/
theorem dispatch_error {x : Source} {body : State → Except Fault State} {e : Fault}
    (hc : x.serial = true → s.st.configured = true) (hie : s.sys.ie = true) (hp : pending s x = true)
    (hbody : body (enterHandler s) = .error e) : dispatch x body s = .fault e := by
  simp [dispatch, configuredGate_open hc, hie, hp, hbody]

/-- A dispatched edge faults with the frame machine. -/
theorem exec_clIsrEdge_fault {e : Fault} (hie : s.sys.ie = true) (hp : s.cl.clkPend = true)
    (hb : s.cl.clkSamp.isSome = true)
    (hframe : ∀ b, frameStep b { enterHandler s with cl := { s.cl with clkPend := false } } = .error e) :
    exec .clIsrEdge s = .fault e := by
  obtain ⟨b, hb⟩ := Option.isSome_iff_exists.1 hb
  have hbody : isrEdgeBody (enterHandler s) = .error e := by simpa [isrEdgeBody, hb] using hframe b
  exact dispatch_error (x := .clki) nofun hie hp hbody

/-! ### The obligations -/

/-- Settles O27: one edge in state 0. -/
theorem startBitStateStartsOrIgnores : Obligations.StartBitStateStartsOrIgnores :=
  fun _ _ => exec_clIsrEdge_start

/-- Settles O28: the new buffer is the old one with the bit put into place `c - 1`. -/
theorem dataBitStatesAssembleTheByte : Obligations.DataBitStatesAssembleTheByte := by
  intro s b p c buf hie hp hb hc h1 h8 hbuf hpar
  refine ⟨_, exec_clIsrEdge_data hie hp hb hc h1 h8 hbuf hpar, fun k hk => getLsbD_withBit hk, ?_⟩
  rintro rfl
  exact withBit_false _ _

/-- Settles O29: the two outcomes of the parity test. -/
theorem parityStateKeepsOrAborts : Obligations.ParityStateKeepsOrAborts :=
  fun _ _ _ hie hp hb hc hpar =>
    ⟨exec_clIsrEdge_parity_kept hie hp hb hc hpar, exec_clIsrEdge_parity_aborted hie hp hb hc hpar⟩

/-- Settles O31: the two gates of the dispatch, and the two faults of the frame machine. -/
theorem edgeHandlerStops : Obligations.EdgeHandlerStops :=
  fun _ => ⟨fun hie => dispatch_interruptsOff (x := .clki) nofun hie,
    fun hie hp => dispatch_noEvent (x := .clki) nofun hie hp,
    fun hie hp hb hc => exec_clIsrEdge_fault hie hp hb fun _ => frameStep_none hc,
    fun _ hie hp hb hc h => exec_clIsrEdge_fault hie hp hb fun _ => frameStep_above hc h⟩

end Sys2Proof.Machine
end

section
/-! What a step did to one ring buffer, and who did it (10_state.md R15, 60_exceptions.md section 4). -/

namespace Sys2Proof.Machine

open Sys2Proof.Safety

variable {s t : State} {i : Instr} {f g : Inst}

/-! ### What a stimulus did to a ring buffer -/

/-- What the raw stimuli and `SYS.INIT` can do to a ring buffer with `N` = `n` (40_ringbuffer_ops.md R90, R93, R94). -/
inductive RawMove (n : Nat) (r : Ring) : Ring → Prop
  | clear : RawMove n r r.clear
  | push (v : Byte) (ok : Bool) {r' : Ring} (h : r.push n v = .ok (r', ok)) : RawMove n r r'
  | pop (v : Byte) {r' : Ring} (h : r.pop n = .ok (r', v)) : RawMove n r r'

/-- The stimulus `i` stores into ring buffer `f` what it holds: `ST.ISR_RX` into `SER_RX`, and `CL.ISR_EDGE` in state 10
into `LINK_RX` (R113, R124). -/
def stores (s : State) (f : Inst) (i : Instr) : Prop :=
  (f = .serRx ∧ i = .stIsrRx) ∨ (f = .linkRx ∧ i = .clIsrEdge ∧ s.cl.bitCount = some 10)

/-- What the stimulus `i` makes of ring buffer `f`. -/
inductive RingEffect (s : State) (f : Inst) (i : Instr) : Ring → Prop
  | kept (hi : ¬ stores s f i) : RingEffect s f i (s.ring f)
  | raw {r : Ring} (hi : rewrites f i = true) (h : RawMove (s.cap f) (s.ring f) r) : RingEffect s f i r
  | reset (hi : i = .sysReset) : RingEffect s f i Ring.reset
  | loaded {r : Ring} (v : Byte) (hf : f = .serTx) (hi : i = .stIsrTx)
      (h : (s.ring f).pop (s.cap f) = .ok (r, v)) : RingEffect s f i r
  | stored {r : Ring} (v : Byte) (ok : Bool) (hf : f = .serRx) (hi : i = .stIsrRx) (hv : s.st.rxd = some v)
      (h : (s.ring f).push (s.cap f) v = .ok (r, ok)) : RingEffect s f i r
  | accepted {r : Ring} (buf : Byte) (ok : Bool) (hf : f = .linkRx) (hi : i = .clIsrEdge)
      (hc : s.cl.bitCount = some 10) (hbuf : s.cl.bitBuffer = some buf)
      (h : (s.ring f).push (s.cap f) buf = .ok (r, ok)) : RingEffect s f i r

theorem stores_isHandler (h : stores s f i) : isHandler i = true := by
  rcases h with ⟨-, rfl⟩ | ⟨-, rfl, -⟩ <;> rfl

theorem rewrites_of_isHandler (hi : isHandler i = true) : rewrites f i = false := by
  cases i with
  | stIsrTx | stIsrRx | clIsrEdge => rfl
  | _ => cases hi

/-- A stimulus that leaves the ring buffer as it was and is no handler. -/
theorem RingEffect.of_eq (hring : t.ring f = s.ring f) (hi : isHandler i = false) : RingEffect s f i (t.ring f) := by
  rw [hring]
  exact .kept fun h => by simp [stores_isHandler h] at hi

/-- A raw stimulus on ring buffer `g` moves that ring buffer alone. -/
theorem RingEffect.of_setRing {r : Ring} (hi : isHandler i = false) (hrw : rewrites g i = true)
    (h : RawMove (s.cap g) (s.ring g) r) : RingEffect s f i ((s.setRing g r).ring f) := by
  by_cases hfg : f = g
  · subst hfg
    rw [ring_setRing_same]
    exact .raw hrw h
  · exact .of_eq (ring_setRing_other s hfg r) hi

theorem effect_ring (h : Effect s i t) (f : Inst) : RingEffect s f i (t.ring f) := by
  cases h with
  | unchanged _ hi => exact .of_eq rfl hi
  | logged _ l hi => exact .of_eq (log_ring s l f) hi
  | began _ op hi => exact .of_eq (begin_ring s op f) hi
  | cleared g => exact .of_setRing rfl (by simp [rewrites]) .clear
  | pushed g v r ok hr hpush =>
    rw [log_ring]
    exact .of_setRing rfl (by simp [rewrites]) (.push v ok hpush)
  | popped g v r hr hpop =>
    rw [log_ring]
    exact .of_setRing rfl (by simp [rewrites]) (.pop v hpop)
  | txIdle =>
    rw [show State.ring { s with sys := _ } f = s.ring f by cases f <;> rfl]
    exact .kept (by simp [stores])
  | txLoaded v r hie hc he hpop =>
    cases f with
    | serTx => exact .loaded v rfl rfl hpop
    | serRx | linkRx => exact .kept (by simp [stores])
  | rxStored v r ok hie hc hv hpush =>
    cases f with
    | serRx => exact .stored v ok rfl rfl hv hpush
    | serTx | linkRx => exact .kept (by simp [stores])
  | edge b u hie hframe =>
    cases f with
    | serRx | serTx => exact .kept (by simp [stores])
    | linkRx =>
      rcases frameStep_linkRx hframe with ⟨hc, hsame⟩ | ⟨hc, buf, ok, hbuf, hpush⟩
      · rw [show State.ring { s with linkRx := u.linkRx, cl := _, sys := _ } .linkRx = s.ring .linkRx from hsame]
        exact .kept (by simpa [stores] using hc)
      · exact .accepted buf ok rfl rfl hc hbuf hpush
  | reset =>
    rw [resetWith_ring]
    exact .reset rfl
  | init => cases f <;> exact .raw rfl .clear
  | configured | irqOn | irqOff | slept | arrived | transmitted | fell => exact .of_eq (by cases f <;> rfl) rfl

/-! ### What a phase of mainline did to a ring buffer -/

/-- What a critical section of mainline makes of ring buffer `f` (20_memory.md R50, R53). -/
inductive MutateEffect (s : State) (f : Inst) : Ring → Prop
  | kept (hm : ∀ op, s.sys.ml = .busy op .mutate → op.channel ≠ f) : MutateEffect s f (s.ring f)
  | sent {r : Ring} (op : MlOp) (v : Byte) (ok : Bool) (hm : s.sys.ml = .busy op .mutate) (hf : op.channel = f)
      (hv : op.sends s.cfg = some v) (h : (s.ring f).push (s.cap f) v = .ok (r, ok)) : MutateEffect s f r
  | received {r : Ring} (op : MlOp) (c : Byte) (hm : s.sys.ml = .busy op .mutate) (hf : op.channel = f)
      (hv : op.sends s.cfg = none) (h : (s.ring f).pop (s.cap f) = .ok (r, c)) : MutateEffect s f r

theorem afterSend_ring (op : MlOp) (s : State) (f : Inst) : (afterSend op s).ring f = s.ring f := by
  obtain ⟨m, hm⟩ := afterSend_eq op s
  rw [hm, setMl_ring]

theorem afterReceive_ring (op : MlOp) (c : Byte) (s : State) (f : Inst) : (afterReceive op c s).ring f = s.ring f := by
  obtain ⟨m, hm | ⟨l, hm⟩⟩ := afterReceive_eq op c s
  · rw [hm, setMl_ring]
  · rw [hm, setMl_ring, log_ring]

/-- A phase that is no critical section leaves every ring buffer alone. -/
theorem MutateEffect.of_phase {op : MlOp} {ph : Phase} (hm : s.sys.ml = .busy op ph) (hph : ph ≠ .mutate)
    (hring : t.ring f = s.ring f) : MutateEffect s f (t.ring f) := by
  rw [hring]
  refine .kept fun op' hm' => ?_
  cases hm.symm.trans hm'
  exact absurd rfl hph

theorem phase_ring (h : PhaseEffect s t) (f : Inst) : MutateEffect s f (t.ring f) := by
  cases h with
  | found op hm | missed op hm => exact .of_phase hm nofun (setMl_ring _ _ f)
  | slept op ph hm hph => exact .of_phase hm hph (by cases f <;> rfl)
  | sent op v r ok hm hv hpush =>
    rw [afterSend_ring, leaveCritical_ring]
    by_cases hf : op.channel = f
    · subst hf
      rw [ring_setRing_same]
      exact .sent op v ok hm rfl hv hpush
    · rw [ring_setRing_other s (Ne.symm hf)]
      exact .kept fun op' hm' => by cases hm.symm.trans hm'; exact hf
  | received op c r hm hv hpop =>
    rw [afterReceive_ring, leaveCritical_ring]
    by_cases hf : op.channel = f
    · subst hf
      rw [ring_setRing_same]
      exact .received op c hm rfl hv hpop
    · rw [ring_setRing_other s (Ne.symm hf)]
      exact .kept fun op' hm' => by cases hm.symm.trans hm'; exact hf

/-! ### Who moves an index -/

theorem push_startIx {n : Nat} {r r' : Ring} {v : Byte} {ok : Bool} (h : r.push n v = .ok (r', ok)) :
    r'.startIx = r.startIx := by
  obtain ⟨a, b, -, -, ⟨-, -, -, rfl⟩ | ⟨-, -, rfl⟩⟩ := push_ok h <;> rfl

theorem pop_endIx {n : Nat} {r r' : Ring} {v : Byte} (h : r.pop n = .ok (r', v)) : r'.endIx = r.endIx := by
  obtain ⟨a, b, -, -, -, -, -, rfl⟩ := pop_ok h
  rfl

/-- An operation that sends waits on `SER_TX`, one that receives on another ring buffer (R103, R107, R125). -/
theorem sends_isSome_iff (op : MlOp) (p : Params) : (op.sends p).isSome = true ↔ op.channel = .serTx := by
  cases op <;> simp [MlOp.sends, MlOp.channel]

theorem sends_eq_none_iff (op : MlOp) (p : Params) : op.sends p = none ↔ op.channel ≠ .serTx := by
  rw [Ne, ← sends_isSome_iff op p, Option.isSome_iff_ne_none, not_not]

/-- Settles O52: a push moves the end alone and a pop the start alone, and each context pushes or pops its own ring
buffer. -/
theorem eachIndexHasItsOneContext : Obligations.EachIndexHasItsOneContext := by
  intro s t h f hraw
  cases (step_effect h).2 with
  | waits ts => simp
  | phase ts hm h =>
    have hring := phase_ring h f
    generalize t.ring f = r at hring
    cases hring with
    | kept => simp
    | sent op v ok hml hf hv hpush =>
      refine ⟨fun _ => ?_, fun hne => absurd (by simpa using push_startIx hpush) hne⟩
      obtain rfl : f = .serTx := hf ▸ (sends_isSome_iff op _).1 (Option.isSome_iff_exists.2 ⟨v, hv⟩)
      exact ⟨hm, op, by simpa using hml, hf⟩
    | received op c hml hf hv hpop =>
      refine ⟨fun hne => absurd (by simpa using pop_endIx hpop) hne, fun _ => ?_⟩
      have hmut : mainlineMutates s f := ⟨hm, op, by simpa using hml, hf⟩
      cases f with
      | serTx => exact absurd hf ((sends_eq_none_iff op _).1 hv)
      | serRx | linkRx => exact hmut
  | stimulus i rest ts ha hwf h =>
    have hring := effect_ring h f
    generalize t.ring f = r at hring
    cases hring with
    | kept => simp
    | raw hi => simp [hraw i ha] at hi
    | reset hi =>
      subst hi
      exact absurd (hraw _ ha) (by simp [rewrites])
    | loaded v hf hi hpop =>
      subst hf hi
      exact ⟨fun hne => absurd (by simpa using pop_endIx hpop) hne, fun _ => ha⟩
    | stored v ok hf hi hv hpush =>
      subst hf hi
      exact ⟨fun _ => ha, fun hne => absurd (by simpa using push_startIx hpush) hne⟩
    | accepted buf ok hf hi hc hbuf hpush =>
      subst hf hi
      exact ⟨fun _ => ha, fun hne => absurd (by simpa using push_startIx hpush) hne⟩

end Sys2Proof.Machine
end

section
/-! The invariant, part by part: ring buffers, serial transport, decoder (10_state.md section 1, R16 to R25;
20_memory.md section 3). -/

namespace Sys2Proof.Machine

open Sys2Proof.Safety

variable {s t : State} {i : Instr} {f : Inst} {n : Nat} {r r' : Ring} {v : Byte} {ok b : Bool}

/-! ### The parts of the invariant -/

theorem inv_iff : inv s = true ↔ s.cfg.capacityOk = true ∧ (∀ f, ringInv (s.cap f) (s.ring f) = true) ∧
    serialInv s.cfg s.st = true ∧ linkInv s.cl = true ∧ mainlineInv s = true := by
  have hrings : (∀ f, ringInv (s.cap f) (s.ring f) = true) ↔ ringInv (s.cap .serRx) s.serRx = true ∧
      ringInv (s.cap .serTx) s.serTx = true ∧ ringInv (s.cap .linkRx) s.linkRx = true :=
    ⟨fun h => ⟨h .serRx, h .serTx, h .linkRx⟩, fun ⟨h1, h2, h3⟩ f => by cases f <;> assumption⟩
  simp only [inv, Bool.and_eq_true, hrings, and_assoc]

@[simp] theorem inv_withInput (s : State) (bs : List Byte) (ts : List Turn) : inv (s.withInput bs ts) = inv s := rfl

theorem cap_le (hcap : s.cfg.capacityOk = true) (f : Inst) : s.cap f ≤ 256 := by
  have := capacityOk_iff.1 hcap f
  omega

theorem cap_pos (hcap : s.cfg.capacityOk = true) (f : Inst) : 0 < s.cap f := by
  have := capacityOk_iff.1 hcap f
  omega

/-! ### Ring buffers (10_state.md R13, 20_memory.md R43) -/

theorem ringInv_iff : ringInv n r = true ↔ (r.mem.wf ∧ ∀ c ∈ r.mem, c.1 < n) ∧
    ((r.startIx = none ∧ r.endIx = none ∧ r.mem = []) ∨ (r.Legal n ∧ ∀ x ∈ r.content n, x.isSome = true)) := by
  unfold ringInv
  split
  case h_1 a b ha hb => simp [Ring.Legal, ha, hb, and_assoc]
  case h_2 ha hb => simp [Ring.Legal, ha, hb]
  case h_3 hnot hnone =>
    have hpart : ¬ (r.startIx = none ∧ r.endIx = none ∧ r.mem = []) := fun ⟨ha, hb, _⟩ => hnone ha hb
    have hlegal : ¬ r.Legal n := fun ⟨a, b, ha, hb, _⟩ => hnot a b ha hb
    simp [hpart, hlegal]

theorem ringInv_reset (n : Nat) : ringInv n Ring.reset = true :=
  ringInv_iff.2 ⟨⟨memory_wf_reset, nofun⟩, .inl ⟨rfl, rfl, rfl⟩⟩

/-- A ring buffer with an index has both, legal, and every element of its content. -/
theorem legal_of_ringInv (h : ringInv n r = true) (hs : r.startIx.isSome = true) :
    r.Legal n ∧ ∀ x ∈ r.content n, x.isSome = true := by
  obtain ⟨-, ⟨ha, -, -⟩ | hlegal⟩ := ringInv_iff.1 h
  · simp [ha] at hs
  · exact hlegal

theorem startIx_isSome_of_push (h : r.push n v = .ok (r', ok)) : r.startIx.isSome = true := by
  obtain ⟨a, b, ha, -⟩ := push_ok h
  simp [ha]

theorem startIx_isSome_of_pop (h : r.pop n = .ok (r', v)) : r.startIx.isSome = true := by
  obtain ⟨a, b, ha, -⟩ := pop_ok h
  simp [ha]

/-- What a push that answered did to the content. -/
theorem push_ok_content (hn : n ≤ 256) (hl : r.Legal n) (h : r.push n v = .ok (r', ok)) :
    r'.Legal n ∧ (ok = true ↔ (r.content n).length < n - 1) ∧
      r'.content n = if ok = true then r.content n ++ [some v] else r.content n := by
  obtain ⟨r'', ok', h', hrest⟩ := push_content hn hl v
  cases h.symm.trans h'
  exact hrest

theorem push_mem_lt (hmem : ∀ c ∈ r.mem, c.1 < n) (h : r.push n v = .ok (r', ok)) : ∀ c ∈ r'.mem, c.1 < n := by
  obtain ⟨a, b, -, -, ⟨-, -, hlt, rfl⟩ | ⟨-, -, rfl⟩⟩ := push_ok h
  · intro c hc
    rcases memory_mem_write hc with hc | rfl
    · exact hmem c hc
    · exact hlt
  · exact hmem

theorem ringInv_push (hn : n ≤ 256) (hinv : ringInv n r = true) (h : r.push n v = .ok (r', ok)) :
    ringInv n r' = true := by
  obtain ⟨hl, hall⟩ := legal_of_ringInv hinv (startIx_isSome_of_push h)
  obtain ⟨⟨hwf, hmem⟩, -⟩ := ringInv_iff.1 hinv
  obtain ⟨hl', -, hcontent⟩ := push_ok_content hn hl h
  refine ringInv_iff.2 ⟨⟨push_wf hwf h, push_mem_lt hmem h⟩, .inr ⟨hl', ?_⟩⟩
  rw [hcontent]
  split
  · exact List.forall_mem_append.2 ⟨hall, by simp⟩
  · exact hall

theorem ringInv_pop (hn : n ≤ 256) (hinv : ringInv n r = true) (h : r.pop n = .ok (r', v)) : ringInv n r' = true := by
  obtain ⟨hl, hall⟩ := legal_of_ringInv hinv (startIx_isSome_of_pop h)
  obtain ⟨hmem, -⟩ := ringInv_iff.1 hinv
  obtain ⟨hl', hcontent⟩ := pop_content hn hl h
  refine ringInv_iff.2 ⟨by rwa [pop_mem h], .inr ⟨hl', fun x hx => hall x ?_⟩⟩
  rw [hcontent]
  exact List.mem_cons_of_mem _ hx

theorem ringInv_clear (h0 : 0 < n) (hinv : ringInv n r = true) : ringInv n r.clear = true := by
  obtain ⟨hmem, -⟩ := ringInv_iff.1 hinv
  exact ringInv_iff.2 ⟨hmem, .inr ⟨legal_clear h0, by simp [content_clear]⟩⟩

theorem ringInv_raw (h0 : 0 < n) (hn : n ≤ 256) (hinv : ringInv n r = true) (h : RawMove n r r') :
    ringInv n r' = true := by
  cases h with
  | clear => exact ringInv_clear h0 hinv
  | push v ok h => exact ringInv_push hn hinv h
  | pop v h => exact ringInv_pop hn hinv h

theorem effect_ringInv (hcap : s.cfg.capacityOk = true) (hinv : ringInv (s.cap f) (s.ring f) = true)
    (h : Effect s i t) : ringInv (t.cap f) (t.ring f) = true := by
  rw [show t.cap f = s.cap f by rw [State.cap, effect_cfg h, State.cap]]
  have hring := effect_ring h f
  generalize t.ring f = r at hring
  cases hring with
  | kept => exact hinv
  | raw _ h => exact ringInv_raw (cap_pos hcap f) (cap_le hcap f) hinv h
  | reset => exact ringInv_reset _
  | loaded v _ _ h => exact ringInv_pop (cap_le hcap f) hinv h
  | stored v ok _ _ _ h | accepted v ok _ _ _ _ h => exact ringInv_push (cap_le hcap f) hinv h

theorem phase_ringInv (hcap : s.cfg.capacityOk = true) (hinv : ringInv (s.cap f) (s.ring f) = true)
    (h : PhaseEffect s t) : ringInv (t.cap f) (t.ring f) = true := by
  obtain ⟨hcfg, -⟩ := phase_frame h
  rw [show t.cap f = s.cap f by rw [State.cap, hcfg, State.cap]]
  have hring := phase_ring h f
  generalize t.ring f = r at hring
  cases hring with
  | kept => exact hinv
  | sent _ _ _ _ _ _ h => exact ringInv_push (cap_le hcap f) hinv h
  | received _ _ _ _ _ h => exact ringInv_pop (cap_le hcap f) hinv h

/-! ### Serial transport (R16 to R20) -/

/-- The rate registers hold values that fit iff the transport is configured, and nothing has moved before that. -/
def RateInv (p : Params) (st : Serial) : Prop :=
  if st.configured = true then st.u2x.isSome = true ∧ ∃ d, st.ubrr = some d ∧ d < 2 ^ p.divBits
  else st.ubrr = none ∧ st.u2x = none ∧ st.txd = none ∧ st.rxd = none ∧ st.txdEmpty = true ∧ st.rxdFull = false

theorem serialInv_iff {p : Params} {st : Serial} : serialInv p st = true ↔
    RateInv p st ∧ (st.txdEmpty = false → st.txd.isSome = true) ∧ (st.rxdFull = true → st.rxd.isSome = true) := by
  unfold serialInv RateInv
  cases hc : st.configured
  · cases st.txdEmpty <;> cases st.rxdFull <;> simp [and_assoc]
  · cases hu : st.ubrr <;> cases st.txdEmpty <;> cases st.rxdFull <;> simp [and_assoc]

theorem rateInv_configured {p : Params} {st : Serial} (hc : st.configured = true) :
    RateInv p st ↔ st.u2x.isSome = true ∧ ∃ d, st.ubrr = some d ∧ d < 2 ^ p.divBits := by
  rw [RateInv, if_pos hc]

theorem RateInv.moved {p : Params} {st st' : Serial} (h : RateInv p st) (hc : st.configured = true)
    (hc' : st'.configured = true) (hubrr : st'.ubrr = st.ubrr) (hu2x : st'.u2x = st.u2x) : RateInv p st' := by
  rw [rateInv_configured hc] at h
  rwa [rateInv_configured hc', hubrr, hu2x]

theorem effect_serialInv (hinv : serialInv s.cfg s.st = true) (h : Effect s i t) : serialInv t.cfg t.st = true := by
  obtain ⟨hrate, htx, hrx⟩ := serialInv_iff.1 hinv
  cases h with
  | configured rate tol d x hr hd => exact serialInv_iff.2 ⟨(rateInv_configured rfl).2 ⟨rfl, d, rfl, hd⟩, htx, hrx⟩
  | txLoaded v r hie hc he hpop =>
    exact serialInv_iff.2 ⟨hrate.moved hc hc rfl rfl, fun _ => rfl, hrx⟩
  | rxStored v r ok hie hc hv hpush =>
    exact serialInv_iff.2 ⟨hrate.moved hc hc rfl rfl, htx, nofun⟩
  | arrived v hc =>
    exact serialInv_iff.2 ⟨hrate.moved hc hc rfl rfl, htx, fun _ => rfl⟩
  | transmitted v hc he hv =>
    exact serialInv_iff.2 ⟨hrate.moved hc hc rfl rfl, nofun, hrx⟩
  | reset => rfl
  | cleared | pushed | popped => simpa using hinv
  | _ => exact hinv

/-! ### The decoder (R22 to R25) -/

/-- The frame triple holds no value, or a position with only the bits received so far and their parity. -/
def TripleInv (cl : Link) : Prop :=
  (cl.bitCount = none ∧ cl.bitBuffer = none ∧ cl.parityAcc = none) ∨
    ∃ c buf, cl.bitCount = some c ∧ cl.bitBuffer = some buf ∧ cl.parityAcc = some (xorBits buf) ∧
      c.toNat ≤ 10 ∧ buf.toNat < 2 ^ (c.toNat - 1)

theorem linkInv_iff {cl : Link} :
    linkInv cl = true ↔ TripleInv cl ∧ (cl.clkPend = true → cl.clkSamp.isSome = true) := by
  unfold linkInv TripleInv
  rw [Bool.and_eq_true]
  refine and_congr ?_ (by cases cl.clkPend <;> simp)
  split
  case h_1 c buf p hc hb hp => simp [hc, hb, hp]; tauto
  case h_2 hc hb hp => simp [hc, hb, hp]
  case h_3 hsome hnone =>
    simp only [Bool.false_eq_true, false_iff, not_or]
    exact ⟨fun ⟨hc, hb, hp⟩ => hnone hc hb hp, fun ⟨c, buf, hc, hb, hp, _⟩ => hsome c buf _ hc hb hp⟩

/-- A bit put into place `k` keeps a byte of `k` bits within `k + 1` bits. -/
theorem withBit_toNat_lt {k : Nat} {buf : Byte} (h : buf.toNat < 2 ^ k) : (withBit k b buf).toNat < 2 ^ (k + 1) := by
  refine Nat.lt_pow_two_of_testBit _ fun j hj => ?_
  rw [BitVec.testBit_toNat]
  rcases Nat.lt_or_ge j 8 with hj8 | hj8
  · have hbuf : buf.getLsbD j = false := by
      rw [← BitVec.testBit_toNat]
      exact Nat.testBit_lt_two_pow (Nat.lt_of_lt_of_le h (Nat.pow_le_pow_right (by omega) (by omega)))
    rw [getLsbD_withBit hj8, hbuf, decide_eq_false (by omega)]
    rfl
  · exact BitVec.getLsbD_of_ge _ _ hj8

theorem tripleInv_idle {cl : Link} (hc : cl.bitCount = some 0) (hb : cl.bitBuffer = some 0)
    (hp : cl.parityAcc = some false) : TripleInv cl :=
  .inr ⟨0, 0, hc, hb, hp, by decide, by decide⟩

/-- The frame machine keeps the triple a position with the parity of its bits (R120 to R124). -/
theorem frameStep_tripleInv (hinv : TripleInv s.cl) (h : frameStep b s = .ok t) : TripleInv t.cl := by
  rcases frameStep_ok h with ⟨hc, rfl⟩ | ⟨c, buf, p, hc, h1, h8, hbuf, hp, rfl⟩ | ⟨hc, p, hp, rfl⟩ |
      ⟨-, buf, r, ok, -, -, rfl⟩
  · obtain ⟨hnone, -⟩ | ⟨c, buf, hc', hbuf, hp, -, hlt⟩ := hinv
    · simp [hc] at hnone
    · cases hc.symm.trans hc'
      cases b
      · exact .inr ⟨1, buf, rfl, hbuf, hp, by decide, hlt⟩
      · exact .inr ⟨0, buf, hc, hbuf, hp, by decide, hlt⟩
  · obtain ⟨hnone, -⟩ | ⟨c', buf', hc', hbuf', hp', -, hlt⟩ := hinv
    · simp [hc] at hnone
    · cases hc.symm.trans hc'
      cases hbuf.symm.trans hbuf'
      cases hp.symm.trans hp'
      obtain ⟨k, hk⟩ : ∃ k, c.toNat = k + 1 := ⟨c.toNat - 1, by omega⟩
      have hnext : (c + 1).toNat = k + 2 := by simp [BitVec.toNat_add, hk]; omega
      rw [hk, Nat.add_sub_cancel] at hlt
      have hfree : buf.getLsbD k = false := by
        rw [← BitVec.testBit_toNat]
        exact Nat.testBit_lt_two_pow hlt
      refine .inr ⟨c + 1, withBit k b buf, rfl, by simp [withBit, hk], ?parity, by omega, ?bits⟩
      case parity => rw [xorBits_withBit (by omega) hfree]
      case bits =>
        rw [hnext]
        exact withBit_toNat_lt hlt
  · split
    · exact tripleInv_idle rfl rfl rfl
    · obtain ⟨hnone, -⟩ | ⟨c, buf, hc', hbuf, hp', -, -⟩ := hinv
      · simp [hc] at hnone
      · exact .inr ⟨10, buf, rfl, hbuf, hp', by decide, Nat.lt_trans buf.isLt (by decide)⟩
  · exact tripleInv_idle rfl rfl rfl

/-- The frame machine does not touch the latch, which the handler has retired (R120). -/
theorem frameStep_latch (h : frameStep b s = .ok t) : t.cl.clkPend = s.cl.clkPend ∧ t.cl.clkSamp = s.cl.clkSamp := by
  rcases frameStep_ok h with ⟨hc, rfl⟩ | ⟨_, _, _, -, -, -, -, -, rfl⟩ | ⟨-, _, -, rfl⟩ | ⟨-, _, _, _, -, -, rfl⟩
  · cases b <;> exact ⟨rfl, rfl⟩
  · exact ⟨rfl, rfl⟩
  · split <;> exact ⟨rfl, rfl⟩
  · exact ⟨rfl, rfl⟩

theorem effect_linkInv (hinv : linkInv s.cl = true) (h : Effect s i t) : linkInv t.cl = true := by
  obtain ⟨htriple, hlatch⟩ := linkInv_iff.1 hinv
  cases h with
  | edge b u hie hframe =>
    obtain ⟨hpend, -⟩ := frameStep_latch hframe
    have hpend : u.cl.clkPend = false := hpend
    have htriple : TripleInv u.cl := frameStep_tripleInv (by exact htriple) hframe
    exact linkInv_iff.2 ⟨htriple, by simp [hpend]⟩
  | init => exact linkInv_iff.2 ⟨tripleInv_idle rfl rfl rfl, hlatch⟩
  | fell b => exact linkInv_iff.2 ⟨htriple, fun _ => rfl⟩
  | reset => rfl
  | cleared | pushed | popped => simpa using hinv
  | _ => exact hinv

end Sys2Proof.Machine
end

section
/-! The invariant of mainline, and the invariant of the whole block (20_memory.md R50, R53; 60_exceptions.md R160). -/

namespace Sys2Proof.Machine

open Sys2Proof.Safety

variable {s t : State} {i : Instr} {f : Inst} {n : Nat} {r r' : Ring} {op : MlOp} {ph : Phase}

/-! ### The wait condition (R160) -/

theorem isFull_eq_content (hn : n ≤ 256) (hl : r.Legal n) :
    r.isFull n = .ok (decide ((r.content n).length = n - 1)) := by
  obtain ⟨a, b, ha, hb, hla, hlb⟩ := hl
  rw [content_length ha hb, isFull_eq_countIx hn ha hb hla hlb]

theorem cond_sender (hop : op.channel = .serTx) (s : State) :
    op.cond s = (s.serTx.isFull (s.cap .serTx)).map not := by
  obtain ⟨v, hv⟩ := Option.isSome_iff_exists.1 ((sends_isSome_iff op s.cfg).2 hop)
  simp only [MlOp.cond, hv, hop, ring_serTx]
  cases s.serTx.isFull (s.cap .serTx) <;> rfl

theorem cond_receiver (hop : op.channel ≠ .serTx) (s : State) : op.cond s = (s.ring op.channel).isEmpty.map not := by
  simp only [MlOp.cond, (sends_eq_none_iff op s.cfg).2 hop]
  cases (s.ring op.channel).isEmpty <;> rfl

/-- The condition reads its own ring buffer alone (20_memory.md R53). -/
theorem cond_congr (hcap : ∀ f, t.cap f = s.cap f) (hring : t.ring op.channel = s.ring op.channel) :
    op.cond t = op.cond s := by
  by_cases hop : op.channel = .serTx
  · rw [cond_sender hop, cond_sender hop, hcap, ← ring_serTx, ← ring_serTx, ← hop, hring]
  · rw [cond_receiver hop, cond_receiver hop, hring]

/-- The condition on the content of its ring buffer: room for a sender, an element for a receiver. -/
theorem cond_iff_content (hn : s.cap op.channel ≤ 256) (hl : (s.ring op.channel).Legal (s.cap op.channel)) :
    op.cond s = .ok true ↔
      if op.channel = .serTx then
        ((s.ring op.channel).content (s.cap op.channel)).length < s.cap op.channel - 1
      else 0 < ((s.ring op.channel).content (s.cap op.channel)).length := by
  have hle := content_length_le hl
  split
  case isTrue hop =>
    rw [hop] at hn hl hle ⊢
    rw [cond_sender hop, ← ring_serTx, isFull_eq_content hn hl, Except.map, Except.ok.injEq, Bool.not_eq_true',
      decide_eq_false_iff_not]
    omega
  case isFalse hop =>
    rw [cond_receiver hop, isEmpty_eq_content hl, Except.map, Except.ok.injEq, Bool.not_eq_true',
      decide_eq_false_iff_not]
    omega

/-- A condition that has a value found the indices of its ring buffer. -/
theorem startIx_isSome_of_cond {b : Bool} (h : op.cond s = .ok b) : (s.ring op.channel).startIx.isSome = true := by
  rcases cond_ok h with ⟨-, h⟩ | ⟨-, h⟩
  · obtain ⟨a, b, ha, -⟩ := isFull_ok h
    simp [ha]
  · obtain ⟨a, b, ha, -⟩ := isEmpty_ok h
    simp [ha]

/-- A handler moves a ring buffer only toward what mainline waits for there: it pops from `SER_TX` and pushes into the
other two (R53, R160). -/
theorem cond_kept_by_handler (hn : s.cap op.channel ≤ 256)
    (hinv : ringInv (s.cap op.channel) (s.ring op.channel) = true)
    (hcap : ∀ f, t.cap f = s.cap f) (hi : isHandler i = true)
    (hring : RingEffect s op.channel i (t.ring op.channel)) (h : op.cond s = .ok true) : op.cond t = .ok true := by
  obtain ⟨hl, -⟩ := legal_of_ringInv hinv (startIx_isSome_of_cond h)
  have hbefore := (cond_iff_content hn hl).1 h
  have hafter := @cond_iff_content t op
  rw [hcap] at hafter
  generalize hr : t.ring op.channel = r at hring hafter
  cases hring with
  | kept => rw [cond_congr hcap hr, h]
  | raw hrw => simp [rewrites_of_isHandler hi] at hrw
  | reset hreset => subst hreset; cases hi
  | loaded v hop _ hpop =>
    obtain ⟨hl', hcontent⟩ := pop_content hn hl hpop
    rw [if_pos hop, hcontent, List.length_cons] at hbefore
    rw [hafter hn hl', if_pos hop]
    omega
  | stored v ok hop _ _ hpush | accepted v ok hop _ _ _ hpush =>
    obtain ⟨hl', -, hcontent⟩ := push_ok_content hn hl hpush
    have hne : op.channel ≠ .serTx := by simp [hop]
    rw [if_neg hne] at hbefore
    rw [hafter hn hl', if_neg hne, hcontent]
    split
    · simp
    · exact hbefore

/-! ### The invariant of mainline -/

/-- What holds while mainline is at phase `ph` of `op`. -/
structure BusyInv (s : State) (op : MlOp) (ph : Phase) : Prop where
  ie : s.sys.ie = true
  serial : onSerial op = true → s.st.configured = true
  asleep : s.sys.sleeping = true → ph = .check
  locals : localsInv s.cfg op = true
  found : ph = .mutate → op.cond s = .ok true

theorem mainlineInv_idle (hml : s.sys.ml = .idle) :
    mainlineInv s = true ↔ (s.sys.sleeping = true → s.sys.ie = true) := by
  simp only [mainlineInv, hml]
  cases s.sys.sleeping <;> simp

theorem mainlineInv_busy (hml : s.sys.ml = .busy op ph) : mainlineInv s = true ↔ BusyInv s op ph := by
  have hparts : BusyInv s op ph ↔ s.sys.ie = true ∧ (onSerial op = true → s.st.configured = true) ∧
      (s.sys.sleeping = true → ph = .check) ∧ localsInv s.cfg op = true ∧ (ph = .mutate → op.cond s = .ok true) :=
    ⟨fun ⟨h1, h2, h3, h4, h5⟩ => ⟨h1, h2, h3, h4, h5⟩, fun ⟨h1, h2, h3, h4, h5⟩ => ⟨h1, h2, h3, h4, h5⟩⟩
  rw [hparts]
  simp only [mainlineInv, hml]
  cases ph with
  | check | sleep => cases s.sys.ie <;> cases s.sys.sleeping <;> cases onSerial op <;> simp
  | mutate =>
    cases op.cond s <;> cases s.sys.ie <;> cases s.sys.sleeping <;> cases onSerial op <;> simp [and_assoc]

/-- Mainline was not touched, and what it waits for is still so. -/
theorem mainlineInv_kept (hinv : mainlineInv s = true) (hml : t.sys.ml = s.sys.ml) (hie : t.sys.ie = s.sys.ie)
    (hsleep : t.sys.sleeping = true → s.sys.sleeping = true) (hcfg : t.cfg = s.cfg)
    (hserial : s.st.configured = true → t.st.configured = true)
    (hcond : ∀ op : MlOp, op.cond s = .ok true → op.cond t = .ok true) : mainlineInv t = true := by
  cases hm : s.sys.ml with
  | idle =>
    rw [mainlineInv_idle hm] at hinv
    exact (mainlineInv_idle (hml.trans hm)).2 fun h => hie.trans (hinv (hsleep h))
  | busy op ph =>
    obtain ⟨hie', hserial', hasleep, hlocals, hfound⟩ := (mainlineInv_busy hm).1 hinv
    exact (mainlineInv_busy (hml.trans hm)).2 ⟨hie.trans hie', fun h => hserial (hserial' h),
      fun h => hasleep (hsleep h), hcfg ▸ hlocals, fun h => hcond op (hfound h)⟩

/-- A handler leaves mainline where it was, awake. -/
theorem mainlineInv_handler (hinv : inv s = true) (h : Effect s i t) (hi : isHandler i = true)
    (hsys : t.sys = { s.sys with sleeping := false }) (hserial : t.st.configured = s.st.configured) :
    mainlineInv t = true := by
  obtain ⟨hcap, hrings, -, -, hml⟩ := inv_iff.1 hinv
  have hcfg := effect_cfg h
  refine mainlineInv_kept hml (by rw [hsys]) (by rw [hsys]) (by simp [hsys]) hcfg (fun hc => hserial.trans hc)
    fun op => ?_
  exact cond_kept_by_handler (cap_le hcap _) (hrings _) (fun f => by rw [State.cap, hcfg, State.cap]) hi
    (effect_ring h _)

theorem effect_mainlineInv (hinv : inv s = true) (hwf : i.wf = true) (h : Effect s i t) : mainlineInv t = true := by
  obtain ⟨-, -, -, -, hml⟩ := inv_iff.1 hinv
  have heffect := h
  cases h with
  | txIdle | txLoaded | rxStored | edge => exact mainlineInv_handler hinv heffect rfl rfl rfl
  | reset => rfl
  | unchanged => exact hml
  | arrived | transmitted | fell =>
    exact mainlineInv_kept hml rfl rfl id rfl id fun op h =>
      (cond_congr (fun _ => rfl) (by cases op.channel <;> rfl)).trans h
  | began _ op _ hr hie hserial hlocals =>
    obtain ⟨-, hawake⟩ := (ready_iff s).1 hr
    exact (mainlineInv_busy (begin_ml s op)).2
      ⟨hie, hserial, fun h => by simp [hawake] at h, hlocals hwf, nofun⟩
  | slept hr hie =>
    obtain ⟨hidle, -⟩ := (ready_iff s).1 hr
    exact (mainlineInv_idle (by exact hidle)).2 fun _ => hie
  | logged _ _ _ hr | cleared _ hr | pushed _ _ _ _ hr | popped _ _ _ hr | configured _ _ _ _ hr | init hr
  | irqOn hr | irqOff hr =>
    obtain ⟨hidle, hawake⟩ := (ready_iff s).1 hr
    exact (mainlineInv_idle (by simpa using hidle)).2 fun h => by simp [hawake] at h

/-! ### Going on after a critical section (R103, R105, R109, R126) -/

/-- What an operation leaves of mainline after its critical section: idle, or a next CHECK with what its rule lets it
keep. -/
def Resumes (p : Params) (op : MlOp) (m : Mainline) : Prop :=
  m = .idle ∨ ∃ op', m = .busy op' .check ∧ onSerial op' = onSerial op ∧ localsInv p op' = true

theorem afterSend_resumes (hop : op.channel = .serTx) (hlocals : localsInv s.cfg op = true) :
    ∃ m, afterSend op s = s.setMl m ∧ Resumes s.cfg op m := by
  cases op with
  | sendByte v crSent =>
    by_cases hcr : crDue s.cfg (.sendByte v crSent) = true
    · refine ⟨.busy (.sendByte v true) .check, by simp [afterSend, hcr, State.begin], .inr ⟨_, rfl, rfl, ?_⟩⟩
      obtain ⟨hnl, -⟩ := Bool.and_eq_true_iff.1 hcr
      simpa [localsInv] using hnl
    · exact ⟨.idle, by simp [afterSend, hcr], .inl rfl⟩
  | sendString c rest crSent =>
    obtain ⟨-, hall⟩ := Bool.and_eq_true_iff.1 hlocals
    by_cases hcr : crDue s.cfg (.sendString c rest crSent) = true
    · refine ⟨.busy (.sendString c rest true) .check, by simp [afterSend, hcr, State.begin], .inr ⟨_, rfl, rfl, ?_⟩⟩
      obtain ⟨hnl, -⟩ := Bool.and_eq_true_iff.1 hcr
      exact Bool.and_eq_true_iff.2 ⟨hnl, hall⟩
    · cases rest with
      | nil => exact ⟨.idle, by simp [afterSend, hcr], .inl rfl⟩
      | cons c' rest' =>
        obtain ⟨-, hrest⟩ := Bool.and_eq_true_iff.1 hall
        exact ⟨.busy (.sendString c' rest' false) .check, by simp [afterSend, hcr, State.begin],
          .inr ⟨_, rfl, rfl, hrest⟩⟩
  | recvByte | recvLine | readByte | readScancode => cases hop

theorem afterReceive_resumes (c : Byte) (hop : op.channel ≠ .serTx) (hlocals : localsInv s.cfg op = true) :
    ∃ m, (afterReceive op c s = s.setMl m ∨ ∃ l, afterReceive op c s = (s.log l).setMl m) ∧ Resumes s.cfg op m := by
  cases op with
  | sendByte | sendString => exact absurd rfl hop
  | recvByte | readByte => exact ⟨.idle, .inr ⟨_, rfl⟩, .inl rfl⟩
  | recvLine maxLen line =>
    simp only [afterReceive, afterLineByte]
    split
    · exact ⟨.idle, .inr ⟨_, rfl⟩, .inl rfl⟩
    · rename_i hnl
      split
      · rename_i hroom
        refine ⟨.busy (.recvLine maxLen (line ++ [c])) .check, .inl rfl, .inr ⟨_, rfl, rfl, ?_⟩⟩
        obtain ⟨-, hline⟩ := Bool.and_eq_true_iff.1 hlocals
        refine Bool.and_eq_true_iff.2 ⟨?_, by simpa [hnl] using hline⟩
        simp only [List.length_append, List.length_singleton, decide_eq_true_eq]
        omega
      · exact ⟨.idle, .inr ⟨_, rfl⟩, .inl rfl⟩
  | readScancode first =>
    simp only [afterReceive, afterScanByte]
    split
    · rename_i hescape
      exact ⟨.busy (.readScancode (some c)) .check, .inl rfl, .inr ⟨_, rfl, rfl, hescape.2⟩⟩
    · exact ⟨.idle, .inr ⟨_, rfl⟩, .inl rfl⟩

/-- Mainline after a critical section, which leaves interrupts on. -/
theorem mainlineInv_resumes (hie : t.sys.ie = true) (hawake : t.sys.sleeping = false)
    (hserial : onSerial op = true → t.st.configured = true) (h : Resumes t.cfg op t.sys.ml) : mainlineInv t = true := by
  rcases h with hidle | ⟨op', hm, honserial, hlocals⟩
  · exact (mainlineInv_idle hidle).2 fun _ => hie
  · exact (mainlineInv_busy hm).2 ⟨hie, fun h => hserial (honserial ▸ h), by simp [hawake], hlocals, nofun⟩

theorem phase_mainlineInv (hinv : mainlineInv s = true) (hawake : s.sys.sleeping = false) (h : PhaseEffect s t) :
    mainlineInv t = true := by
  cases h with
  | found op hm hc =>
    obtain ⟨hie, hserial, -, hlocals, -⟩ := (mainlineInv_busy hm).1 hinv
    refine (mainlineInv_busy (setMl_ml s _)).2 ⟨hie, hserial, by simp [hawake], hlocals, fun _ => ?_⟩
    exact (cond_congr (fun _ => rfl) (setMl_ring s _ _)).trans hc
  | missed op hm =>
    obtain ⟨hie, hserial, -, hlocals, -⟩ := (mainlineInv_busy hm).1 hinv
    exact (mainlineInv_busy (setMl_ml s _)).2 ⟨hie, hserial, by simp [hawake], hlocals, nofun⟩
  | slept op ph hm hph =>
    obtain ⟨hie, hserial, -, hlocals, -⟩ := (mainlineInv_busy hm).1 hinv
    exact (mainlineInv_busy rfl).2 ⟨hie, hserial, fun _ => rfl, hlocals, nofun⟩
  | sent op v r ok hm hv hpush =>
    obtain ⟨-, hserial, -, hlocals, -⟩ := (mainlineInv_busy hm).1 hinv
    have hop := (sends_isSome_iff op s.cfg).1 (Option.isSome_iff_exists.2 ⟨v, hv⟩)
    obtain ⟨m, heq, hm⟩ := afterSend_resumes (s := leaveCritical (s.setRing op.channel r)) hop (by simpa using hlocals)
    rw [heq]
    exact mainlineInv_resumes (op := op) (by simp) (by simpa using hawake) (by simpa using hserial) (by simpa using hm)
  | received op c r hm hv hpop =>
    obtain ⟨-, hserial, -, hlocals, -⟩ := (mainlineInv_busy hm).1 hinv
    have hop := (sends_eq_none_iff op s.cfg).1 hv
    obtain ⟨m, heq | ⟨l, heq⟩, hm⟩ :=
      afterReceive_resumes (s := leaveCritical (s.setRing op.channel r)) c hop (by simpa using hlocals)
    all_goals
      rw [heq]
      exact mainlineInv_resumes (op := op) (by simp) (by simpa using hawake) (by simpa using hserial)
        (by simpa using hm)

/-! ### The whole block -/

theorem inv_resetWith {p : Params} (hcap : p.capacityOk = true) (bs : List Byte) (ts : List Turn) :
    inv (State.resetWith p bs ts) = true :=
  inv_iff.2 ⟨hcap, fun f => by rw [resetWith_ring]; exact ringInv_reset _, rfl, rfl, rfl⟩

/-- Settles O54: the default capacities are legal, and a reset state meets the other parts whatever the parameters. -/
theorem invariantHoldsAtReset : Obligations.InvariantHoldsAtReset := inv_resetWith rfl [] []

theorem effect_inv (hinv : inv s = true) (hwf : i.wf = true) (h : Effect s i t) : inv t = true := by
  obtain ⟨hcap, hrings, hserial, hlink, -⟩ := inv_iff.1 hinv
  exact inv_iff.2 ⟨effect_cfg h ▸ hcap, fun f => effect_ringInv hcap (hrings f) h, effect_serialInv hserial h,
    effect_linkInv hlink h, effect_mainlineInv hinv hwf h⟩

theorem phase_inv (hinv : inv s = true) (hawake : s.sys.sleeping = false) (h : PhaseEffect s t) : inv t = true := by
  obtain ⟨hcap, hrings, hserial, hlink, hml⟩ := inv_iff.1 hinv
  obtain ⟨hcfg, hst, hcl, -⟩ := phase_frame h
  exact inv_iff.2 ⟨hcfg ▸ hcap, fun f => phase_ringInv hcap (hrings f) h, by rwa [hcfg, hst], by rwa [hcl],
    phase_mainlineInv hml hawake h⟩

theorem awake_of_mainlineMoves (hm : s.mainlineMoves = true) : s.sys.sleeping = false :=
  ((canMove_iff s).1 (mainlineMoves_canMove hm)).2

/-- Settles O55: each agent keeps each part; that a condition found true is still true at its MUTATE is
`cond_kept_by_handler`, since mainline's own stimuli are refused meanwhile. -/
theorem everyStepKeepsTheInvariant : Obligations.EveryStepKeepsTheInvariant := by
  intro s t hinv h
  cases (step_effect h).2 with
  | waits => simpa using hinv
  | phase ts hm h => exact phase_inv (s := s.withInput s.stream ts) hinv (awake_of_mainlineMoves (s := s) hm) h
  | stimulus i rest ts ha hwf h => exact effect_inv (by simpa using hinv) hwf h

/-! ### The interrupt flag -/

theorem effect_ie (h : Effect s i t) : t.sys.ie = s.sys.ie ∨ i = .sysIrqOn ∨ i = .sysIrqOff ∨ i = .sysReset := by
  cases h with
  | irqOn | irqOff | reset => simp
  | _ => exact .inl (by simp)

/-- Every phase leaves interrupts on, as the invariant says it found them (20_memory.md R50). -/
theorem phase_ie (hinv : mainlineInv s = true) (h : PhaseEffect s t) : t.sys.ie = s.sys.ie := by
  cases h with
  | found | missed | slept => rfl
  | sent op v r ok hm =>
    obtain ⟨m, heq⟩ := afterSend_eq op (leaveCritical (s.setRing op.channel r))
    simp [heq, ((mainlineInv_busy hm).1 hinv).ie]
  | received op c r hm =>
    obtain ⟨m, heq | ⟨l, heq⟩⟩ := afterReceive_eq op c (leaveCritical (s.setRing op.channel r)) <;>
      simp [heq, ((mainlineInv_busy hm).1 hinv).ie]

/-- Settles O51: a critical section found the flag set, because mainline was busy, and a handler because it was
dispatched. -/
theorem interruptFlagHasThreeWriters : Obligations.InterruptFlagHasThreeWriters := by
  intro s t hinv h hne
  obtain ⟨-, -, -, -, hml⟩ := inv_iff.1 hinv
  cases (step_effect h).2 with
  | waits => exact absurd rfl hne
  | phase ts hm h => exact absurd (phase_ie (s := s.withInput s.stream ts) hml h) hne
  | stimulus i rest ts ha hwf h =>
    rcases effect_ie h with hsame | rfl | rfl | rfl
    · exact absurd hsame hne
    · exact .inl ha
    · exact .inr (.inl ha)
    · exact .inr (.inr ha)

end Sys2Proof.Machine
end

section
/-! The order of the bytes out and in, step by step (41_serial_transport_ops.md R115, R116;
42_clocked_link_decoder_ops.md R128). -/

namespace Sys2Proof.Machine

open Sys2Proof.Safety

variable {s t : State} {i : Instr} {f : Inst} {op : MlOp} {v : Byte} {r r' : Ring} {n : Nat} {ok : Bool}

/-! ### Outbound -/

theorem txTrace_congr (hwire : t.obs.wireOut = s.obs.wireOut)
    (hst : t.st.txdEmpty = s.st.txdEmpty ∧ t.st.txd = s.st.txd)
    (hring : t.serTx = s.serTx) (hcfg : t.cfg = s.cfg) : txTrace t = txTrace s := by
  simp only [txTrace, hwire, hst.1, hst.2, hring, State.cap, hcfg]

/-- A stimulus moves bytes along the trace and changes none: the handler takes the front of `SER_TX` into the register
it found empty, `ENV.TX_DONE` takes the register to the end of the wire log (R112, R142). -/
theorem effect_txTrace (hinv : inv s = true) (h : Effect s i t) (hraw : rewrites .serTx i = false) :
    txTrace t = txTrace s := by
  cases h with
  | txLoaded v r hie hc he hpop =>
    obtain ⟨hcap, hrings, -⟩ := inv_iff.1 hinv
    obtain ⟨hl, -⟩ := legal_of_ringInv (hrings .serTx) (startIx_isSome_of_pop hpop)
    obtain ⟨-, hcontent⟩ := pop_content (cap_le hcap .serTx) hl hpop
    simp only [ring_serTx, State.cap] at hcontent
    simp [txTrace, he, State.cap, hcontent]
  | transmitted v hc he hv => simp [txTrace, he, hv, State.cap]
  | cleared g | pushed g | popped g =>
    have hg : Inst.serTx ≠ g := fun h => by simp [rewrites, h] at hraw
    exact txTrace_congr (by simp) (by simp) (by simpa using ring_setRing_other s hg _) (by simp)
  | reset | init => cases hraw
  | _ => exact txTrace_congr rfl ⟨rfl, rfl⟩ rfl rfl

theorem sentNow_sender (hm : s.mainlineMoves = true) (hml : s.sys.ml = .busy op .mutate)
    (hv : op.sends s.cfg = some v) : sentNow s = [some v] := by
  simp [sentNow, hm, hml, hv]

theorem sentNow_none (h : ∀ op, s.sys.ml = .busy op .mutate → op.channel ≠ .serTx) : sentNow s = [] := by
  unfold sentNow
  split
  · split
    · rename_i op hml
      rw [(sends_eq_none_iff op s.cfg).2 (h op hml)]
    · rfl
  · rfl

theorem sentNow_of_not_moves (hm : s.mainlineMoves = false) : sentNow s = [] := by simp [sentNow, hm]

/-- The MUTATE of a sender finds room, because its CHECK did (20_memory.md R53). -/
theorem room_of_mutate (hinv : inv s = true) (hml : s.sys.ml = .busy op .mutate) (hop : op.channel = .serTx) :
    s.serTx.Legal (s.cap .serTx) ∧ (s.serTx.content (s.cap .serTx)).length < s.cap .serTx - 1 := by
  obtain ⟨hcap, hrings, -, -, hmainline⟩ := inv_iff.1 hinv
  have hcond := ((mainlineInv_busy hml).1 hmainline).found rfl
  obtain ⟨hl, -⟩ := legal_of_ringInv (hrings _) (startIx_isSome_of_cond hcond)
  have hroom := (cond_iff_content (cap_le hcap _) hl).1 hcond
  rw [if_pos hop] at hroom
  rw [hop] at hl hroom
  exact ⟨hl, hroom⟩

/-- A phase puts the byte of a sender's critical section to the end of the trace and changes nothing else of it. -/
theorem phase_txTrace (hinv : inv s = true) (h : PhaseEffect s t) :
    (∃ op v, s.sys.ml = .busy op .mutate ∧ op.sends s.cfg = some v ∧ txTrace t = txTrace s ++ [some v]) ∨
      ((∀ op, s.sys.ml = .busy op .mutate → op.channel ≠ .serTx) ∧ txTrace t = txTrace s) := by
  obtain ⟨hcap, -⟩ := inv_iff.1 hinv
  obtain ⟨hcfg, hst, -, hwire⟩ := phase_frame h
  have hring := phase_ring h .serTx
  generalize hr : t.ring .serTx = r at hring
  cases hring with
  | kept hm => exact .inr ⟨hm, txTrace_congr hwire (by simp [hst]) hr hcfg⟩
  | sent op v ok hml hop hv hpush =>
    obtain ⟨hl, hroom⟩ := room_of_mutate hinv hml hop
    obtain ⟨-, hok, hcontent⟩ := push_ok_content (cap_le hcap _) hl hpush
    rw [if_pos (hok.2 hroom)] at hcontent
    rw [← hr, ring_serTx] at hcontent
    have hcap' : t.cap .serTx = s.cap .serTx := by rw [State.cap, hcfg, State.cap]
    exact .inl ⟨op, v, hml, hv, by simp [txTrace, hwire, hst, hcap', hcontent]⟩
  | received op c hml hop hv hpop => exact absurd hop ((sends_eq_none_iff op s.cfg).1 hv)

/-- Settles O57: the trace of each agent, and room for the sender's byte because its CHECK found it. -/
theorem transmitKeepsEveryByteInOrder : Obligations.TransmitKeepsEveryByteInOrder := by
  intro s t hinv h hraw
  cases (step_effect h).2 with
  | waits ts hm => rw [sentNow_of_not_moves hm, List.append_nil]; rfl
  | phase ts hm h =>
    rcases phase_txTrace (s := s.withInput s.stream ts) hinv h with ⟨op, v, hml, hv, htrace⟩ | ⟨hml, htrace⟩
    · rw [htrace, sentNow_sender hm hml hv]; rfl
    · rw [htrace, sentNow_none (s := s) hml, List.append_nil]; rfl
  | stimulus i rest ts ha hwf h =>
    rw [effect_txTrace (s := s.withInput rest ts) hinv h (hraw i ha), sentNow_of_not_moves ha.1, List.append_nil]; rfl

/-! ### Inbound -/

/-- What a handler has for ring buffer `f`: the data register, or the byte of the frame (R113, R124). -/
def incoming (s : State) : Inst → Option Byte
  | .serRx => s.st.rxd
  | .serTx => none
  | .linkRx => s.cl.bitBuffer

/-- A push that answered, told by whether the buffer was full. -/
theorem push_ok_content_isFull (hn : n ≤ 256) (hl : r.Legal n) (h : r.push n v = .ok (r', ok)) :
    r'.content n = if r.isFull n = .ok true then r.content n else r.content n ++ [some v] := by
  obtain ⟨-, hok, hcontent⟩ := push_ok_content hn hl h
  have hle := content_length_le hl
  have hfull : r.isFull n = .ok true ↔ ¬ ok = true := by
    rw [isFull_eq_content hn hl, Except.ok.injEq, decide_eq_true_iff, hok]
    omega
  rw [hcontent]
  simp only [hfull, ite_not]

/-- A stimulus that is no rewrite of a receiving ring buffer stores what a handler has for it, or leaves it alone. -/
theorem effect_content (hinv : inv s = true) (hf : f ≠ .serTx) (hraw : rewrites f i = false) (h : Effect s i t) :
    (stores s f i → (t.ring f).content (s.cap f) =
      if (s.ring f).isFull (s.cap f) = .ok true then (s.ring f).content (s.cap f)
      else (s.ring f).content (s.cap f) ++ [incoming s f]) ∧
    (¬ stores s f i → (t.ring f).content (s.cap f) = (s.ring f).content (s.cap f)) := by
  obtain ⟨hcap, hrings, -⟩ := inv_iff.1 hinv
  have hring := effect_ring h f
  generalize t.ring f = r at hring
  cases hring with
  | kept hi => exact ⟨fun hs => absurd hs hi, fun _ => rfl⟩
  | raw hi => simp [hraw] at hi
  | reset hi => subst hi; cases hraw
  | loaded v hserTx => exact absurd hserTx hf
  | stored v ok hserRx hi hv hpush =>
    obtain ⟨hl, -⟩ := legal_of_ringInv (hrings f) (startIx_isSome_of_push hpush)
    refine ⟨fun _ => ?_, fun hn => absurd (.inl ⟨hserRx, hi⟩) hn⟩
    rw [push_ok_content_isFull (cap_le hcap f) hl hpush, hserRx, incoming, hv]
  | accepted buf ok hlink hi hc hbuf hpush =>
    obtain ⟨hl, -⟩ := legal_of_ringInv (hrings f) (startIx_isSome_of_push hpush)
    refine ⟨fun _ => ?_, fun hn => absurd (.inr ⟨hlink, hi, hc⟩) hn⟩
    rw [push_ok_content_isFull (cap_le hcap f) hl hpush, hlink, incoming, hbuf]

theorem takenNow_receiver (hm : s.mainlineMoves = true) (hml : s.sys.ml = .busy op .mutate) (hf : op.channel = f)
    (hv : op.sends s.cfg = none) : takenNow s f = ((s.ring f).content (s.cap f)).take 1 := by
  simp [takenNow, hm, hml, hf, hv]

theorem takenNow_none (h : ∀ op, s.sys.ml = .busy op .mutate → op.channel ≠ f) : takenNow s f = [] := by
  unfold takenNow
  split
  · split
    · rename_i op hml
      exact if_neg fun ⟨_, hf⟩ => h op hml hf
    · rfl
  · rfl

theorem takenNow_of_not_moves (hm : s.mainlineMoves = false) : takenNow s f = [] := by simp [takenNow, hm]

/-- A phase takes an element from the front of a receiving ring buffer, or leaves it alone. -/
theorem phase_content (hinv : inv s = true) (hf : f ≠ .serTx) (h : PhaseEffect s t) :
    (∃ op, s.sys.ml = .busy op .mutate ∧ op.channel = f ∧ op.sends s.cfg = none ∧
      ((s.ring f).content (s.cap f)).take 1 ++ (t.ring f).content (s.cap f) = (s.ring f).content (s.cap f)) ∨
    ((∀ op, s.sys.ml = .busy op .mutate → op.channel ≠ f) ∧
      (t.ring f).content (s.cap f) = (s.ring f).content (s.cap f)) := by
  obtain ⟨hcap, hrings, -⟩ := inv_iff.1 hinv
  have hring := phase_ring h f
  generalize t.ring f = r at hring
  cases hring with
  | kept hm => exact .inr ⟨hm, rfl⟩
  | sent op v ok hml hop hv hpush =>
    exact absurd (hop ▸ (sends_isSome_iff op s.cfg).1 (Option.isSome_iff_exists.2 ⟨v, hv⟩)) hf
  | received op c hml hop hv hpop =>
    obtain ⟨hl, -⟩ := legal_of_ringInv (hrings f) (startIx_isSome_of_pop hpop)
    obtain ⟨-, hcontent⟩ := pop_content (cap_le hcap f) hl hpop
    exact .inl ⟨op, hml, hop, hv, by rw [hcontent]; rfl⟩

/-- What a step does to a receiving ring buffer that it does not rewrite. -/
theorem step_content (hinv : inv s = true) (h : step s = .next t) (hf : f ≠ .serTx)
    (hraw : ∀ i, applies s i → rewrites f i = false) :
    ((∃ i, applies s i ∧ stores s f i) → (t.ring f).content (s.cap f) =
      if (s.ring f).isFull (s.cap f) = .ok true then (s.ring f).content (s.cap f)
      else (s.ring f).content (s.cap f) ++ [incoming s f]) ∧
    ((∀ i, applies s i → ¬ stores s f i) →
      takenNow s f ++ (t.ring f).content (s.cap f) = (s.ring f).content (s.cap f)) := by
  cases (step_effect h).2 with
  | waits ts hm hend =>
    refine ⟨fun ⟨i, ha, _⟩ => absurd ha (not_applies_of_end hend), fun _ => ?_⟩
    rw [takenNow_of_not_moves hm, withInput_ring, List.nil_append]
  | phase ts hm h =>
    refine ⟨fun ⟨i, ha, _⟩ => absurd ha (not_applies_of_mainlineMoves hm), fun _ => ?_⟩
    rcases phase_content (s := s.withInput s.stream ts) hinv hf h with ⟨op, hml, hop, hv, hcontent⟩ | ⟨hml, hcontent⟩
    · rw [takenNow_receiver hm hml hop hv]
      simpa using hcontent
    · rw [takenNow_none (s := s) hml]
      simpa using hcontent
  | stimulus i rest ts ha hwf h =>
    obtain ⟨hstore, hkeep⟩ := effect_content (s := s.withInput rest ts) hinv hf (hraw i ha) h
    have hsame : stores (s.withInput rest ts) f i ↔ stores s f i := Iff.rfl
    have hin : incoming (s.withInput rest ts) f = incoming s f := by cases f <;> rfl
    simp only [withInput_ring, withInput_cap, hsame, hin] at hstore hkeep
    refine ⟨fun ⟨j, hj, hs⟩ => hstore (applies_unique ha hj ▸ hs), fun hn => ?_⟩
    rw [takenNow_of_not_moves ha.1, List.nil_append, hkeep (hn i ha)]

/-- Settles O58: the two receiving ring buffers, each with its handler. -/
theorem receiveKeepsArrivalOrder : Obligations.ReceiveKeepsArrivalOrder := by
  intro s t hinv h
  refine ⟨fun hraw => ?serial, fun hraw => ?link⟩
  case serial =>
    obtain ⟨hstore, hkeep⟩ := step_content (f := .serRx) hinv h nofun hraw
    exact ⟨fun ha => hstore ⟨_, ha, .inl ⟨rfl, rfl⟩⟩,
      fun hn => hkeep fun i ha hs => hn ((show i = .stIsrRx by simpa [stores] using hs) ▸ ha)⟩
  case link =>
    obtain ⟨hstore, hkeep⟩ := step_content (f := .linkRx) hinv h nofun hraw
    refine ⟨fun ⟨ha, hc⟩ => hstore ⟨_, ha, .inr ⟨rfl, rfl, hc⟩⟩, fun hn => hkeep fun i ha hs => hn ?_⟩
    obtain ⟨rfl, hc⟩ : i = .clIsrEdge ∧ s.cl.bitCount = some 10 := by simpa [stores] using hs
    exact ⟨ha, hc⟩

end Sys2Proof.Machine
end

section
/-! An initialised block faults only on a raw pop of an empty ring buffer (60_exceptions.md R151,
70_reset_and_hazards.md R181). -/

namespace Sys2Proof.Machine

open Sys2Proof.Safety

variable {s t : State} {i : Instr} {f : Inst} {n : Nat} {r r' : Ring} {v : Byte} {b ok : Bool} {op : MlOp} {e : Fault}

/-! ### Every ring buffer function answers -/

/-- A pop of a buffer whose content is written answers, or finds it empty (40_ringbuffer_ops.md R94). -/
theorem pop_answers (hn : n ≤ 256) (hl : r.Legal n) (hall : ∀ x ∈ r.content n, x.isSome = true) :
    (r.isEmpty = .ok true ∧ r.pop n = .error .popEmpty) ∨
      (r.isEmpty = .ok false ∧ ∃ r' v, r.pop n = .ok (r', v)) := by
  rw [isEmpty_eq_content hl]
  cases hc : r.content n with
  | nil =>
    obtain ⟨a, b, ha, hb, hla, hlb⟩ := hl
    obtain rfl : a = b := (countIx_eq_zero hla hlb).1 (by rw [← content_length ha hb, hc]; rfl)
    exact .inl ⟨by simp, pop_empty ha hb⟩
  | cons x rest =>
    obtain ⟨v, rfl⟩ := Option.isSome_iff_exists.1 (hall x (by simp [hc]))
    obtain ⟨r', hpop, -⟩ := pop_head hn hl hc
    exact .inr ⟨by simp, r', v, hpop⟩

theorem push_answers (hn : n ≤ 256) (hl : r.Legal n) (v : Byte) : ∃ r' ok, r.push n v = .ok (r', ok) := by
  obtain ⟨r', ok, h, -⟩ := push_content hn hl v
  exact ⟨r', ok, h⟩

/-! ### What an initialised block holds -/

theorem booted_iff : booted s = true ↔ (∀ f, (s.ring f).startIx.isSome = true) ∧ s.cl.bitCount.isSome = true := by
  have hrings : (∀ f, (s.ring f).startIx.isSome = true) ↔
      s.serRx.startIx.isSome = true ∧ s.serTx.startIx.isSome = true ∧ s.linkRx.startIx.isSome = true :=
    ⟨fun h => ⟨h .serRx, h .serTx, h .linkRx⟩, fun ⟨h1, h2, h3⟩ f => by cases f <;> assumption⟩
  simp only [booted, Bool.and_eq_true, hrings, and_assoc]

/-- Every ring buffer of an initialised block has legal indices and a written content. -/
structure Initialised (s : State) : Prop where
  cap_le : ∀ f, s.cap f ≤ 256
  legal : ∀ f, (s.ring f).Legal (s.cap f)
  written : ∀ f, ∀ x ∈ (s.ring f).content (s.cap f), x.isSome = true

theorem initialised_of_booted (hinv : inv s = true) (hboot : booted s = true) : Initialised s := by
  obtain ⟨hcap, hrings, -⟩ := inv_iff.1 hinv
  obtain ⟨hstart, -⟩ := booted_iff.1 hboot
  exact ⟨cap_le hcap, fun f => (legal_of_ringInv (hrings f) (hstart f)).1,
    fun f => (legal_of_ringInv (hrings f) (hstart f)).2⟩

theorem Initialised.push (hs : Initialised s) (f : Inst) (v : Byte) :
    ∃ r ok, (s.ring f).push (s.cap f) v = .ok (r, ok) :=
  push_answers (hs.cap_le f) (hs.legal f) v

theorem Initialised.pop (hs : Initialised s) (f : Inst) :
    ((s.ring f).isEmpty = .ok true ∧ (s.ring f).pop (s.cap f) = .error .popEmpty) ∨
      ((s.ring f).isEmpty = .ok false ∧ ∃ r v, (s.ring f).pop (s.cap f) = .ok (r, v)) :=
  pop_answers (hs.cap_le f) (hs.legal f) (hs.written f)

/-! ### The handlers (R158) -/

/-- The frame machine answers on a triple that is a position with its bits (42_clocked_link_decoder_ops.md R120). -/
theorem frameStep_answers (hs : Initialised s) (htriple : TripleInv s.cl) (hc : s.cl.bitCount.isSome = true)
    (b : Bool) : ∃ t, frameStep b s = .ok t := by
  obtain ⟨hnone, -⟩ | ⟨c, buf, hc, hbuf, hp, hle, -⟩ := htriple
  · simp [hnone] at hc
  · rcases Nat.eq_zero_or_pos c.toNat with h0 | h1
    · obtain rfl : c = 0 := BitVec.eq_of_toNat_eq h0
      exact ⟨_, frameStep_start hc⟩
    rcases Nat.lt_or_ge c.toNat 9 with h8 | h9
    · exact ⟨_, frameStep_data hc h1 (by omega) hbuf hp⟩
    rcases Nat.lt_or_ge c.toNat 10 with h9' | h10
    · obtain rfl : c = 9 := BitVec.eq_of_toNat_eq (Nat.le_antisymm (Nat.le_of_lt_succ h9') h9)
      exact ⟨_, frameStep_parity hc hp⟩
    · obtain rfl : c = 10 := BitVec.eq_of_toNat_eq (Nat.le_antisymm hle h10)
      obtain ⟨r, ok, hpush⟩ := hs.push .linkRx buf
      exact ⟨_, frameStep_stop hc hbuf hpush⟩

theorem isrTxBody_answers (hs : Initialised s) : ∃ t, isrTxBody s = .ok t := by
  rcases hs.pop .serTx with ⟨he, -⟩ | ⟨he, r, v, hpop⟩
  · exact ⟨s, by simp only [isrTxBody, ← ring_serTx, he]⟩
  · exact ⟨_, by simp only [isrTxBody, ← ring_serTx, he, hpop]; rfl⟩

theorem isrRxBody_answers (hs : Initialised s) (hv : s.st.rxd.isSome = true) : ∃ t, isrRxBody s = .ok t := by
  obtain ⟨v, hv⟩ := Option.isSome_iff_exists.1 hv
  obtain ⟨r, ok, hpush⟩ := hs.push .serRx v
  exact ⟨_, by simp only [isrRxBody, hv, ← ring_serRx, hpush]; rfl⟩

theorem isrEdgeBody_answers (hs : Initialised s) (htriple : TripleInv s.cl) (hc : s.cl.bitCount.isSome = true)
    (hb : s.cl.clkSamp.isSome = true) : ∃ t, isrEdgeBody s = .ok t := by
  obtain ⟨b, hb⟩ := Option.isSome_iff_exists.1 hb
  obtain ⟨t, hframe⟩ := frameStep_answers (s := { s with cl := { s.cl with clkPend := false } })
    ⟨hs.cap_le, fun f => by cases f <;> exact hs.legal _, fun f => by cases f <;> exact hs.written _⟩ htriple hc b
  exact ⟨t, by simpa only [isrEdgeBody, hb] using hframe⟩

theorem Initialised.enterHandler (hs : Initialised s) : Initialised (enterHandler s) :=
  ⟨hs.cap_le, fun f => by simpa using hs.legal f, fun f => by simpa using hs.written f⟩

/-- No handler faults: its event says that the register it reads holds a value. -/
theorem exec_handler_ne_fault (hinv : inv s = true) (hboot : booted s = true) (hi : isHandler i = true) :
    exec i s ≠ .fault e := by
  obtain ⟨-, -, hserial, hlink, -⟩ := inv_iff.1 hinv
  obtain ⟨-, -, hrxd⟩ := serialInv_iff.1 hserial
  obtain ⟨htriple, hsamp⟩ := linkInv_iff.1 hlink
  obtain ⟨-, hc⟩ := booted_iff.1 hboot
  have hs := (initialised_of_booted hinv hboot).enterHandler
  intro h
  cases i with
  | stIsrTx =>
    obtain ⟨-, -, hbody⟩ := dispatch_fault h
    obtain ⟨t, ht⟩ := isrTxBody_answers hs
    simp [ht] at hbody
  | stIsrRx =>
    obtain ⟨-, hp, hbody⟩ := dispatch_fault h
    obtain ⟨-, hfull⟩ := Bool.and_eq_true_iff.1 hp
    obtain ⟨t, ht⟩ := isrRxBody_answers hs (hrxd hfull)
    simp [ht] at hbody
  | clIsrEdge =>
    obtain ⟨-, hp, hbody⟩ := dispatch_fault (x := .clki) (body := isrEdgeBody) h
    obtain ⟨t, ht⟩ := isrEdgeBody_answers hs htriple hc (hsamp hp)
    simp [ht] at hbody
  | _ => cases hi

/-! ### The stimuli -/

/-- Of the stimuli only a raw pop can fault in an initialised block, and only on an empty ring buffer. -/
theorem exec_fault_is_popEmpty (hinv : inv s = true) (hboot : booted s = true) (h : exec i s = .fault e) :
    e = .popEmpty ∧ ∃ f, i = .rbPop f ∧ (s.ring f).isEmpty = .ok true := by
  have hs := initialised_of_booted hinv hboot
  cases i with
  | rbPop f =>
    obtain ⟨hr, -⟩ := asMainline_fault h
    rcases hs.pop f with ⟨hempty, hpop⟩ | ⟨-, r, v, hpop⟩
    · cases h.symm.trans (exec_rbPop_error hr hpop)
      exact ⟨rfl, f, rfl, hempty⟩
    · cases h.symm.trans (exec_rbPop_ok hr hpop)
  | rbIsEmpty f =>
    obtain ⟨hr, -⟩ := asMainline_fault h
    cases h.symm.trans (exec_rbIsEmpty_ok hr (isEmpty_eq_content (hs.legal f)))
  | rbIsFull f =>
    obtain ⟨hr, -⟩ := asMainline_fault h
    cases h.symm.trans (exec_rbIsFull_ok hr (isFull_eq_content (hs.cap_le f) (hs.legal f)))
  | rbPush f v =>
    obtain ⟨hr, -⟩ := asMainline_fault h
    obtain ⟨r, ok, hpush⟩ := hs.push f v
    cases h.symm.trans (exec_rbPush_ok hr hpush)
  | stIsrTx | stIsrRx | clIsrEdge => exact absurd h (exec_handler_ne_fault hinv hboot rfl)
  | envTxDone =>
    obtain ⟨hc, h⟩ := require_fault h
    obtain ⟨he, h⟩ := require_fault h
    obtain ⟨-, -, hserial, -, -⟩ := inv_iff.1 hinv
    obtain ⟨-, htxd, -⟩ := serialInv_iff.1 hserial
    obtain ⟨v, hv⟩ := Option.isSome_iff_exists.1 (htxd (by simpa using he))
    simp [hv] at h
  | rbClear | sysIrqOn | sysIrqOff => cases (asMainline_fault h).2
  | sysInit | sysWait => cases (require_fault (asMainline_fault h).2).2
  | clReadByte | clReadScancode => cases asLinkBlocking_fault h
  | stConfigure rate tol =>
    have h := (asMainline_fault h).2
    cases (require_fault (require_fault (require_fault h).2).2).2
  | stSendByte | stRecvByte => cases asSerialBlocking_fault h
  | stSendString c =>
    have h := asSerialBlocking_fault h
    split at h <;> cases h
  | stRecvLine m =>
    have h := (require_fault (asSerialBlocking_fault h)).2
    split at h <;> cases h
  | sysReset | envClkFall => cases h
  | envRxArrive v =>
    obtain ⟨-, h⟩ := require_fault h
    split at h <;> cases h

/-! ### The phases of mainline -/

theorem setRing_enterCritical (s : State) (f : Inst) (r : Ring) :
    leaveCritical ((enterCritical s).setRing f r) = leaveCritical (s.setRing f r) := by
  cases f <;> rfl

theorem atomicPush_eq (h : (s.ring f).push (s.cap f) v = .ok (r, ok)) :
    atomicPush f v s = .ok (leaveCritical (s.setRing f r)) := by
  simp [atomicPush, h, setRing_enterCritical]

theorem atomicPop_eq (h : (s.ring f).pop (s.cap f) = .ok (r, v)) :
    atomicPop f s = .ok (leaveCritical (s.setRing f r), v) := by
  simp [atomicPop, h, setRing_enterCritical]

theorem mutateStep_send (hv : op.sends s.cfg = some v)
    (h : (s.ring op.channel).push (s.cap op.channel) v = .ok (r, ok)) :
    mutateStep op s = .next (afterSend op (leaveCritical (s.setRing op.channel r))) := by
  simp only [mutateStep, hv, atomicPush_eq h]

theorem mutateStep_receive (hv : op.channel ≠ .serTx)
    (h : (s.ring op.channel).pop (s.cap op.channel) = .ok (r, v)) :
    mutateStep op s = .next (afterReceive op v (leaveCritical (s.setRing op.channel r))) := by
  simp only [mutateStep, (sends_eq_none_iff op s.cfg).2 hv, atomicPop_eq h]

theorem checkStep_true (h : op.cond s = .ok true) : checkStep op s = .next (s.setMl (.busy op .mutate)) := by
  simp only [checkStep, h]

theorem checkStep_false (h : op.cond s = .ok false) : checkStep op s =
    if s.cfg.atomicCheckSleep = true then
      .next { s with sys := { s.sys with sleeping := true, ml := .busy op .check } }
    else .next (s.setMl (.busy op .sleep)) := by
  simp only [checkStep, h]

/-- The wait condition of an initialised block has a value. -/
theorem cond_answers (hs : Initialised s) (op : MlOp) : ∃ b, op.cond s = .ok b := by
  by_cases hop : op.channel = .serTx
  · exact ⟨_, by rw [cond_sender hop, ← ring_serTx, isFull_eq_content (hs.cap_le _) (hs.legal _)]; rfl⟩
  · exact ⟨_, by rw [cond_receiver hop, isEmpty_eq_content (hs.legal _)]; rfl⟩

/-- Every phase of mainline answers a next state: a MUTATE finds what its CHECK found (20_memory.md R53). -/
theorem mainlineStep_answers (hinv : inv s = true) (hboot : booted s = true) : ∃ t, mainlineStep s = .next t := by
  have hs := initialised_of_booted hinv hboot
  obtain ⟨-, -, -, -, hmainline⟩ := inv_iff.1 hinv
  unfold mainlineStep
  split
  case h_1 => exact ⟨s, rfl⟩
  case h_2 op hml =>
    obtain ⟨b, hb⟩ := cond_answers hs op
    cases b with
    | true => exact ⟨_, checkStep_true hb⟩
    | false => rw [checkStep_false hb]; split <;> exact ⟨_, rfl⟩
  case h_3 => exact ⟨_, rfl⟩
  case h_4 op hml =>
    have hcond := ((mainlineInv_busy hml).1 hmainline).found rfl
    by_cases hop : op.channel = .serTx
    · obtain ⟨v, hv⟩ := Option.isSome_iff_exists.1 ((sends_isSome_iff op s.cfg).2 hop)
      obtain ⟨r, ok, hpush⟩ := hs.push op.channel v
      exact ⟨_, mutateStep_send hv hpush⟩
    · rcases hs.pop op.channel with ⟨hempty, -⟩ | ⟨-, r, c, hpop⟩
      · rw [cond_receiver hop, hempty] at hcond
        cases hcond
      · exact ⟨_, mutateStep_receive hop hpop⟩

/-! ### Initialisation is kept -/

theorem raw_startIx (h : RawMove n r r') (hs : r.startIx.isSome = true) : r'.startIx.isSome = true := by
  cases h with
  | clear => rfl
  | push v ok h => rwa [push_startIx h]
  | pop v h =>
    obtain ⟨a, b, -, -, -, -, -, rfl⟩ := pop_ok h
    rfl

theorem effect_startIx (h : Effect s i t) (hi : i ≠ .sysReset) (hs : (s.ring f).startIx.isSome = true) :
    (t.ring f).startIx.isSome = true := by
  have hring := effect_ring h f
  generalize t.ring f = r at hring
  cases hring with
  | kept => exact hs
  | raw _ h => exact raw_startIx h hs
  | reset h => exact absurd h hi
  | loaded v _ _ h => exact raw_startIx (.pop v h) hs
  | stored v ok _ _ _ h | accepted v ok _ _ _ _ h => exact raw_startIx (.push v ok h) hs

theorem phase_startIx (h : PhaseEffect s t) (hs : (s.ring f).startIx.isSome = true) :
    (t.ring f).startIx.isSome = true := by
  have hring := phase_ring h f
  generalize t.ring f = r at hring
  cases hring with
  | kept => exact hs
  | sent _ v ok _ _ _ h => exact raw_startIx (.push v ok h) hs
  | received _ c _ _ _ h => exact raw_startIx (.pop c h) hs

theorem effect_bitCount (h : Effect s i t) (hi : i ≠ .sysReset) (hs : s.cl.bitCount.isSome = true) :
    t.cl.bitCount.isSome = true := by
  cases h with
  | edge b u hie hframe => exact frameStep_bitCount_isSome (t := u) hframe
  | init => rfl
  | reset => exact absurd rfl hi
  | _ => simpa using hs

/-- All that a step can do when it faults. -/
theorem step_fault (h : step s = .fault e) :
    (s.mainlineMoves = true ∧ mainlineStep s.takeTurn = .fault e) ∨
      ∃ i rest, applies s i ∧ exec i { s.takeTurn with stream := rest } = .fault e := by
  unfold step at h
  split at h
  · split at h
    · exact .inl ⟨by assumption, h⟩
    · rename_i hm
      obtain ⟨i, rest, hd, hexec⟩ := stimulusStep_fault h
      exact .inr ⟨i, rest, ⟨by simpa using hm, rest, by simpa using hd⟩, hexec⟩
  · cases h

@[simp] theorem booted_withInput (s : State) (bs : List Byte) (ts : List Turn) :
    booted (s.withInput bs ts) = booted s := rfl

/-- Settles O56: no phase of mainline faults, and of the stimuli only the raw pop. -/
theorem initialisedBlockFaultsOnlyOnRawPop : Obligations.InitialisedBlockFaultsOnlyOnRawPop := by
  intro s hinv hboot
  refine ⟨fun e h => ?faults, fun t h => ?kept⟩
  case faults =>
    obtain ⟨ts, hts⟩ := takeTurn_eq_withInput s
    rcases step_fault h with ⟨-, hphase⟩ | ⟨i, rest, ha, hexec⟩
    · obtain ⟨t, ht⟩ := mainlineStep_answers (s := s.withInput s.stream ts) hinv hboot
      rw [hts, ht] at hphase
      cases hphase
    · rw [hts] at hexec
      obtain ⟨he, f, rfl, hempty⟩ := exec_fault_is_popEmpty (s := s.withInput rest ts) hinv hboot hexec
      exact ⟨he, f, ha, by simpa using hempty⟩
  case kept =>
    obtain ⟨hstart, hcount⟩ := booted_iff.1 hboot
    cases (step_effect h).2 with
    | waits => exact .inl hboot
    | phase ts hm h =>
      obtain ⟨-, -, hcl, -⟩ := phase_frame h
      exact .inl (booted_iff.2 ⟨fun f => phase_startIx h (by simpa using hstart f), by simpa [hcl] using hcount⟩)
    | stimulus i rest ts ha hwf h =>
      by_cases hi : i = .sysReset
      · exact .inr (hi ▸ ha)
      · exact .inl (booted_iff.2
          ⟨fun f => effect_startIx h hi (by simpa using hstart f), effect_bitCount h hi (by simpa using hcount)⟩)

end Sys2Proof.Machine
end

section
/-! Blocking operations: how they are accepted and refused, and what each phase does (60_exceptions.md R160, R165). -/

namespace Sys2Proof.Machine

open Sys2Proof.Safety

variable {s : State} {i : Instr} {op : MlOp} {m : Mainline} {v c : Byte} {r : Ring} {ok : Bool}

/-! ### Acceptance -/

theorem asSerialBlocking_ready (hr : s.ready = true) (hc : s.st.configured = true) (hie : s.sys.ie = true) (k : Out) :
    asSerialBlocking s k = k := by
  simp [asSerialBlocking, asMainline_ready hr, hc, hie]

theorem asSerialBlocking_notConfigured (hr : s.ready = true) (hc : s.st.configured = false) (k : Out) :
    asSerialBlocking s k = .refused .notConfigured := by
  simp [asSerialBlocking, asMainline_ready hr, hc]

theorem asSerialBlocking_interruptsOff (hr : s.ready = true) (hc : s.st.configured = true) (hie : s.sys.ie = false)
    (k : Out) : asSerialBlocking s k = .refused .interruptsOff := by
  simp [asSerialBlocking, asMainline_ready hr, hc, hie]

theorem asLinkBlocking_ready (hr : s.ready = true) (hie : s.sys.ie = true) (k : Out) : asLinkBlocking s k = k := by
  simp [asLinkBlocking, asMainline_ready hr, hie]

theorem asLinkBlocking_interruptsOff (hr : s.ready = true) (hie : s.sys.ie = false) (k : Out) :
    asLinkBlocking s k = .refused .interruptsOff := by
  simp [asLinkBlocking, asMainline_ready hr, hie]

theorem exec_stRecvLine (hr : s.ready = true) (hc : s.st.configured = true) (hie : s.sys.ie = true) {m : Byte}
    (hm : 2 ≤ m.toNat) : exec (.stRecvLine m) s = .next (s.begin (.recvLine m [])) := by
  have h0 : m ≠ 0 := by rintro rfl; simp at hm
  have h1 : m.toNat - 1 ≠ 0 := by omega
  rw [exec, execStRecvLine, asSerialBlocking_ready hr hc hie, decide_eq_true h0, require_true, if_neg h1]

/-- Settles O19: behind the gates each operation starts at its CHECK, but for the two that have nothing to wait for. -/
theorem blockingOperationsAreAccepted : Obligations.BlockingOperationsAreAccepted := by
  refine fun s hr hie => ⟨fun hc => ?serial, asLinkBlocking_ready hr hie _, asLinkBlocking_ready hr hie _⟩
  case serial =>
    have hgate := asSerialBlocking_ready hr hc hie
    exact ⟨fun _ => hgate _, hgate _, fun _ _ => hgate _, hgate _, hgate _, hgate _,
      fun _ hm => exec_stRecvLine hr hc hie hm⟩

/-- A blocking stimulus of the serial transport stands behind the three gates of R165. -/
theorem exec_eq_asSerialBlocking
    (hi : (∃ v, i = .stSendByte v) ∨ (∃ c, i = .stSendString c) ∨ i = .stRecvByte ∨ ∃ m, i = .stRecvLine m) :
    ∃ k, exec i s = asSerialBlocking s k := by
  rcases hi with ⟨v, rfl⟩ | ⟨c, rfl⟩ | rfl | ⟨m, rfl⟩ <;> exact ⟨_, rfl⟩

theorem exec_eq_asLinkBlocking (hi : i = .clReadByte ∨ i = .clReadScancode) : ∃ k, exec i s = asLinkBlocking s k := by
  rcases hi with rfl | rfl <;> exact ⟨_, rfl⟩

/-- Settles O20: the order of the gates is the order of the refusals. -/
theorem blockingOperationsAreRefusedInOrder : Obligations.BlockingOperationsAreRefusedInOrder := by
  refine fun i s => ⟨fun hi => ?serial, fun hi => ?link⟩
  case serial =>
    obtain ⟨k, hk⟩ := exec_eq_asSerialBlocking (s := s) hi
    rw [hk]
    exact ⟨fun hb => asMainline_busy hb _, fun hr hc => asSerialBlocking_notConfigured hr hc k,
      fun hr hc hie => asSerialBlocking_interruptsOff hr hc hie k⟩
  case link =>
    obtain ⟨k, hk⟩ := exec_eq_asLinkBlocking (s := s) hi
    rw [hk]
    exact ⟨fun hb => asMainline_busy hb _, fun hr hie => asLinkBlocking_interruptsOff hr hie k⟩

/-- Settles O48: a stimulus of mainline stands behind that gate, and no other stimulus has that refusal. -/
theorem busyMainlineRefusesItsStimuli : Obligations.BusyMainlineRefusesItsStimuli := by
  refine fun i s => ⟨fun hi hb => ?gated, fun hi => ?free⟩
  case gated =>
    cases i with
    | stIsrTx | stIsrRx | clIsrEdge | sysReset | envRxArrive | envTxDone | envClkFall => cases hi
    | _ => exact asMainline_busy hb _
  case free =>
    cases i with
    | stIsrTx | stIsrRx | clIsrEdge => exact exec_handler_ne rfl nofun nofun nofun
    | sysReset | envClkFall => nofun
    | envRxArrive => exact require_ne nofun (by split <;> simp)
    | envTxDone => exact require_ne nofun (require_ne nofun (by split <;> simp))
    | _ => cases hi

/-! ### CHECK and SLEEP -/

theorem mainlineStep_check (hml : s.sys.ml = .busy op .check) : mainlineStep s = checkStep op s := by
  simp only [mainlineStep, hml]

theorem mainlineStep_sleep (hml : s.sys.ml = .busy op .sleep) : mainlineStep s = sleepStep op s := by
  simp only [mainlineStep, hml]

theorem mainlineStep_mutate (hml : s.sys.ml = .busy op .mutate) : mainlineStep s = mutateStep op s := by
  simp only [mainlineStep, hml]

/-- The condition of an operation on its two indices (R14, R160). -/
theorem cond_eq_not_blocked {a b : Byte} {blocked : Bool} (hcap : s.cfg.capOk op.channel = true)
    (hix : indicesAre s op.channel a b)
    (hb : blocked = true ↔ if op.channel = .serTx then (b.toNat + 1) % s.cap .serTx = a.toNat else a = b) :
    op.cond s = .ok (!blocked) := by
  obtain ⟨h2, hn⟩ := capOk_iff.1 hcap
  obtain ⟨ha, hb'⟩ := hix
  by_cases hop : op.channel = .serTx
  · rw [if_pos hop] at hb
    rw [hop] at h2 hn ha hb'
    have hd : decide ((b.toNat + 1) % s.cap .serTx = a.toNat) = blocked :=
      Bool.eq_iff_iff.2 (decide_eq_true_iff.trans hb.symm)
    rw [cond_sender hop, ← ring_serTx, isFull_eq (n := s.cap .serTx) (by omega) (by omega) ha hb', hd]
    rfl
  · rw [if_neg hop] at hb
    have hd : decide (a = b) = blocked := Bool.eq_iff_iff.2 (decide_eq_true_iff.trans hb.symm)
    rw [cond_receiver hop, isEmpty_eq ha hb', hd]
    rfl

theorem step_eq_mainlineStep (hcap : s.cfg.capacityOk = true) (hm : s.mainlineMoves = true) :
    step s = mainlineStep s.takeTurn := by
  simp [step, hcap, hm]

theorem step_eq_stimulusStep (hcap : s.cfg.capacityOk = true) (hm : s.mainlineMoves = false) :
    step s = stimulusStep s.takeTurn := by
  simp [step, hcap, hm]

theorem takeTurn_of_not_canMove (h : s.canMove = false) : s.takeTurn = s := by simp [State.takeTurn, h]

theorem takeTurn_of_canMove (h : s.canMove = true) : s.takeTurn = { s with turns := s.turns.tail } := by
  simp [State.takeTurn, h]

/-- Settles O42: the two branches of CHECK, the one of SLEEP, and a sleeping mainline that cannot move. -/
theorem checkAndSleepPhasesDecideTheWait : Obligations.CheckAndSleepPhasesDecideTheWait := by
  refine ⟨fun s op a b hml hcap hix blocked hb => ?check, fun s op hml => mainlineStep_sleep hml,
    fun s hcap hs => ?asleep⟩
  case check =>
    have hcond := cond_eq_not_blocked hcap hix hb
    rw [mainlineStep_check hml]
    cases blocked with
    | false => exact checkStep_true hcond
    | true => exact checkStep_false hcond
  case asleep => rw [step_eq_stimulusStep hcap (mainlineMoves_asleep hs), takeTurn_of_not_canMove (canMove_asleep hs)]

/-! ### MUTATE of a sender (41_serial_transport_ops.md R103, R105) -/

/-- The byte `v` is due from a sender, which then leaves mainline at `m`: a carriage return first where the newline
expansion asks for one. -/
def SenderDue (p : Params) (op : MlOp) (v : Byte) (m : Mainline) : Prop :=
  (∃ x sent, op = .sendByte x sent ∧
      if p.crlfInSendByte = true ∧ x = Config.newline ∧ sent = false then
        v = Config.carriageReturn ∧ m = .busy (.sendByte x true) .check
      else v = x ∧ m = .idle) ∨
    (∃ x rest sent, op = .sendString x rest sent ∧
      if x = Config.newline ∧ sent = false then
        v = Config.carriageReturn ∧ m = .busy (.sendString x rest true) .check
      else v = x ∧ m = (match rest with | [] => .idle | y :: ys => .busy (.sendString y ys false) .check))

theorem crDue_sendByte {p : Params} {x : Byte} {sent : Bool} :
    crDue p (.sendByte x sent) = true ↔ p.crlfInSendByte = true ∧ x = Config.newline ∧ sent = false := by
  simp [crDue, and_assoc]

theorem crDue_sendString {p : Params} {x : Byte} {rest : List Byte} {sent : Bool} :
    crDue p (.sendString x rest sent) = true ↔ x = Config.newline ∧ sent = false := by
  simp [crDue]

theorem channel_of_due {p : Params} (h : SenderDue p op v m) : op.channel = .serTx := by
  rcases h with ⟨x, sent, rfl, -⟩ | ⟨x, rest, sent, rfl, -⟩ <;> rfl

theorem sends_of_due {p : Params} (h : SenderDue p op v m) : op.sends p = some v := by
  rcases h with ⟨x, sent, rfl, h⟩ | ⟨x, rest, sent, rfl, h⟩
  · simp only [← crDue_sendByte] at h
    split at h <;> rename_i hcr <;> simp [MlOp.sends, hcr, h.1]
  · simp only [← crDue_sendString (p := p) (rest := rest)] at h
    split at h <;> rename_i hcr <;> simp [MlOp.sends, hcr, h.1]

theorem afterSend_of_due (h : SenderDue s.cfg op v m) : afterSend op s = s.setMl m := by
  rcases h with ⟨x, sent, rfl, h⟩ | ⟨x, rest, sent, rfl, h⟩
  · simp only [← crDue_sendByte] at h
    split at h <;> rename_i hcr <;> simp [afterSend, hcr, h.2, State.begin]
  · simp only [← crDue_sendString (p := s.cfg) (rest := rest)] at h
    split at h <;> rename_i hcr
    · simp [afterSend, hcr, h.2, State.begin]
    · cases rest <;> simp [afterSend, hcr, h.2, State.begin]

/-- The MUTATE of a sender whose push answered (20_memory.md R50). -/
theorem mainlineStep_send (hml : s.sys.ml = .busy op .mutate) (hdue : SenderDue s.cfg op v m)
    (hpush : s.serTx.push (s.cap .serTx) v = .ok (r, ok)) :
    mainlineStep s = .next ((leaveCritical (s.setRing .serTx r)).setMl m) := by
  have hop := channel_of_due hdue
  rw [mainlineStep_mutate hml, mutateStep_send (r := r) (ok := ok) (sends_of_due hdue)
    (by simpa [hop] using hpush), hop]
  exact congrArg _ (afterSend_of_due (s := leaveCritical (s.setRing .serTx r)) hdue)

/-- Settles O43: the push finds room, and the operation goes on as `SenderDue` says. -/
theorem senderMutateAppends : Obligations.SenderMutateAppends := by
  intro s op a b v m hml ⟨ha, hb⟩ hcap hla hlb hroom hdue
  obtain ⟨h2, hn⟩ := capOk_iff.1 hcap
  rw [Ne, ← nextIx_eq_iff (n := s.cap .serTx) (by omega) (by omega)] at hroom
  refine ⟨_, mainlineStep_send hml hdue (push_room ha hb hlb hroom), ?_⟩
  exact ⟨rfl, ha, rfl, memory_read_write_same _ _ _, fun i hi => memory_read_write_other _ _ hi, rfl, rfl, rfl, rfl,
    rfl, rfl, rfl, rfl⟩

/-! ### MUTATE of a receiver (R107, R109; 42_clocked_link_decoder_ops.md R125, R126) -/

/-- A receiver that took the byte `c` logs `new` and leaves mainline at `m`. -/
def ReceiverDue (p : Params) (op : MlOp) (c : Byte) (m : Mainline) (new : List Logged) : Prop :=
  (op = .recvByte ∧ m = .idle ∧ new = [.byte c]) ∨ (op = .readByte ∧ m = .idle ∧ new = [.byte c]) ∨
    (∃ maxLen line, op = .recvLine maxLen line ∧
      if c = Config.newline then m = .idle ∧ new = [.line line.length (line ++ [0x00])]
      else if line.length + 1 = maxLen.toNat - 1 then
        m = .idle ∧ new = [.line (line.length + 1) (line ++ [c] ++ [0x00])]
      else line.length + 1 < maxLen.toNat - 1 ∧ m = .busy (.recvLine maxLen (line ++ [c])) .check ∧ new = []) ∨
    (∃ first, op = .readScancode first ∧
      if first = none ∧ c ∈ p.escapeSet then m = .busy (.readScancode (some c)) .check ∧ new = []
      else m = .idle ∧ new = [.byte (translateByte p c)])

/-- The state with `new` logged and mainline at `m`. -/
def State.logged (s : State) (new : List Logged) (m : Mainline) : State :=
  { s with obs := { s.obs with results := s.obs.results ++ new }, sys := { s.sys with ml := m } }

section
variable (s : State) (new : List Logged) (m : Mainline)

@[simp] theorem logged_ring (f : Inst) : (s.logged new m).ring f = s.ring f := by cases f <;> rfl
@[simp] theorem logged_st : (s.logged new m).st = s.st := rfl
@[simp] theorem logged_cl : (s.logged new m).cl = s.cl := rfl
@[simp] theorem logged_sys : (s.logged new m).sys = { s.sys with ml := m } := rfl
@[simp] theorem logged_obs : (s.logged new m).obs = { s.obs with results := s.obs.results ++ new } := rfl
@[simp] theorem logged_cfg : (s.logged new m).cfg = s.cfg := rfl
@[simp] theorem logged_stream : (s.logged new m).stream = s.stream := rfl
@[simp] theorem logged_turns : (s.logged new m).turns = s.turns := rfl

end

theorem leaveCritical_sys (s : State) : (leaveCritical s).sys = { s.sys with ie := true } := rfl

theorem logged_nil (s : State) (m : Mainline) : s.logged [] m = s.setMl m := by
  simp [State.logged, State.setMl]

theorem afterReceive_of_due {new : List Logged} (h : ReceiverDue s.cfg op c m new) :
    afterReceive op c s = s.logged new m := by
  rcases h with ⟨rfl, rfl, rfl⟩ | ⟨rfl, rfl, rfl⟩ | ⟨maxLen, line, rfl, h⟩ | ⟨first, rfl, h⟩
  · rfl
  · rfl
  · simp only [afterReceive, afterLineByte]
    split at h
    case isTrue hnl =>
      obtain ⟨rfl, rfl⟩ := h
      rw [if_pos hnl]
      rfl
    case isFalse hnl =>
      split at h
      case isTrue hlast =>
        obtain ⟨rfl, rfl⟩ := h
        rw [if_neg hnl, if_neg (by omega), List.append_assoc]
        rfl
      case isFalse hmore =>
        obtain ⟨hlt, rfl, rfl⟩ := h
        rw [if_neg hnl, if_pos hlt, logged_nil]
        rfl
  · have hescape : isEscape s.cfg c = true ↔ c ∈ s.cfg.escapeSet := by simp [isEscape]
    simp only [afterReceive, afterScanByte, hescape]
    split at h
    case isTrue hfirst =>
      obtain ⟨rfl, rfl⟩ := h
      rw [if_pos hfirst, logged_nil]
      rfl
    case isFalse hfirst =>
      obtain ⟨rfl, rfl⟩ := h
      rw [if_neg hfirst]
      rfl

/-- The MUTATE of a receiver whose pop answered (20_memory.md R50). -/
theorem mainlineStep_receive {new : List Logged} (hml : s.sys.ml = .busy op .mutate) (hop : op.channel ≠ .serTx)
    (hdue : ReceiverDue s.cfg op c m new)
    (hpop : (s.ring op.channel).pop (s.cap op.channel) = .ok (r, c)) :
    mainlineStep s = .next ((leaveCritical (s.setRing op.channel r)).logged new m) := by
  rw [mainlineStep_mutate hml, mutateStep_receive hop hpop]
  exact congrArg _ (afterReceive_of_due (by simpa using hdue))

/-- Settles O44: the pop takes the byte of slot `start`, and the operation goes on as `ReceiverDue` says. -/
theorem receiverMutateTakes : Obligations.ReceiverMutateTakes := by
  intro s op a b c m new hml hop ⟨ha, hb⟩ hcap hla hne hread hdue
  obtain ⟨h2, hn⟩ := capOk_iff.1 hcap
  refine ⟨_, mainlineStep_receive hml hop hdue (pop_written ha hb hla hne hread), ?_⟩
  refine ⟨by simp [leaveCritical_sys], by rw [logged_ring, leaveCritical_ring, ring_setRing_same]; rfl, by simp,
    fun g hg => ?other, by simp, by simp, by simp, by simp, by simp⟩
  case other => rw [logged_ring, leaveCritical_ring, ring_setRing_other s hg]

end Sys2Proof.Machine
end

section
/-! The step and its schedule, a word placed in the stream, and the reads of what holds no value (60_exceptions.md R151,
R155, R165; 10_state.md R36). -/

namespace Sys2Proof.Machine

open Sys2Proof.Safety

variable {s : State} {i : Instr} {rest : List Byte} {op : MlOp} {e : Fault}

/-! ### The stimulus at the front of the stream -/

theorem stimulusStep_of_decode (hd : decode s.stream = .ok (i, rest)) :
    stimulusStep s = exec i { s with stream := rest } := by
  have hf : fetch s = .stimulus i { s with stream := rest } := by
    unfold fetch
    split
    case h_1 hnil => rw [hnil] at hd; cases hd
    case h_2 op bytes hcons => rw [← hcons, hd]
  rw [stimulusStep, hf]

theorem stimulusStep_of_end (hend : s.stream = []) : stimulusStep s = .next s := by
  have hf : fetch s = .none := by
    unfold fetch
    rw [hend]
  rw [stimulusStep, hf]

/-- Settles O45: the fetch takes what the decoder takes. -/
theorem stepRunsTheDecodedStimulus : Obligations.StepRunsTheDecodedStimulus := by
  intro s i rest hcap hm hd
  rw [step_eq_stimulusStep hcap hm, stimulusStep_of_decode (by simpa using hd)]

/-! ### The schedule -/

theorem mainlineMoves_iff : s.mainlineMoves = true ↔ s.canMove = true ∧ s.turns.head? ≠ some .other := by
  simp [State.mainlineMoves]

theorem mainlineMoves_other {ts : List Turn} (h : s.turns = .other :: ts) : s.mainlineMoves = false := by
  simp [State.mainlineMoves, h]

theorem mainlineMoves_eager (hm : s.canMove = true) (h : s.turns = []) : s.mainlineMoves = true :=
  mainlineMoves_iff.2 ⟨hm, by simp [h]⟩

/-- With no turns left mainline moves first, and there is no turn to take (60_exceptions.md R165). -/
theorem step_eager (hcap : s.cfg.capacityOk = true) (hm : s.canMove = true) (h : s.turns = []) :
    step s = mainlineStep s := by
  rw [step_eq_mainlineStep hcap (mainlineMoves_eager hm h), takeTurn_of_canMove hm, h, List.tail_nil, ← h]

theorem step_other {ts : List Turn} (hcap : s.cfg.capacityOk = true) (hm : s.canMove = true)
    (h : s.turns = .other :: ts) :
    step s = stimulusStep { s with turns := ts } := by
  rw [step_eq_stimulusStep hcap (mainlineMoves_other h), takeTurn_of_canMove hm, h, List.tail_cons]

/-- Settles O46: the head of the turn list decides, and taking the turn drops it. -/
theorem turnsChooseTheAgent : Obligations.TurnsChooseTheAgent := by
  refine fun s hcap hm => ⟨step_eager hcap hm, fun ts h => ?mainline, fun ts h => step_other hcap hm h,
    fun ts h hend => ?waits⟩
  case mainline =>
    rw [step_eq_mainlineStep hcap (mainlineMoves_iff.2 ⟨hm, by simp [h]⟩), takeTurn_of_canMove hm, h, List.tail_cons]
  case waits => exact (step_other hcap hm h).trans (stimulusStep_of_end (by exact hend))

/-! ### A word placed in the stream -/

/-- The bytes of a table word are exactly the encoding of what it decodes to (30_encoding.md R64). -/
theorem tableStream_eq_encode {nbits w : Nat} (h : decodeTableWord nbits w = some i) :
    i.wf = true ∧ tableStream nbits w = encode i := by
  unfold decodeTableWord at h
  split at h
  case h_1 j tail hd =>
    cases h
    obtain ⟨hwf, hbytes⟩ := decodedBytesAreTheEncoding _ i tail hd
    refine ⟨hwf, ?_⟩
    have htake : tableStream nbits w = (tableBytes nbits w).take ((tableBytes nbits w).length - tail.length) := by
      simp only [tableStream, hd]
    rw [htake, hbytes, List.length_append, Nat.add_sub_cancel, List.take_left']
    rfl
  case h_2 => cases h

/-- The state that a step hands to a placed stimulus: the turn given to it is taken again. -/
theorem withFetchWord_takeTurn (s : State) (nbits w : Nat) :
    { (s.withFetchWord nbits w).takeTurn with stream := [] } = { s with stream := [] } := by
  have hmove : (s.withFetchWord nbits w).canMove = s.canMove := rfl
  cases hm : s.canMove with
  | true =>
    rw [takeTurn_of_canMove (hmove.trans hm)]
    simp [State.withFetchWord, hm]
  | false =>
    rw [takeTurn_of_not_canMove (hmove.trans hm)]
    simp [State.withFetchWord, hm]

theorem withFetchWord_not_mainlineMoves (s : State) (nbits w : Nat) :
    (s.withFetchWord nbits w).mainlineMoves = false := by
  have hmove : (s.withFetchWord nbits w).canMove = s.canMove := rfl
  cases hm : s.canMove with
  | true => exact mainlineMoves_other (ts := s.turns) (by simp [State.withFetchWord, hm])
  | false => simp [State.mainlineMoves, hmove, hm]

/-- Settles O47: the placed bytes are the encoding alone, and mainline does not move first. -/
theorem placedWordRunsNext : Obligations.PlacedWordRunsNext := by
  intro s nbits w i hcap hw
  obtain ⟨hwf, hbytes⟩ := tableStream_eq_encode hw
  have hd : decode (s.withFetchWord nbits w).stream = .ok (i, []) := by
    show decode (tableStream nbits w) = _
    rw [hbytes]
    simpa using encodeThenDecodeGivesTheStimulus i [] hwf
  rw [stepRunsTheDecodedStimulus (s.withFetchWord nbits w) i [] hcap (withFetchWord_not_mainlineMoves s nbits w) hd,
    withFetchWord_takeTurn]

/-! ### Reads of what holds no value -/

theorem cond_none (h : (s.ring op.channel).startIx = none ∨ (s.ring op.channel).endIx = none) :
    op.cond s = .error .uninitialised := by
  by_cases hop : op.channel = .serTx
  · rw [hop, ring_serTx] at h
    rw [cond_sender hop, isFull_none h]
    rfl
  · rw [cond_receiver hop, isEmpty_none h]
    rfl

theorem checkStep_error (h : op.cond s = .error e) : checkStep op s = .fault e := by simp only [checkStep, h]

theorem exec_stIsrTx_error (hc : s.st.configured = true) (hie : s.sys.ie = true) (hev : s.st.txdEmpty = true)
    (h : s.serTx.isEmpty = .error e) : exec .stIsrTx s = .fault e := by
  have hbody : isrTxBody (enterHandler s) = .error e := by simp [isrTxBody, h]
  exact dispatch_error (fun _ => hc) hie (by simp [pending, hc, hev]) hbody

theorem exec_stIsrRx_error (hc : s.st.configured = true) (hie : s.sys.ie = true) (hev : s.st.rxdFull = true)
    (h : isrRxBody (enterHandler s) = .error e) : exec .stIsrRx s = .fault e :=
  dispatch_error (fun _ => hc) hie (by simp [pending, hc, hev]) h

/-- The receive-ready handler reads its register first and the indices after it (41_serial_transport_ops.md R113). -/
theorem isrRxBody_none (h : s.serRx.startIx = none ∨ s.serRx.endIx = none ∨ s.st.rxd = none) :
    isrRxBody s = .error .uninitialised := by
  cases hv : s.st.rxd with
  | none => simp only [isrRxBody, hv]
  | some v =>
    have hix : s.serRx.startIx = none ∨ s.serRx.endIx = none := by simpa [hv] using h
    simp only [isrRxBody, hv, push_none hix]

/-- Settles O59: each read is the first thing that can stop its rule, so that its fault is the step's. -/
theorem readingWhatHoldsNoValueFaults : Obligations.ReadingWhatHoldsNoValueFaults :=
  ⟨fun _ _ hml h => (mainlineStep_check hml).trans (checkStep_error (cond_none h)),
    fun _ hc hie hev h => exec_stIsrTx_error hc hie hev (isEmpty_none h),
    fun _ hc hie hev h => exec_stIsrRx_error hc hie hev (isrRxBody_none h),
    fun _ hc he hv => by simp [exec, execEnvTxDone, hc, he, hv]⟩

end Sys2Proof.Machine
end

section
/-! Whole operations of mainline under the eager schedule: the acceptance, and a CHECK and a MUTATE per byte
(41_serial_transport_ops.md sections 2 and 3, 42_clocked_link_decoder_ops.md section 2; 60_exceptions.md R160, R165). -/

namespace Sys2Proof.Machine

open Sys2Proof.Safety

variable {s t : State} {i : Instr} {op op' : MlOp} {m : Mainline} {v c a b : Byte} {r r' : Ring} {n k : Nat} {f : Inst}
  {bs rest : List Byte} {new : List Logged} {waiting : List (Option Byte)}

/-! ### Steps under the eager schedule -/

theorem run_step (k : Nat) (h : step s = .next t) : Host.Core.run core (1 + k) s = Host.Core.run core k t :=
  run_add 1 k (run_one h)

/-- Mainline, when it has something to do, does it at the next step, with interrupts on (R165). -/
structure Eager (s : State) : Prop where
  cap : s.cfg.capacityOk = true
  ie : s.sys.ie = true
  awake : s.sys.sleeping = false
  turns : s.turns = []

theorem Eager.step (hs : Eager s) {ph : Phase} (hml : s.sys.ml = .busy op ph) : step s = mainlineStep s :=
  step_eager hs.cap ((canMove_iff s).2 ⟨by simp [hml], hs.awake⟩) hs.turns

theorem Eager.setMl (hs : Eager s) (m : Mainline) : Eager (s.setMl m) := ⟨hs.cap, hs.ie, hs.awake, hs.turns⟩

theorem Eager.setRing (hs : Eager s) (f : Inst) (r : Ring) : Eager (s.setRing f r) :=
  ⟨by simpa using hs.cap, by simpa using hs.ie, by simpa using hs.awake, by simpa using hs.turns⟩

/-- A critical section of a mainline with interrupts on leaves the flag as it found it. -/
theorem leaveCritical_logged (hs : Eager s) (m' : Mainline) (f : Inst) (r : Ring) (new : List Logged) (m : Mainline) :
    (leaveCritical ((s.setMl m').setRing f r)).logged new m = (s.setRing f r).logged new m := by
  have hie := hs.ie
  cases f <;> simp [State.logged, leaveCritical, State.setMl, State.setRing, hie]

theorem leaveCritical_setMl (hs : Eager s) (m' : Mainline) (f : Inst) (r : Ring) (m : Mainline) :
    (leaveCritical ((s.setMl m').setRing f r)).setMl m = (s.setRing f r).setMl m := by
  simpa only [logged_nil] using leaveCritical_logged hs m' f r [] m

/-- The CHECK of an operation whose condition is true. -/
theorem Eager.step_check (hs : Eager s) (hml : s.sys.ml = .busy op .check) (hc : op.cond s = .ok true) :
    Machine.step s = .next (s.setMl (.busy op .mutate)) := by
  rw [hs.step hml, mainlineStep_check hml, checkStep_true hc]

/-- One round of a sender: the CHECK that finds room and the MUTATE that stores (R160). -/
theorem Eager.run_send (hs : Eager s) (hml : s.sys.ml = .busy op .check) (hdue : SenderDue s.cfg op v m)
    (ha : s.serTx.startIx = some a) (hb : s.serTx.endIx = some b) (hlb : b.toNat < s.cap .serTx)
    (hroom : nextIx (s.cap .serTx) b ≠ a) :
    Host.Core.run core 2 s = .next ((s.setRing .serTx (s.serTx.stored (s.cap .serTx) b v)).setMl m) := by
  have hn := cap_le hs.cap .serTx
  have hop := channel_of_due hdue
  have hcond : op.cond s = .ok true := by
    have hne : ¬ (b.toNat + 1) % s.cap .serTx = a.toNat := by rwa [← nextIx_eq_iff (cap_pos hs.cap _) hn]
    rw [cond_sender hop, isFull_eq (cap_pos hs.cap _) hn ha hb, decide_eq_false hne]
    rfl
  have hmutate := mainlineStep_send (s := s.setMl (.busy op .mutate)) rfl hdue (push_room (v := v) ha hb hlb hroom)
  rw [leaveCritical_setMl hs] at hmutate
  rw [← (hs.setMl _).step (op := op) rfl] at hmutate
  exact (run_step 1 (hs.step_check hml hcond)).trans (run_one hmutate)

/-- One round of a receiver: the CHECK that finds an element and the MUTATE that takes it (R160). -/
theorem Eager.run_receive (hs : Eager s) (hml : s.sys.ml = .busy op .check) (hop : op.channel ≠ .serTx)
    (hdue : ReceiverDue s.cfg op c m new) (hl : (s.ring op.channel).Legal (s.cap op.channel))
    (hcontent : (s.ring op.channel).content (s.cap op.channel) = some c :: waiting)
    (hpop : (s.ring op.channel).pop (s.cap op.channel) = .ok (r, c)) :
    Host.Core.run core 2 s = .next ((s.setRing op.channel r).logged new m) := by
  have hcond : op.cond s = .ok true := by
    rw [cond_iff_content (cap_le hs.cap _) hl, if_neg hop, hcontent]
    simp
  have hmutate := mainlineStep_receive (s := s.setMl (.busy op .mutate)) (r := r) rfl hop hdue (by simpa using hpop)
  rw [leaveCritical_logged hs] at hmutate
  rw [← (hs.setMl _).step (op := op) rfl] at hmutate
  exact (run_step 1 (hs.step_check hml hcond)).trans (run_one hmutate)

/-! ### The acceptance (log 8) -/

/-- A blocking operation at the front of the stream is accepted in one step, which consumes its bytes. -/
theorem run_accepted (hcap : s.cfg.capacityOk = true) (hr : s.ready = true) (hd : decode s.stream = .ok (i, rest))
    (hexec : exec i (s.withInput rest s.turns) = .next t) (k : Nat) :
    Host.Core.run core (1 + k) s = Host.Core.run core k t := by
  obtain ⟨hidle, -⟩ := (ready_iff s).1 hr
  have hmove : s.canMove = false := by simp [State.canMove, hidle]
  have hturn : s.mainlineMoves = false := by simp [State.mainlineMoves, hmove]
  refine run_step k ?_
  rw [stepRunsTheDecodedStimulus s i rest hcap hturn hd, takeTurn_of_not_canMove hmove]
  exact hexec

theorem eager_begin (hcap : s.cfg.capacityOk = true) (hr : s.ready = true) (hie : s.sys.ie = true)
    (hturns : s.turns = []) (rest : List Byte) (op : MlOp) : Eager ((s.withInput rest s.turns).begin op) :=
  ⟨hcap, hie, ((ready_iff s).1 hr).2, hturns⟩

theorem sys_idle (hr : s.ready = true) : { s.sys with ml := .idle } = s.sys := by
  rw [← ((ready_iff s).1 hr).1]

/-! ### Sending (R103, R105) -/

/-- The operation sends the bytes one after another and completes. -/
inductive Sends (p : Params) : MlOp → List Byte → Prop
  | last {op : MlOp} {v : Byte} (h : SenderDue p op v .idle) : Sends p op [v]
  | more {op op' : MlOp} {v : Byte} {bs : List Byte} (h : SenderDue p op v (.busy op' .check)) (hs : Sends p op' bs) :
      Sends p op (v :: bs)

/-- The ring buffer `r'` is `r` with the bytes appended from slot `b` on. -/
structure Appended (n : Nat) (b : Byte) (r : Ring) (bs : List Byte) (r' : Ring) : Prop where
  startIx : r'.startIx = r.startIx
  endIx : r'.endIx = some (BitVec.ofNat 8 ((b.toNat + bs.length) % n))
  content : r'.content n = r.content n ++ bs.map some
  read : ∀ j, (∀ k, k < bs.length → j ≠ (b.toNat + k) % n) → r'.mem.read j = r.mem.read j

theorem appended_singleton (hn : n ≤ 256) (ha : r.startIx = some a) (hb : r.endIx = some b) (hla : a.toNat < n)
    (hlb : b.toNat < n) (hroom : nextIx n b ≠ a) : Appended n b r [v] (r.stored n b v) where
  startIx := rfl
  endIx := rfl
  content := content_append hn ha hb hla hlb hroom
  read j hj := memory_read_write_other _ _ (by simpa [Nat.mod_eq_of_lt hlb] using hj 0 (by simp))

theorem Appended.cons (hn : n ≤ 256) (h0 : 0 < n) (h1 : Appended n b r [v] (r.stored n b v))
    (h2 : Appended n (nextIx n b) (r.stored n b v) bs r') : Appended n b r (v :: bs) r' where
  startIx := h2.startIx.trans h1.startIx
  endIx := by
    rw [h2.endIx, nextIx_toNat h0 hn, Nat.mod_add_mod, List.length_cons, Nat.add_right_comm, Nat.add_assoc]
  content := by rw [h2.content, h1.content]; simp
  read j hj := by
    have hslot : ∀ k, ((nextIx n b).toNat + k) % n = (b.toNat + (k + 1)) % n := fun k => by
      rw [nextIx_toNat h0 hn, Nat.mod_add_mod, Nat.add_right_comm, Nat.add_assoc]
    refine (h2.read j fun k hk => ?_).trans (h1.read j fun k hk => ?_)
    · rw [hslot]
      exact hj (k + 1) (by simpa using hk)
    · obtain rfl : k = 0 := by simpa using hk
      exact hj 0 (by simp)

/-- There is room as long as the content is below `N - 1` elements. -/
theorem room_of_length (hn : n ≤ 256) (ha : r.startIx = some a) (hb : r.endIx = some b) (hla : a.toNat < n)
    (hlb : b.toNat < n) (h : (r.content n).length < n - 1) : nextIx n b ≠ a := by
  rw [content_length ha hb] at h
  rw [Ne, nextIx_eq_iff (by omega) hn, succ_mod_eq_iff hla hlb]
  omega

/-- An operation that sends the bytes appends them to `SER_TX`, two steps each, and leaves mainline idle. -/
theorem Eager.run_sends (hs : Eager s) (hsends : Sends s.cfg op bs) (hml : s.sys.ml = .busy op .check)
    (ha : s.serTx.startIx = some a) (hb : s.serTx.endIx = some b) (hla : a.toNat < s.cap .serTx)
    (hlb : b.toNat < s.cap .serTx)
    (hfit : (s.serTx.content (s.cap .serTx)).length + bs.length ≤ s.cap .serTx - 1) :
    ∃ r, Host.Core.run core (2 * bs.length) s = .next ((s.setRing .serTx r).setMl .idle) ∧
      Appended (s.cap .serTx) b s.serTx bs r := by
  have hn := cap_le hs.cap .serTx
  generalize hp : s.cfg = p at hsends
  induction hsends generalizing s b with
  | last hdue =>
    have hroom := room_of_length hn ha hb hla hlb (by simpa using hfit)
    exact ⟨_, hs.run_send hml (hp ▸ hdue) ha hb hlb hroom, appended_singleton hn ha hb hla hlb hroom⟩
  | @more op op' v bs hdue hsends ih =>
    rw [List.length_cons] at hfit
    have hroom := room_of_length hn ha hb hla hlb (by omega)
    have hone := appended_singleton (v := v) hn ha hb hla hlb hroom
    obtain ⟨r, hrun, happ⟩ := ih (s := (s.setRing .serTx (s.serTx.stored (s.cap .serTx) b v)).setMl (.busy op' .check))
      (b := nextIx (s.cap .serTx) b) ((hs.setRing _ _).setMl _) rfl ha rfl hla (nextIx_lt (cap_pos hs.cap _) hn b)
      (by
        show ((s.serTx.stored (s.cap .serTx) b v).content (s.cap .serTx)).length + bs.length ≤ s.cap .serTx - 1
        rw [hone.content, List.length_append, List.length_map, List.length_singleton]
        omega) hn hp
    refine ⟨r, ?_, .cons hn (cap_pos hs.cap _) hone happ⟩
    rw [List.length_cons, Nat.mul_succ, Nat.add_comm, run_add 2 _ (hs.run_send hml (hp ▸ hdue) ha hb hlb hroom), hrun]
    rfl

/-- `ST.SEND_STRING` sends the expansion of its string (R105). -/
theorem sends_string (p : Params) (x : Byte) (xs : List Byte) :
    Sends p (.sendString x xs false) (expandString (x :: xs)) := by
  induction xs generalizing x with
  | nil =>
    by_cases hx : x = Config.newline
    · have hbytes : expandString [x] = [Config.carriageReturn, x] := by simp [expandString, expandByte, hx]
      rw [hbytes]
      exact .more (op' := .sendString x [] true) (.inr ⟨x, [], false, rfl, by simp [hx]⟩)
        (.last (.inr ⟨x, [], true, rfl, by simp⟩))
    · have hbytes : expandString [x] = [x] := by simp [expandString, expandByte, hx]
      rw [hbytes]
      exact .last (.inr ⟨x, [], false, rfl, by simp [hx]⟩)
  | cons y ys ih =>
    by_cases hx : x = Config.newline
    · have hbytes : expandString (x :: y :: ys) = Config.carriageReturn :: x :: expandString (y :: ys) := by
        simp [expandString, expandByte, hx]
      rw [hbytes]
      exact .more (op' := .sendString x (y :: ys) true) (.inr ⟨x, y :: ys, false, rfl, by simp [hx]⟩)
        (.more (.inr ⟨x, y :: ys, true, rfl, by simp⟩) (ih y))
    · have hbytes : expandString (x :: y :: ys) = x :: expandString (y :: ys) := by
        simp [expandString, expandByte, hx]
      rw [hbytes]
      exact .more (.inr ⟨x, y :: ys, false, rfl, by simp [hx]⟩) (ih y)

/-- Settles O21: the acceptance and one round. -/
theorem sendByteAppendsWhereThereIsRoom : Obligations.SendByteAppendsWhereThereIsRoom := by
  intro s v rest a b hcap hr hc hie hturns hstream hcrlf ⟨ha, hb⟩ hla hlb hroom
  have hn := cap_le hcap .serTx
  rw [Ne, ← nextIx_eq_iff (cap_pos hcap _) hn] at hroom
  have hd : decode s.stream = .ok (.stSendByte v, rest) :=
    hstream ▸ encodeThenDecodeGivesTheStimulus (.stSendByte v) rest rfl
  have hexec : exec (.stSendByte v) (s.withInput rest s.turns) =
      .next ((s.withInput rest s.turns).begin (.sendByte v false)) := asSerialBlocking_ready hr hc hie _
  have hdue : SenderDue s.cfg (.sendByte v false) v .idle := .inl ⟨v, false, rfl, by simp [hcrlf]⟩
  refine ⟨_, (run_accepted hcap hr hd hexec 2).trans
    ((eager_begin hcap hr hie hturns rest _).run_send rfl hdue ha hb hlb hroom), ?_⟩
  exact ⟨content_append hn ha hb hla hlb hroom, ha, rfl, memory_read_write_same _ _ _,
    fun j hj => memory_read_write_other _ _ hj, rfl, rfl, rfl, rfl, sys_idle hr, rfl, rfl, rfl, hturns⟩

theorem appended_nil (hb : r.endIx = some b) (hlb : b.toNat < n) : Appended n b r [] r where
  startIx := rfl
  endIx := by simp [hb, Nat.mod_eq_of_lt hlb]
  content := by simp
  read _ _ := rfl

/-- Settles O22: the acceptance, which completes the empty string, and the rounds of the expansion. -/
theorem sendStringAppendsItsExpansion : Obligations.SendStringAppendsItsExpansion := by
  intro s str rest a b hcap hr hc hie hturns hstr hstream ⟨ha, hb⟩ hla hlb hfit
  have hwf : (Instr.stSendString str).wf = true :=
    List.all_eq_true.2 fun x hx => decide_eq_true (hstr x hx)
  have hd : decode s.stream = .ok (.stSendString str, rest) := by
    have hbytes : encode (.stSendString str) ++ rest = 0x42 :: (str ++ 0 :: rest) := by
      rw [encode, operandBytes, List.cons_append, List.append_assoc]
      rfl
    rw [hstream, ← hbytes]
    exact encodeThenDecodeGivesTheStimulus (.stSendString str) rest hwf
  obtain ⟨r, hrun, happ⟩ : ∃ r, Host.Core.run core (1 + 2 * (expandString str).length) s =
        .next (((s.withInput rest s.turns).setRing .serTx r).setMl .idle) ∧
      Appended (s.cap .serTx) b s.serTx (expandString str) r := by
    cases str with
    | nil =>
      have hexec : exec (.stSendString []) (s.withInput rest s.turns) = .next (s.withInput rest s.turns) :=
        asSerialBlocking_ready hr hc hie _
      refine ⟨s.serTx, (run_accepted hcap hr hd hexec 0).trans ?_, appended_nil hb hlb⟩
      have hidle := sys_idle hr
      simp only [Host.Core.run, State.setMl, State.setRing, withInput_sys, hidle]
      rfl
    | cons x xs =>
      have hexec : exec (.stSendString (x :: xs)) (s.withInput rest s.turns) =
          .next ((s.withInput rest s.turns).begin (.sendString x xs false)) := asSerialBlocking_ready hr hc hie _
      obtain ⟨r, hrun, happ⟩ :=
        (eager_begin hcap hr hie hturns rest _).run_sends (sends_string s.cfg x xs) rfl ha hb hla hlb hfit
      exact ⟨r, (run_accepted hcap hr hd hexec _).trans hrun, happ⟩
  exact ⟨_, hrun, happ.content, happ.startIx.trans ha, happ.endIx, happ.read, rfl, rfl, rfl, rfl, sys_idle hr, rfl, rfl,
    rfl, hturns⟩

/-! ### Receiving (R107, R109, R125, R126) -/

/-- The operation takes the bytes one after another, logs `new` and completes. -/
inductive Takes (p : Params) : MlOp → List Byte → List Logged → Prop
  | last {op : MlOp} {c : Byte} {new : List Logged} (h : ReceiverDue p op c .idle new) : Takes p op [c] new
  | more {op op' : MlOp} {c : Byte} {bs : List Byte} {new : List Logged} (h : ReceiverDue p op c (.busy op' .check) [])
      (hch : op'.channel = op.channel) (ht : Takes p op' bs new) : Takes p op (c :: bs) new

/-- The ring buffer `r'` is `r` with its content reduced to what was `waiting` behind the bytes taken. -/
structure Drained (n : Nat) (r : Ring) (waiting : List (Option Byte)) (r' : Ring) : Prop where
  endIx : r'.endIx = r.endIx
  mem : r'.mem = r.mem
  content : r'.content n = waiting

/-- An operation that takes the bytes at the front of its ring buffer removes them, two steps each, and leaves mainline
idle. -/
theorem Eager.run_takes (hs : Eager s) (htakes : Takes s.cfg op bs new) (hml : s.sys.ml = .busy op .check)
    (hop : op.channel ≠ .serTx) (hf : op.channel = f) (hl : (s.ring f).Legal (s.cap f))
    (hcontent : (s.ring f).content (s.cap f) = bs.map some ++ waiting) :
    ∃ r, Host.Core.run core (2 * bs.length) s = .next ((s.setRing f r).logged new .idle) ∧
      Drained (s.cap f) (s.ring f) waiting r := by
  have hn := cap_le hs.cap f
  generalize hp : s.cfg = p at htakes
  induction htakes generalizing s with
  | last hdue =>
    subst hf
    obtain ⟨r, hpop, -, hrest⟩ := pop_head hn hl hcontent
    exact ⟨r, hs.run_receive hml hop (hp ▸ hdue) hl hcontent hpop, pop_endIx hpop, pop_mem hpop, hrest⟩
  | @more op op' c bs new hdue hch htakes ih =>
    subst hf
    obtain ⟨r, hpop, hl', hrest⟩ := pop_head hn hl hcontent
    have hround := hs.run_receive hml hop (hp ▸ hdue) hl hcontent hpop
    rw [logged_nil] at hround
    obtain ⟨r', hrun, hend, hmem, hwait⟩ := ih (s := (s.setRing op.channel r).setMl (.busy op' .check))
      ((hs.setRing _ _).setMl _) rfl (hch ▸ hop) hch (by simpa using hl') (by simpa using hrest) (by simpa using hn)
      (by simpa using hp)
    simp only [setMl_ring, ring_setRing_same, setMl_cap, setRing_cap] at hend hmem hwait
    refine ⟨r', ?_, hend.trans (pop_endIx hpop), hmem.trans (pop_mem hpop), hwait⟩
    rw [List.length_cons, Nat.mul_succ, Nat.add_comm, run_add 2 _ hround, hrun]
    cases op.channel <;> rfl

/-- A byte without an entry in the table translates to 0 (00_scope.md R8). -/
theorem translateByte_eq (p : Params) (c : Byte) : translateByte p c = (p.translation.lookup c).getD 0 := by
  unfold translateByte
  cases p.translation.lookup c <;> rfl

/-- A line takes no more bytes than wait for it. -/
theorem takeLine_le {room : Nat} {bytes line : List Byte} (h : takeLine room bytes = some (line, k)) :
    k ≤ bytes.length := by
  induction bytes generalizing room line k with
  | nil => cases room <;> cases h; rfl
  | cons c cs ih =>
    cases room with
    | zero => cases h; exact Nat.zero_le _
    | succ room =>
      rw [takeLine] at h
      split at h
      · cases h; simp
      · split at h
        case h_1 => cases h
        case h_2 line' k' hrest => cases h; exact Nat.succ_le_succ (ih hrest)

/-- `ST.RECV_LINE` with `line₀` collected takes what `takeLine` says for the room left (R109). -/
theorem takes_line {p : Params} {maxLen : Byte} {line₀ line bytes : List Byte} {room : Nat}
    (hroom : line₀.length + (room + 1) = maxLen.toNat - 1) (h : takeLine (room + 1) bytes = some (line, k)) :
    Takes p (.recvLine maxLen line₀) (bytes.take k)
      [.line (line₀ ++ line).length (line₀ ++ line ++ [Config.strTerm])] := by
  induction bytes generalizing room line₀ line k with
  | nil => cases h
  | cons c cs ih =>
    rw [takeLine] at h
    split at h
    case isTrue hnl =>
      cases h
      exact .last (.inr (.inr (.inl ⟨maxLen, line₀, rfl, by simp [hnl, Config.strTerm]⟩)))
    case isFalse hnl =>
      cases room with
      | zero =>
        cases h
        exact .last (.inr (.inr (.inl ⟨maxLen, line₀, rfl, by simp [hnl, hroom, Config.strTerm]⟩)))
      | succ room =>
        split at h
        case h_1 => cases h
        case h_2 line' k' hrest =>
          cases h
          have hlast : line₀.length + 1 ≠ maxLen.toNat - 1 := by omega
          have hlt : line₀.length + 1 < maxLen.toNat - 1 := by omega
          have hnext := ih (line₀ := line₀ ++ [c]) (by rw [List.length_append, List.length_singleton]; omega) hrest
          rw [List.append_assoc, List.singleton_append] at hnext
          exact .more (op' := .recvLine maxLen (line₀ ++ [c]))
            (.inr (.inr (.inl ⟨maxLen, line₀, rfl, by simp [hnl, hlast, hlt]⟩))) rfl hnext

/-- What a receiving operation leaves behind after the acceptance and its rounds. -/
theorem run_received (htakes : Takes s.cfg op bs new) (hcap : s.cfg.capacityOk = true) (hr : s.ready = true)
    (hie : s.sys.ie = true) (hturns : s.turns = []) (hd : decode s.stream = .ok (i, rest))
    (hexec : exec i (s.withInput rest s.turns) = .next ((s.withInput rest s.turns).begin op))
    (hop : op.channel ≠ .serTx) (hl : (s.ring op.channel).Legal (s.cap op.channel))
    (hcontent : (s.ring op.channel).content (s.cap op.channel) = bs.map some ++ waiting) :
    ∃ r, Host.Core.run core (1 + 2 * bs.length) s =
        .next (((s.withInput rest s.turns).setRing op.channel r).logged new .idle) ∧
      Drained (s.cap op.channel) (s.ring op.channel) waiting r := by
  obtain ⟨r, hrun, hdrained⟩ := (eager_begin hcap hr hie hturns rest op).run_takes (f := op.channel) htakes rfl hop rfl
    (by simpa using hl) (by simpa using hcontent)
  rw [← run_accepted hcap hr hd hexec] at hrun
  refine ⟨r, hrun.trans ?_, by simpa using hdrained⟩
  cases op.channel <;> rfl

/-- Settles O23: one round. -/
theorem recvByteReturnsTheOldest : Obligations.RecvByteReturnsTheOldest := by
  intro s v waiting rest a b hcap hr hc hie hturns hstream ⟨ha, hb⟩ hla hlb hcontent
  have hd : decode s.stream = .ok (.stRecvByte, rest) := hstream ▸ encodeThenDecodeGivesTheStimulus .stRecvByte rest rfl
  have htakes : Takes s.cfg .recvByte [v] [.byte v] := .last (.inl ⟨rfl, rfl, rfl⟩)
  obtain ⟨r, hrun, hend, hmem, hwait⟩ := run_received htakes (waiting := waiting) hcap hr hie hturns hd
    (asSerialBlocking_ready hr hc hie _) nofun ⟨a, b, ha, hb, hla, hlb⟩ hcontent
  exact ⟨_, hrun, rfl, hwait, hend.trans hb, hmem, rfl, rfl, rfl, rfl, sys_idle hr, rfl, rfl, rfl, hturns⟩

/-- Settles O24: the rounds that `takeLine` counts; the line of `max_len` 1 is complete at its acceptance. -/
theorem recvLineReturnsTheLine : Obligations.RecvLineReturnsTheLine := by
  intro s maxLen bytes line rest k a b hcap hr hc hie hturns hstream h0 ⟨ha, hb⟩ hla hlb hcontent hline
  have hd : decode s.stream = .ok (.stRecvLine maxLen, rest) :=
    hstream ▸ encodeThenDecodeGivesTheStimulus (.stRecvLine maxLen) rest rfl
  have hpos : maxLen.toNat ≠ 0 := fun h => h0 (BitVec.eq_of_toNat_eq h)
  cases hroom : maxLen.toNat - 1 with
  | zero =>
    rw [hroom] at hline
    cases hline
    have hone : maxLen = 1 := BitVec.eq_of_toNat_eq (by simp; omega)
    subst hone
    have hexec : exec (.stRecvLine 1) (s.withInput rest s.turns) =
      .next ((s.withInput rest s.turns).log (.line 0 [Config.strTerm])) := asSerialBlocking_ready hr hc hie _
    exact ⟨_, run_accepted hcap hr hd hexec 0, rfl, hcontent, hb, rfl, rfl, rfl, rfl, rfl, rfl, rfl, rfl, rfl, hturns⟩
  | succ room =>
    rw [hroom] at hline
    have htakes : Takes s.cfg (.recvLine maxLen []) (bytes.take k) [.line line.length (line ++ [Config.strTerm])] :=
      takes_line (line₀ := []) (by simp [hroom]) hline
    obtain ⟨r, hrun, hend, hmem, hwait⟩ := run_received htakes (waiting := (bytes.drop k).map some) hcap hr hie hturns
      hd (exec_stRecvLine (s := s.withInput rest s.turns) (m := maxLen) hr hc hie (by omega)) nofun
      ⟨a, b, ha, hb, hla, hlb⟩ (by rw [← List.map_append, List.take_append_drop]; exact hcontent)
    rw [List.length_take_of_le (takeLine_le hline)] at hrun
    exact ⟨_, hrun, rfl, hwait, hend.trans hb, hmem, rfl, rfl, rfl, rfl, sys_idle hr, rfl, rfl, rfl, hturns⟩

/-- Settles O34: one round, and a second one behind an escape marker. -/
theorem linkReadersReturnTheOldest : Obligations.LinkReadersReturnTheOldest := by
  intro s c waiting rest i j op hcap hr hie hturns hstream ⟨hi, hj⟩ hli hlj hcontent steps logged left hcases
  have hl : s.linkRx.Legal (s.cap .linkRx) := ⟨i, j, hi, hj, hli, hlj⟩
  rcases hcases with ⟨rfl, rfl, rfl, rfl⟩ | ⟨rfl, hc, rfl, rfl, rfl⟩ | ⟨rfl, hc, rfl, d, rfl, rfl⟩
  · have hd : decode s.stream = .ok (.clReadByte, rest) :=
      hstream ▸ encodeThenDecodeGivesTheStimulus .clReadByte rest rfl
    have htakes : Takes s.cfg .readByte [logged] [.byte logged] := .last (.inr (.inl ⟨rfl, rfl, rfl⟩))
    obtain ⟨r, hrun, hend, hmem, hwait⟩ := run_received htakes (waiting := left) hcap hr hie hturns hd
      (asLinkBlocking_ready hr hie _) nofun hl hcontent
    exact ⟨_, hrun, rfl, hwait, hend.trans hj, hmem, rfl, rfl, rfl, rfl, sys_idle hr, rfl, rfl, rfl, hturns⟩
  all_goals
    have hd : decode s.stream = .ok (.clReadScancode, rest) :=
      hstream ▸ encodeThenDecodeGivesTheStimulus .clReadScancode rest rfl
  · have htakes : Takes s.cfg (.readScancode none) [c] [.byte ((s.cfg.translation.lookup c).getD 0)] :=
      .last (.inr (.inr (.inr ⟨none, rfl, by simp [hc, translateByte_eq]⟩)))
    obtain ⟨r, hrun, hend, hmem, hwait⟩ := run_received htakes (waiting := left) hcap hr hie hturns hd
      (asLinkBlocking_ready hr hie _) nofun hl hcontent
    exact ⟨_, hrun, rfl, hwait, hend.trans hj, hmem, rfl, rfl, rfl, rfl, sys_idle hr, rfl, rfl, rfl, hturns⟩
  · have htakes : Takes s.cfg (.readScancode none) [c, d] [.byte ((s.cfg.translation.lookup d).getD 0)] :=
      .more (op' := .readScancode (some c)) (.inr (.inr (.inr ⟨none, rfl, by simp [hc]⟩))) rfl
        (.last (.inr (.inr (.inr ⟨some c, rfl, by simp [translateByte_eq]⟩))))
    obtain ⟨r, hrun, hend, hmem, hwait⟩ := run_received htakes (waiting := left) hcap hr hie hturns hd
      (asLinkBlocking_ready hr hie _) nofun hl hcontent
    exact ⟨_, hrun, rfl, hwait, hend.trans hj, hmem, rfl, rfl, rfl, rfl, sys_idle hr, rfl, rfl, rfl, hturns⟩

end Sys2Proof.Machine
end

section
/-! Whole frames on the clocked link: eleven edges, each served at once (30_encoding.md R61 to R63, R76;
42_clocked_link_decoder_ops.md R120 to R124). -/

namespace Sys2Proof.Machine

open Sys2Proof.Safety

variable {s t : State} {v : Byte} {b p stop : Bool} {k : Nat}

/-! ### Edges one after another -/

theorem linkBits_cons {bs : List Bool} (h : linkBit b s = .next t) : linkBits (b :: bs) s = linkBits bs t := by
  rw [linkBits, h]

theorem linkBits_append {bs cs : List Bool} (h : linkBits bs s = .next t) : linkBits (bs ++ cs) s = linkBits cs t := by
  induction bs generalizing s with
  | nil => cases h; rfl
  | cons b bs ih =>
    rw [linkBits] at h
    split at h
    case h_1 u hu => rw [List.cons_append, linkBits_cons hu, ih h]
    case h_2 => cases h
    case h_3 => cases h

/-- The state after `ENV.CLK_FALL b` (43_system_env_ops.md R143). -/
def State.fallen (s : State) (b : Bool) : State := { s with cl := { s.cl with clkSamp := some b, clkPend := true } }

/-- An edge latches its bit, and the handler finds it pending (R76). -/
theorem linkBit_eq (b : Bool) (s : State) : linkBit b s = exec .clIsrEdge (s.fallen b) := rfl

/-- The state with the frame at position `c`, the bits received so far in `buf` and their parity in `p`, after an edge
with the bit `b` was served. -/
def State.inFrame (s : State) (b : Bool) (c : BitVec 4) (buf : Byte) (p : Bool) : State :=
  { s with
    cl := { bitCount := some c, bitBuffer := some buf, parityAcc := some p, clkPend := false, clkSamp := some b }
    sys := { s.sys with sleeping := false } }

theorem inFrame_idle_cl (hidle : frameIdle s) (b : Bool) (c : BitVec 4) :
    (s.inFrame b c 0 false).cl = { s.cl with clkPend := false, clkSamp := some b, bitCount := some c } := by
  obtain ⟨-, hbuf, hpar⟩ := hidle
  simp [State.inFrame, hbuf, hpar]

/-! ### The edges of a frame -/

theorem linkBit_start (hie : s.sys.ie = true) (hidle : frameIdle s) :
    linkBit b s = .next (s.inFrame b (if b = true then 0 else 1) 0 false) := by
  obtain ⟨hc, hbuf, hpar⟩ := hidle
  rw [linkBit_eq, exec_clIsrEdge_start (s := s.fallen b) hie rfl rfl hc]
  simp [State.inFrame, State.fallen, hbuf, hpar]

/-- The low `k` bits of a byte: what the buffer holds after `k` data bits (R122). -/
def lowBits (v : Byte) (k : Nat) : Byte := BitVec.ofNat 8 (v.toNat % 2 ^ k)

theorem getLsbD_lowBits (v : Byte) (k : Nat) {j : Nat} (hj : j < 8) :
    (lowBits v k).getLsbD j = (decide (j < k) && v.getLsbD j) := by
  rw [lowBits, BitVec.getLsbD_ofNat, Nat.testBit_mod_two_pow, BitVec.testBit_toNat, decide_eq_true hj, Bool.true_and]

theorem lowBits_zero (v : Byte) : lowBits v 0 = 0 := by simp [lowBits, Nat.mod_one]

theorem lowBits_eight (v : Byte) : lowBits v 8 = v := by
  simp [lowBits, Nat.mod_eq_of_lt v.isLt]

/-- The next data bit put into its place makes the next low bits. -/
theorem withBit_lowBits (v : Byte) (k : Nat) : withBit k (v.getLsbD k) (lowBits v k) = lowBits v (k + 1) := by
  apply BitVec.eq_of_getLsbD_eq
  intro j hj
  rw [getLsbD_withBit hj, getLsbD_lowBits v k hj, getLsbD_lowBits v (k + 1) hj]
  rcases Nat.lt_trichotomy j k with h | rfl | h
  · simp [h, Nat.ne_of_lt h, Nat.lt_succ_of_lt h]
  · simp
  · simp [Nat.not_lt_of_gt h, Nat.ne_of_gt h, Nat.not_lt_of_le (Nat.succ_le_of_lt h)]

theorem linkBit_data (hie : s.sys.ie = true) (hk : k < 8) :
    linkBit (v.getLsbD k) (s.inFrame b (BitVec.ofNat 4 (k + 1)) (lowBits v k) (xorBits (lowBits v k))) =
      .next (s.inFrame (v.getLsbD k) (BitVec.ofNat 4 (k + 2)) (lowBits v (k + 1)) (xorBits (lowBits v (k + 1)))) := by
  have hcount : (BitVec.ofNat 4 (k + 1)).toNat = k + 1 := by rw [BitVec.toNat_ofNat]; omega
  have hfree : (lowBits v k).getLsbD k = false := by simp [getLsbD_lowBits v k hk]
  rw [linkBit_eq, exec_clIsrEdge_data (b := v.getLsbD k) (c := BitVec.ofNat 4 (k + 1)) (by exact hie) rfl rfl
    rfl (by omega) (by omega) rfl rfl, hcount,
    Nat.add_sub_cancel, withBit_lowBits, ← withBit_lowBits v k, xorBits_withBit hk hfree]
  rfl

/-- After the start bit and `k` data bits the frame is at position `k + 1` with those bits and their parity (R122). -/
theorem linkBits_data (hie : s.sys.ie = true) (hk : k ≤ 8) :
    ∃ b, linkBits ((List.range k).map v.getLsbD) (s.inFrame false 1 0 false) =
      .next (s.inFrame b (BitVec.ofNat 4 (k + 1)) (lowBits v k) (xorBits (lowBits v k))) := by
  induction k with
  | zero => exact ⟨false, by rw [lowBits_zero]; rfl⟩
  | succ k ih =>
    obtain ⟨b, hb⟩ := ih (by omega)
    refine ⟨v.getLsbD k, ?_⟩
    rw [List.range_succ, List.map_append, linkBits_append hb]
    exact linkBits_cons (linkBit_data hie hk)

/-- The first nine edges of a frame bring the byte and its parity to position 9. -/
theorem linkBits_frame (hie : s.sys.ie = true) (hidle : frameIdle s) (v : Byte) (p stop : Bool) :
    ∃ b, linkBits (frameBits v p stop) s = linkBits [p, stop] (s.inFrame b 9 v (xorBits v)) := by
  have hbits : frameBits v p stop = [false] ++ ((List.range 8).map v.getLsbD ++ [p, stop]) := rfl
  have hstart : linkBits [false] s = .next (s.inFrame false 1 0 false) := linkBits_cons (linkBit_start hie hidle)
  obtain ⟨b, hdata⟩ := linkBits_data (v := v) hie (le_refl 8)
  rw [lowBits_eight] at hdata
  exact ⟨b, by rw [hbits, linkBits_append hstart, linkBits_append hdata]; rfl⟩

theorem linkBit_stop {c : Byte} {r : Ring} {ok : Bool} (hie : s.sys.ie = true)
    (hpush : s.linkRx.push (s.cap .linkRx) c = .ok (r, ok)) :
    linkBit stop (s.inFrame b 10 c p) = .next ({ s with linkRx := r }.inFrame stop 0 0 false) :=
  exec_clIsrEdge_stop (s := (s.inFrame b 10 c p).fallen stop) hie rfl rfl rfl rfl hpush

/-! ### The obligations -/

/-- Settles O33: the inverted parity bit returns the triple to (0,0,0), where the stop bit is taken for a start bit. -/
theorem badParityFrameIsDiscarded : Obligations.BadParityFrameIsDiscarded := by
  intro s v stop hie hidle
  obtain ⟨b, hframe⟩ := linkBits_frame hie hidle v (!parityBit v) stop
  have hparity : linkBit (!parityBit v) (s.inFrame b 9 v (xorBits v)) = .next (s.inFrame (!parityBit v) 0 0 false) :=
    exec_clIsrEdge_parity_aborted (b := !parityBit v) (s := (s.inFrame b 9 v (xorBits v)).fallen (!parityBit v)) hie rfl
      rfl rfl rfl (by simp [parityBit])
  have hstop : linkBit stop (s.inFrame (!parityBit v) 0 0 false) =
      .next (s.inFrame stop (if stop = true then 0 else 1) 0 false) :=
    linkBit_start (s := s.inFrame (!parityBit v) 0 0 false) hie ⟨rfl, rfl, rfl⟩
  rw [hframe, linkBits_cons hparity, linkBits_cons hstop, linkBits]
  exact congrArg (fun cl => Host.Outcome.next { s with cl := cl, sys := { s.sys with sleeping := false } })
    (inFrame_idle_cl hidle stop _)

/-- Settles O32: the right parity bit leads to position 10, where the byte is pushed whatever the stop bit is. -/
theorem validFrameDeliversItsByte : Obligations.ValidFrameDeliversItsByte := by
  intro s v stop i j hie hidle ⟨hi, hj⟩ hcap hli hlj
  obtain ⟨b, hframe⟩ := linkBits_frame hie hidle v (parityBit v) stop
  have hparity : linkBit (parityBit v) (s.inFrame b 9 v (xorBits v)) =
      .next (s.inFrame (parityBit v) 10 v (xorBits v)) :=
    exec_clIsrEdge_parity_kept (b := parityBit v) (s := (s.inFrame b 9 v (xorBits v)).fallen (parityBit v)) hie rfl
      rfl rfl rfl (by simp [parityBit])
  have hrun : ∀ {r ok}, s.linkRx.push (s.cap .linkRx) v = .ok (r, ok) →
      linkBits (frameBits v (parityBit v) stop) s = .next ({ s with linkRx := r }.inFrame stop 0 0 false) :=
    fun hpush => by
      rw [hframe, linkBits_cons hparity, linkBits_cons (linkBit_stop hie hpush), linkBits]
  have hcl : (s.inFrame stop 0 0 false).cl = { s.cl with clkPend := false, clkSamp := some stop } := by
    rw [inFrame_idle_cl hidle stop 0, ← hidle.1]
  obtain ⟨h2, hn⟩ := capOk_iff.1 hcap
  simp only [ne_eq, ← nextIx_eq_iff (n := s.cap .linkRx) (by omega) (by omega)]
  by_cases hfull : nextIx (s.cap .linkRx) j = i
  · refine ⟨_, hrun (push_full hi hj hfull), hcl, rfl, ?_, rfl, rfl, rfl, rfl, rfl, rfl, rfl⟩
    rw [if_neg (not_not.2 hfull)]
    rfl
  · refine ⟨_, hrun (push_room hi hj hlj hfull), hcl, rfl, ?_, rfl, rfl, rfl, rfl, rfl, rfl, rfl⟩
    rw [if_pos hfull]
    exact ⟨content_append (by omega) hi hj hli hlj hfull, hi, rfl, memory_read_write_same _ _ _,
      fun k hk => memory_read_write_other _ _ hk⟩

end Sys2Proof.Machine
end
